-- ==== Sys2Proof/Word.lean ====
section
/-! DEFINITION. The machine's words (spec 00_scope.md R9) and the widths of a bus access (20_memory.md R66). -/

namespace Sys2Proof

/-- `Word8` of R9. -/
abbrev Byte := BitVec 8

/-- `Word16` of R9. -/
abbrev Half := BitVec 16

/-- `Word32` of R9: an instruction word, a word of memory. -/
abbrev Word32 := BitVec 32

/-- `Word64` of R9: a general register, HI, LO, the pc (R7, XLEN = 64). -/
abbrev Word64 := BitVec 64

/-- `Word128` of R9: a doubleword product. -/
abbrev Word128 := BitVec 128

/-- A bus address (20_memory.md R60, ABITS = 32). -/
abbrev BusAddr := BitVec 32

/-- The number of a general register, 0 to 31 (10_state.md R30). -/
abbrev Reg := BitVec 5

/-- The width n of a bus access, n in 1, 2, 4, 8 bytes (00_scope.md R12). -/
inductive Width where
  | byte
  | half
  | word
  | dword
  deriving DecidableEq, Repr

/-- The number of bytes of an access. -/
def Width.bytes : Width → Nat
  | .byte => 1
  | .half => 2
  | .word => 4
  | .dword => 8

end Sys2Proof
end

