-- ==== Sys2Proof/Config.lean ====
section
/-! DEFINITION. What one construction of the block fixes (spec 00_scope.md R7), and the two free values: what a device
read returns (20_memory.md R73) and what a division by zero leaves (42_muldiv.md R216). -/

namespace Sys2Proof

/-- What stands behind a range of the routing table (20_memory.md R61). -/
inductive RangeKind where
  /-- Plain storage. -/
  | ram
  /-- The callback pair of device `dev`; `alignReq` says whether its accesses must be naturally aligned. -/
  | device (dev : Nat) (alignReq : Bool)
  deriving DecidableEq, Repr

/-- One entry `(base, size, kind)` of the routing table RANGES (20_memory.md R61). -/
structure BusRange where
  base : BusAddr
  size : Nat
  kind : RangeKind
  deriving DecidableEq, Repr

/-- `size` bytes of the bus from `base` on: a piece of the set PERIPH_WRITABLE (60_exceptions.md R344). -/
structure Window where
  base : BusAddr
  size : Nat
  deriving DecidableEq, Repr

/-- One callback of a device, an event of the run (20_memory.md R73): the device, the full bus address, the width and
the value that crossed the interface. -/
inductive DevEvent where
  | read (dev : Nat) (addr : BusAddr) (width : Width) (value : Word64)
  | write (dev : Nat) (addr : BusAddr) (width : Width) (value : Word64)
  deriving DecidableEq, Repr

/-- The four divide instructions, as DIV0 distinguishes them (42_muldiv.md R216). -/
inductive DivOp where
  | div
  | divu
  | ddiv
  | ddivu
  deriving DecidableEq, Repr

/-- The parameter DIV0 of 42_muldiv.md R216. A function cannot be data of the state, so the parameter is which of two
functions it is: the default that R216 tabulates, or the unconstrained `Config.divByZero`. DESIGN CHOICE, log 4. -/
inductive Div0 where
  | standard
  | free
  deriving DecidableEq, Repr

/-- The parameters of a construction (00_scope.md R7). They stand in the state and no step changes them
(10_state.md R40), so a statement about every state is a statement about every configuration. DESIGN CHOICE, log 16. -/
structure Params where
  /-- RANGES, the routing table (20_memory.md R61). -/
  ranges : List BusRange
  /-- FILL, the byte an unmapped address reads as (20_memory.md R69). -/
  fill : Byte
  /-- HALT_WORD, the word that halts the core, if any (40_cycle.md R134). -/
  haltWord : Option Word32
  /-- DIV0, the results of division by zero (42_muldiv.md R216). -/
  div0 : Div0
  /-- IMAGE_BASE, where `load` places the image (70_reset_and_hazards.md R362). -/
  imageBase : BusAddr
  /-- PERIPH_WRITABLE, the RAM bytes a peripheral tick may write (60_exceptions.md R344). -/
  periphWritable : List Window
  deriving DecidableEq, Repr

/-- FREE VALUE (log 10). What the external device `dev` answers to a read when the run's own input
(`State.devReplies`) holds no reply: any function of every earlier callback, the device, the address and the width
(20_memory.md R73). It has no body, so nothing can be proved of its value. -/
opaque Config.deviceRead (history : List DevEvent) (dev : Nat) (addr : BusAddr) (width : Width) : Word64

/-- FREE VALUE (log 4). The pair (LO, HI) that a division by zero leaves where DIV0 is not the default: any function of
the instruction and the dividend (42_muldiv.md R216); a word division gives it W(x[rs][31:0]) (log 27) and
writes W of the low words of its pair (log 28), so that R210 holds whatever it is. It has no body, so nothing can be
proved of its value. -/
opaque Config.divByZero (op : DivOp) (dividend : Word64) : Word64 × Word64

/-- RESET_VECTOR, the pc at construction (00_scope.md R7, fixed). -/
def Config.resetVector : Word64 := 0xFFFFFFFFBFC00000#64

end Sys2Proof
end

