-- ==== Sys2Proof/Syntax.lean ====
section
/-! DEFINITION. The instructions: one constructor for each row of the opcode table (spec 30_encoding.md R109 to R111),
in the table's order, the operands in the order of the assembler's syntax (R121). A field has the width of its field in
the encoding (R101 to R104); the immediates are extended by Machine/Operands.lean (log 17). -/

namespace Sys2Proof

/-- An instruction of the block. Words that are no instruction are `Decoded.reserved` (R108), not terms of this type. -/
inductive Instr where
  /-- SLL rd, rt, sa: shift word left logical by a constant (R175). -/
  | sll (rd rt : Reg) (sa : BitVec 5)
  /-- SRL rd, rt, sa: shift word right logical by a constant (R176). -/
  | srl (rd rt : Reg) (sa : BitVec 5)
  /-- SRA rd, rt, sa: shift word right arithmetic by a constant (R177). -/
  | sra (rd rt : Reg) (sa : BitVec 5)
  /-- SLLV rd, rt, rs: shift word left logical by a register (R178). -/
  | sllv (rd rt rs : Reg)
  /-- SRLV rd, rt, rs: shift word right logical by a register (R179). -/
  | srlv (rd rt rs : Reg)
  /-- SRAV rd, rt, rs: shift word right arithmetic by a register (R180). -/
  | srav (rd rt rs : Reg)
  /-- JR rs: jump register (R274). -/
  | jr (rs : Reg)
  /-- JALR rd, rs: jump and link register (R275). -/
  | jalr (rd rs : Reg)
  /-- SYSCALL: system call (R300). -/
  | syscall (code : BitVec 20)
  /-- BREAK: breakpoint (R301). -/
  | brk (code : BitVec 20)
  /-- SYNC: memory barrier (R302). -/
  | sync
  /-- MFHI rd: move from HI (R221). -/
  | mfhi (rd : Reg)
  /-- MTHI rs: move to HI (R222). -/
  | mthi (rs : Reg)
  /-- MFLO rd: move from LO (R223). -/
  | mflo (rd : Reg)
  /-- MTLO rs: move to LO (R224). -/
  | mtlo (rs : Reg)
  /-- DSLLV rd, rt, rs: shift doubleword left logical by a register (R187). -/
  | dsllv (rd rt rs : Reg)
  /-- DSRLV rd, rt, rs: shift doubleword right logical by a register (R188). -/
  | dsrlv (rd rt rs : Reg)
  /-- DSRAV rd, rt, rs: shift doubleword right arithmetic by a register (R189). -/
  | dsrav (rd rt rs : Reg)
  /-- MULT rs, rt: multiply word, signed (R211). -/
  | mult (rs rt : Reg)
  /-- MULTU rs, rt: multiply word, unsigned (R212). -/
  | multu (rs rt : Reg)
  /-- DIV rs, rt: divide word, signed (R217). -/
  | div (rs rt : Reg)
  /-- DIVU rs, rt: divide word, unsigned (R218). -/
  | divu (rs rt : Reg)
  /-- DMULT rs, rt: multiply doubleword, signed (R213). -/
  | dmult (rs rt : Reg)
  /-- DMULTU rs, rt: multiply doubleword, unsigned (R214). -/
  | dmultu (rs rt : Reg)
  /-- DDIV rs, rt: divide doubleword, signed (R219). -/
  | ddiv (rs rt : Reg)
  /-- DDIVU rs, rt: divide doubleword, unsigned (R220). -/
  | ddivu (rs rt : Reg)
  /-- ADD rd, rs, rt: add word, trap on signed overflow (R151). -/
  | add (rd rs rt : Reg)
  /-- ADDU rd, rs, rt: add word, wrapping (R152). -/
  | addu (rd rs rt : Reg)
  /-- SUB rd, rs, rt: subtract word, trap on signed overflow (R153). -/
  | sub (rd rs rt : Reg)
  /-- SUBU rd, rs, rt: subtract word, wrapping (R154). -/
  | subu (rd rs rt : Reg)
  /-- AND rd, rs, rt: bitwise and, 64-bit (R167). -/
  | and (rd rs rt : Reg)
  /-- OR rd, rs, rt: bitwise or, 64-bit (R168). -/
  | or (rd rs rt : Reg)
  /-- XOR rd, rs, rt: bitwise exclusive or, 64-bit (R169). -/
  | xor (rd rs rt : Reg)
  /-- NOR rd, rs, rt: bitwise not-or, 64-bit (R170). -/
  | nor (rd rs rt : Reg)
  /-- SLT rd, rs, rt: set on less than, signed, 64-bit compare (R163). -/
  | slt (rd rs rt : Reg)
  /-- SLTU rd, rs, rt: set on less than, unsigned, 64-bit compare (R164). -/
  | sltu (rd rs rt : Reg)
  /-- DADD rd, rs, rt: add doubleword, trap on signed overflow (R155). -/
  | dadd (rd rs rt : Reg)
  /-- DADDU rd, rs, rt: add doubleword, wrapping (R156). -/
  | daddu (rd rs rt : Reg)
  /-- DSUB rd, rs, rt: subtract doubleword, trap on signed overflow (R157). -/
  | dsub (rd rs rt : Reg)
  /-- DSUBU rd, rs, rt: subtract doubleword, wrapping (R158). -/
  | dsubu (rd rs rt : Reg)
  /-- TGE rs, rt: trap if greater than or equal (R304). -/
  | tge (rs rt : Reg) (code : BitVec 10)
  /-- TGEU rs, rt: trap if greater than or equal, unsigned (R305). -/
  | tgeu (rs rt : Reg) (code : BitVec 10)
  /-- TLT rs, rt: trap if less than (R306). -/
  | tlt (rs rt : Reg) (code : BitVec 10)
  /-- TLTU rs, rt: trap if less than, unsigned (R307). -/
  | tltu (rs rt : Reg) (code : BitVec 10)
  /-- TEQ rs, rt: trap if equal (R308). -/
  | teq (rs rt : Reg) (code : BitVec 10)
  /-- TNE rs, rt: trap if not equal (R309). -/
  | tne (rs rt : Reg) (code : BitVec 10)
  /-- DSLL rd, rt, sa: shift doubleword left logical by 0–31 (R181). -/
  | dsll (rd rt : Reg) (sa : BitVec 5)
  /-- DSRL rd, rt, sa: shift doubleword right logical by 0–31 (R182). -/
  | dsrl (rd rt : Reg) (sa : BitVec 5)
  /-- DSRA rd, rt, sa: shift doubleword right arithmetic by 0–31 (R183). -/
  | dsra (rd rt : Reg) (sa : BitVec 5)
  /-- DSLL32 rd, rt, sa: shift doubleword left logical by 32–63 (R184). -/
  | dsll32 (rd rt : Reg) (sa : BitVec 5)
  /-- DSRL32 rd, rt, sa: shift doubleword right logical by 32–63 (R185). -/
  | dsrl32 (rd rt : Reg) (sa : BitVec 5)
  /-- DSRA32 rd, rt, sa: shift doubleword right arithmetic by 32–63 (R186). -/
  | dsra32 (rd rt : Reg) (sa : BitVec 5)
  /-- BLTZ rs, offset: branch on less than zero (R280). -/
  | bltz (rs : Reg) (imm : BitVec 16)
  /-- BGEZ rs, offset: branch on greater than or equal to zero (R281). -/
  | bgez (rs : Reg) (imm : BitVec 16)
  /-- BLTZL rs, offset: branch on less than zero likely (R288). -/
  | bltzl (rs : Reg) (imm : BitVec 16)
  /-- BGEZL rs, offset: branch on greater than or equal to zero likely (R289). -/
  | bgezl (rs : Reg) (imm : BitVec 16)
  /-- TGEI rs, immediate: trap if greater than or equal, immediate (R310). -/
  | tgei (rs : Reg) (imm : BitVec 16)
  /-- TGEIU rs, immediate: trap if greater than or equal, unsigned immediate (R311). -/
  | tgeiu (rs : Reg) (imm : BitVec 16)
  /-- TLTI rs, immediate: trap if less than, immediate (R312). -/
  | tlti (rs : Reg) (imm : BitVec 16)
  /-- TLTIU rs, immediate: trap if less than, unsigned immediate (R313). -/
  | tltiu (rs : Reg) (imm : BitVec 16)
  /-- TEQI rs, immediate: trap if equal, immediate (R314). -/
  | teqi (rs : Reg) (imm : BitVec 16)
  /-- TNEI rs, immediate: trap if not equal, immediate (R315). -/
  | tnei (rs : Reg) (imm : BitVec 16)
  /-- BLTZAL rs, offset: branch on less than zero and link (R282). -/
  | bltzal (rs : Reg) (imm : BitVec 16)
  /-- BGEZAL rs, offset: branch on greater than or equal to zero and link (R283). -/
  | bgezal (rs : Reg) (imm : BitVec 16)
  /-- BLTZALL rs, offset: branch on less than zero and link likely (R290). -/
  | bltzall (rs : Reg) (imm : BitVec 16)
  /-- BGEZALL rs, offset: branch on greater than or equal to zero and link likely (R291). -/
  | bgezall (rs : Reg) (imm : BitVec 16)
  /-- J target: jump (R272). -/
  | j (target : BitVec 26)
  /-- JAL target: jump and link (R273). -/
  | jal (target : BitVec 26)
  /-- BEQ rs, rt, offset: branch on equal (R276). -/
  | beq (rs rt : Reg) (imm : BitVec 16)
  /-- BNE rs, rt, offset: branch on not equal (R277). -/
  | bne (rs rt : Reg) (imm : BitVec 16)
  /-- BLEZ rs, offset: branch on less than or equal to zero (R278). -/
  | blez (rs : Reg) (imm : BitVec 16)
  /-- BGTZ rs, offset: branch on greater than zero (R279). -/
  | bgtz (rs : Reg) (imm : BitVec 16)
  /-- ADDI rt, rs, imm: add immediate word, trap on signed overflow (R159). -/
  | addi (rt rs : Reg) (imm : BitVec 16)
  /-- ADDIU rt, rs, imm: add immediate word, wrapping (the immediate is still sign-extended) (R160). -/
  | addiu (rt rs : Reg) (imm : BitVec 16)
  /-- SLTI rt, rs, imm: set on less than immediate, signed (R165). -/
  | slti (rt rs : Reg) (imm : BitVec 16)
  /-- SLTIU rt, rs, imm: set on less than immediate, unsigned (R166). -/
  | sltiu (rt rs : Reg) (imm : BitVec 16)
  /-- ANDI rt, rs, imm: and with zero-extended immediate (R171). -/
  | andi (rt rs : Reg) (imm : BitVec 16)
  /-- ORI rt, rs, imm: or with zero-extended immediate (R172). -/
  | ori (rt rs : Reg) (imm : BitVec 16)
  /-- XORI rt, rs, imm: exclusive or with zero-extended immediate (R173). -/
  | xori (rt rs : Reg) (imm : BitVec 16)
  /-- LUI rt, imm: load upper immediate (R174). -/
  | lui (rt : Reg) (imm : BitVec 16)
  /-- BEQL rs, rt, offset: branch on equal likely (R284). -/
  | beql (rs rt : Reg) (imm : BitVec 16)
  /-- BNEL rs, rt, offset: branch on not equal likely (R285). -/
  | bnel (rs rt : Reg) (imm : BitVec 16)
  /-- BLEZL rs, offset: branch on less than or equal to zero likely (R286). -/
  | blezl (rs : Reg) (imm : BitVec 16)
  /-- BGTZL rs, offset: branch on greater than zero likely (R287). -/
  | bgtzl (rs : Reg) (imm : BitVec 16)
  /-- DADDI rt, rs, imm: add immediate doubleword, trap on signed overflow (R161). -/
  | daddi (rt rs : Reg) (imm : BitVec 16)
  /-- DADDIU rt, rs, imm: add immediate doubleword, wrapping (R162). -/
  | daddiu (rt rs : Reg) (imm : BitVec 16)
  /-- LDL rt, offset(base): load doubleword left (R242). -/
  | ldl (rt : Reg) (offset : BitVec 16) (base : Reg)
  /-- LDR rt, offset(base): load doubleword right (R243). -/
  | ldr (rt : Reg) (offset : BitVec 16) (base : Reg)
  /-- LB rt, offset(base): load byte, sign-extended (R233). -/
  | lb (rt : Reg) (offset : BitVec 16) (base : Reg)
  /-- LH rt, offset(base): load halfword, sign-extended (R235). -/
  | lh (rt : Reg) (offset : BitVec 16) (base : Reg)
  /-- LWL rt, offset(base): load word left (R240). -/
  | lwl (rt : Reg) (offset : BitVec 16) (base : Reg)
  /-- LW rt, offset(base): load word, sign-extended (R237). -/
  | lw (rt : Reg) (offset : BitVec 16) (base : Reg)
  /-- LBU rt, offset(base): load byte, zero-extended (R234). -/
  | lbu (rt : Reg) (offset : BitVec 16) (base : Reg)
  /-- LHU rt, offset(base): load halfword, zero-extended (R236). -/
  | lhu (rt : Reg) (offset : BitVec 16) (base : Reg)
  /-- LWR rt, offset(base): load word right (R241). -/
  | lwr (rt : Reg) (offset : BitVec 16) (base : Reg)
  /-- LWU rt, offset(base): load word, zero-extended (R238). -/
  | lwu (rt : Reg) (offset : BitVec 16) (base : Reg)
  /-- SB rt, offset(base): store byte (R244). -/
  | sb (rt : Reg) (offset : BitVec 16) (base : Reg)
  /-- SH rt, offset(base): store halfword (R245). -/
  | sh (rt : Reg) (offset : BitVec 16) (base : Reg)
  /-- SWL rt, offset(base): store word left (R249). -/
  | swl (rt : Reg) (offset : BitVec 16) (base : Reg)
  /-- SW rt, offset(base): store word (R246). -/
  | sw (rt : Reg) (offset : BitVec 16) (base : Reg)
  /-- SDL rt, offset(base): store doubleword left (R251). -/
  | sdl (rt : Reg) (offset : BitVec 16) (base : Reg)
  /-- SDR rt, offset(base): store doubleword right (R252). -/
  | sdr (rt : Reg) (offset : BitVec 16) (base : Reg)
  /-- SWR rt, offset(base): store word right (R250). -/
  | swr (rt : Reg) (offset : BitVec 16) (base : Reg)
  /-- LL rt, offset(base): load linked word (R253). -/
  | ll (rt : Reg) (offset : BitVec 16) (base : Reg)
  /-- LLD rt, offset(base): load linked doubleword (R254). -/
  | lld (rt : Reg) (offset : BitVec 16) (base : Reg)
  /-- LD rt, offset(base): load doubleword (R239). -/
  | ld (rt : Reg) (offset : BitVec 16) (base : Reg)
  /-- SC rt, offset(base): store conditional word (R255). -/
  | sc (rt : Reg) (offset : BitVec 16) (base : Reg)
  /-- SCD rt, offset(base): store conditional doubleword (R256). -/
  | scd (rt : Reg) (offset : BitVec 16) (base : Reg)
  /-- SD rt, offset(base): store doubleword (R247). -/
  | sd (rt : Reg) (offset : BitVec 16) (base : Reg)
  deriving DecidableEq, Repr

end Sys2Proof
end

