-- ==== Sys2Proof/Decode.lean ====
section
/-! DEFINITION. The decoder and the encoder (spec 30_encoding.md): one 32-bit word an instruction (R100), the field
positions of R101 to R104, the maps of R109 to R111, the must-be-zero fields of R112, every other word reserved (R113). -/

namespace Sys2Proof

/-! ### The fields of an instruction word (R14, R101 to R104) -/

/-- `op = w[31:26]`. -/
def opOf (w : Word32) : BitVec 6 := w.extractLsb' 26 6

/-- `rs = w[25:21]`, the base register of loads and stores. -/
def rsOf (w : Word32) : BitVec 5 := w.extractLsb' 21 5

/-- `rt = w[20:16]`, the sub-opcode of the REGIMM format. -/
def rtOf (w : Word32) : BitVec 5 := w.extractLsb' 16 5

/-- `rd = w[15:11]`. -/
def rdOf (w : Word32) : BitVec 5 := w.extractLsb' 11 5

/-- `sa = w[10:6]`. -/
def saOf (w : Word32) : BitVec 5 := w.extractLsb' 6 5

/-- `funct = w[5:0]`. -/
def functOf (w : Word32) : BitVec 6 := w.extractLsb' 0 6

/-- `imm = w[15:0]`, the offset of loads, stores and branches. -/
def immOf (w : Word32) : BitVec 16 := w.extractLsb' 0 16

/-- `target = w[25:0]`. -/
def targetOf (w : Word32) : BitVec 26 := w.extractLsb' 0 26

/-- `code = w[25:6]` of SYSCALL and BREAK (R101). -/
def code20Of (w : Word32) : BitVec 20 := w.extractLsb' 6 20

/-- `code = w[15:6]` of the register traps (R101). -/
def code10Of (w : Word32) : BitVec 10 := w.extractLsb' 6 10

/-! ### The decoder -/

/-- Why a word is reserved: the lines of R113. The model's own names (log 19): the exception is the same for all. -/
inductive ReservedWhy where
  /-- A reserved entry of the primary map. -/
  | primary
  /-- A reserved `funct` of the SPECIAL map. -/
  | special
  /-- A reserved sub-opcode of the REGIMM map. -/
  | regimm
  /-- A coprocessor instruction (45_system.md R317). -/
  | coprocessor
  /-- CACHE (45_system.md R318). -/
  | cache
  /-- A nonzero must-be-zero field (45_system.md R319). -/
  | mustBeZero
  deriving DecidableEq, Repr

/-- What decoding a word gives (R108): an instruction, or the sentinel `Reserved(w)`, which keeps the raw word. -/
inductive Decoded where
  | instr (i : Instr)
  | reserved (w : Word32) (why : ReservedWhy)
  deriving DecidableEq, Repr

/-- `MBZ_OK` of R108 for one instruction: the instruction if its must-be-zero fields are zero, else `Reserved(w)`. -/
def mustBeZero (ok : Bool) (i : Instr) (w : Word32) : Decoded :=
  if ok then .instr i else .reserved w .mustBeZero

/-- SPECIAL_MAP, by `funct` (R110), with the must-be-zero fields of R112. -/
def decodeSpecial (w : Word32) : Decoded :=
  match (functOf w).toNat with
  | 0x00 => mustBeZero (rsOf w = 0) (.sll (rdOf w) (rtOf w) (saOf w)) w
  | 0x02 => mustBeZero (rsOf w = 0) (.srl (rdOf w) (rtOf w) (saOf w)) w
  | 0x03 => mustBeZero (rsOf w = 0) (.sra (rdOf w) (rtOf w) (saOf w)) w
  | 0x04 => mustBeZero (saOf w = 0) (.sllv (rdOf w) (rtOf w) (rsOf w)) w
  | 0x06 => mustBeZero (saOf w = 0) (.srlv (rdOf w) (rtOf w) (rsOf w)) w
  | 0x07 => mustBeZero (saOf w = 0) (.srav (rdOf w) (rtOf w) (rsOf w)) w
  | 0x08 => mustBeZero (rtOf w = 0 ∧ rdOf w = 0 ∧ saOf w = 0) (.jr (rsOf w)) w
  | 0x09 => mustBeZero (rtOf w = 0 ∧ saOf w = 0) (.jalr (rdOf w) (rsOf w)) w
  | 0x0C => .instr (.syscall (code20Of w))
  | 0x0D => .instr (.brk (code20Of w))
  | 0x0F => mustBeZero (code20Of w = 0) .sync w
  | 0x10 => mustBeZero (rsOf w = 0 ∧ rtOf w = 0 ∧ saOf w = 0) (.mfhi (rdOf w)) w
  | 0x11 => mustBeZero (rtOf w = 0 ∧ rdOf w = 0 ∧ saOf w = 0) (.mthi (rsOf w)) w
  | 0x12 => mustBeZero (rsOf w = 0 ∧ rtOf w = 0 ∧ saOf w = 0) (.mflo (rdOf w)) w
  | 0x13 => mustBeZero (rtOf w = 0 ∧ rdOf w = 0 ∧ saOf w = 0) (.mtlo (rsOf w)) w
  | 0x14 => mustBeZero (saOf w = 0) (.dsllv (rdOf w) (rtOf w) (rsOf w)) w
  | 0x16 => mustBeZero (saOf w = 0) (.dsrlv (rdOf w) (rtOf w) (rsOf w)) w
  | 0x17 => mustBeZero (saOf w = 0) (.dsrav (rdOf w) (rtOf w) (rsOf w)) w
  | 0x18 => mustBeZero (rdOf w = 0 ∧ saOf w = 0) (.mult (rsOf w) (rtOf w)) w
  | 0x19 => mustBeZero (rdOf w = 0 ∧ saOf w = 0) (.multu (rsOf w) (rtOf w)) w
  | 0x1A => mustBeZero (rdOf w = 0 ∧ saOf w = 0) (.div (rsOf w) (rtOf w)) w
  | 0x1B => mustBeZero (rdOf w = 0 ∧ saOf w = 0) (.divu (rsOf w) (rtOf w)) w
  | 0x1C => mustBeZero (rdOf w = 0 ∧ saOf w = 0) (.dmult (rsOf w) (rtOf w)) w
  | 0x1D => mustBeZero (rdOf w = 0 ∧ saOf w = 0) (.dmultu (rsOf w) (rtOf w)) w
  | 0x1E => mustBeZero (rdOf w = 0 ∧ saOf w = 0) (.ddiv (rsOf w) (rtOf w)) w
  | 0x1F => mustBeZero (rdOf w = 0 ∧ saOf w = 0) (.ddivu (rsOf w) (rtOf w)) w
  | 0x20 => mustBeZero (saOf w = 0) (.add (rdOf w) (rsOf w) (rtOf w)) w
  | 0x21 => mustBeZero (saOf w = 0) (.addu (rdOf w) (rsOf w) (rtOf w)) w
  | 0x22 => mustBeZero (saOf w = 0) (.sub (rdOf w) (rsOf w) (rtOf w)) w
  | 0x23 => mustBeZero (saOf w = 0) (.subu (rdOf w) (rsOf w) (rtOf w)) w
  | 0x24 => mustBeZero (saOf w = 0) (.and (rdOf w) (rsOf w) (rtOf w)) w
  | 0x25 => mustBeZero (saOf w = 0) (.or (rdOf w) (rsOf w) (rtOf w)) w
  | 0x26 => mustBeZero (saOf w = 0) (.xor (rdOf w) (rsOf w) (rtOf w)) w
  | 0x27 => mustBeZero (saOf w = 0) (.nor (rdOf w) (rsOf w) (rtOf w)) w
  | 0x2A => mustBeZero (saOf w = 0) (.slt (rdOf w) (rsOf w) (rtOf w)) w
  | 0x2B => mustBeZero (saOf w = 0) (.sltu (rdOf w) (rsOf w) (rtOf w)) w
  | 0x2C => mustBeZero (saOf w = 0) (.dadd (rdOf w) (rsOf w) (rtOf w)) w
  | 0x2D => mustBeZero (saOf w = 0) (.daddu (rdOf w) (rsOf w) (rtOf w)) w
  | 0x2E => mustBeZero (saOf w = 0) (.dsub (rdOf w) (rsOf w) (rtOf w)) w
  | 0x2F => mustBeZero (saOf w = 0) (.dsubu (rdOf w) (rsOf w) (rtOf w)) w
  | 0x30 => .instr (.tge (rsOf w) (rtOf w) (code10Of w))
  | 0x31 => .instr (.tgeu (rsOf w) (rtOf w) (code10Of w))
  | 0x32 => .instr (.tlt (rsOf w) (rtOf w) (code10Of w))
  | 0x33 => .instr (.tltu (rsOf w) (rtOf w) (code10Of w))
  | 0x34 => .instr (.teq (rsOf w) (rtOf w) (code10Of w))
  | 0x36 => .instr (.tne (rsOf w) (rtOf w) (code10Of w))
  | 0x38 => mustBeZero (rsOf w = 0) (.dsll (rdOf w) (rtOf w) (saOf w)) w
  | 0x3A => mustBeZero (rsOf w = 0) (.dsrl (rdOf w) (rtOf w) (saOf w)) w
  | 0x3B => mustBeZero (rsOf w = 0) (.dsra (rdOf w) (rtOf w) (saOf w)) w
  | 0x3C => mustBeZero (rsOf w = 0) (.dsll32 (rdOf w) (rtOf w) (saOf w)) w
  | 0x3E => mustBeZero (rsOf w = 0) (.dsrl32 (rdOf w) (rtOf w) (saOf w)) w
  | 0x3F => mustBeZero (rsOf w = 0) (.dsra32 (rdOf w) (rtOf w) (saOf w)) w
  | _ => .reserved w .special

/-- REGIMM_MAP, by the sub-opcode in the `rt` field (R111). -/
def decodeRegimm (w : Word32) : Decoded :=
  match (rtOf w).toNat with
  | 0x00 => .instr (.bltz (rsOf w) (immOf w))
  | 0x01 => .instr (.bgez (rsOf w) (immOf w))
  | 0x02 => .instr (.bltzl (rsOf w) (immOf w))
  | 0x03 => .instr (.bgezl (rsOf w) (immOf w))
  | 0x08 => .instr (.tgei (rsOf w) (immOf w))
  | 0x09 => .instr (.tgeiu (rsOf w) (immOf w))
  | 0x0A => .instr (.tlti (rsOf w) (immOf w))
  | 0x0B => .instr (.tltiu (rsOf w) (immOf w))
  | 0x0C => .instr (.teqi (rsOf w) (immOf w))
  | 0x0E => .instr (.tnei (rsOf w) (immOf w))
  | 0x10 => .instr (.bltzal (rsOf w) (immOf w))
  | 0x11 => .instr (.bgezal (rsOf w) (immOf w))
  | 0x12 => .instr (.bltzall (rsOf w) (immOf w))
  | 0x13 => .instr (.bgezall (rsOf w) (immOf w))
  | _ => .reserved w .regimm

/-- `decode` (R108): a pure, total function of the word (R107), by the primary map (R109). -/
def decode (w : Word32) : Decoded :=
  match (opOf w).toNat with
  | 0x00 => decodeSpecial w
  | 0x01 => decodeRegimm w
  | 0x02 => .instr (.j (targetOf w))
  | 0x03 => .instr (.jal (targetOf w))
  | 0x04 => .instr (.beq (rsOf w) (rtOf w) (immOf w))
  | 0x05 => .instr (.bne (rsOf w) (rtOf w) (immOf w))
  | 0x06 => mustBeZero (rtOf w = 0) (.blez (rsOf w) (immOf w)) w
  | 0x07 => mustBeZero (rtOf w = 0) (.bgtz (rsOf w) (immOf w)) w
  | 0x08 => .instr (.addi (rtOf w) (rsOf w) (immOf w))
  | 0x09 => .instr (.addiu (rtOf w) (rsOf w) (immOf w))
  | 0x0A => .instr (.slti (rtOf w) (rsOf w) (immOf w))
  | 0x0B => .instr (.sltiu (rtOf w) (rsOf w) (immOf w))
  | 0x0C => .instr (.andi (rtOf w) (rsOf w) (immOf w))
  | 0x0D => .instr (.ori (rtOf w) (rsOf w) (immOf w))
  | 0x0E => .instr (.xori (rtOf w) (rsOf w) (immOf w))
  | 0x0F => mustBeZero (rsOf w = 0) (.lui (rtOf w) (immOf w)) w
  | 0x10 => .reserved w .coprocessor
  | 0x11 => .reserved w .coprocessor
  | 0x12 => .reserved w .coprocessor
  | 0x14 => .instr (.beql (rsOf w) (rtOf w) (immOf w))
  | 0x15 => .instr (.bnel (rsOf w) (rtOf w) (immOf w))
  | 0x16 => mustBeZero (rtOf w = 0) (.blezl (rsOf w) (immOf w)) w
  | 0x17 => mustBeZero (rtOf w = 0) (.bgtzl (rsOf w) (immOf w)) w
  | 0x18 => .instr (.daddi (rtOf w) (rsOf w) (immOf w))
  | 0x19 => .instr (.daddiu (rtOf w) (rsOf w) (immOf w))
  | 0x1A => .instr (.ldl (rtOf w) (immOf w) (rsOf w))
  | 0x1B => .instr (.ldr (rtOf w) (immOf w) (rsOf w))
  | 0x20 => .instr (.lb (rtOf w) (immOf w) (rsOf w))
  | 0x21 => .instr (.lh (rtOf w) (immOf w) (rsOf w))
  | 0x22 => .instr (.lwl (rtOf w) (immOf w) (rsOf w))
  | 0x23 => .instr (.lw (rtOf w) (immOf w) (rsOf w))
  | 0x24 => .instr (.lbu (rtOf w) (immOf w) (rsOf w))
  | 0x25 => .instr (.lhu (rtOf w) (immOf w) (rsOf w))
  | 0x26 => .instr (.lwr (rtOf w) (immOf w) (rsOf w))
  | 0x27 => .instr (.lwu (rtOf w) (immOf w) (rsOf w))
  | 0x28 => .instr (.sb (rtOf w) (immOf w) (rsOf w))
  | 0x29 => .instr (.sh (rtOf w) (immOf w) (rsOf w))
  | 0x2A => .instr (.swl (rtOf w) (immOf w) (rsOf w))
  | 0x2B => .instr (.sw (rtOf w) (immOf w) (rsOf w))
  | 0x2C => .instr (.sdl (rtOf w) (immOf w) (rsOf w))
  | 0x2D => .instr (.sdr (rtOf w) (immOf w) (rsOf w))
  | 0x2E => .instr (.swr (rtOf w) (immOf w) (rsOf w))
  | 0x2F => .reserved w .cache
  | 0x30 => .instr (.ll (rtOf w) (immOf w) (rsOf w))
  | 0x31 => .reserved w .coprocessor
  | 0x32 => .reserved w .coprocessor
  | 0x34 => .instr (.lld (rtOf w) (immOf w) (rsOf w))
  | 0x35 => .reserved w .coprocessor
  | 0x36 => .reserved w .coprocessor
  | 0x37 => .instr (.ld (rtOf w) (immOf w) (rsOf w))
  | 0x38 => .instr (.sc (rtOf w) (immOf w) (rsOf w))
  | 0x39 => .reserved w .coprocessor
  | 0x3A => .reserved w .coprocessor
  | 0x3C => .instr (.scd (rtOf w) (immOf w) (rsOf w))
  | 0x3D => .reserved w .coprocessor
  | 0x3E => .reserved w .coprocessor
  | 0x3F => .instr (.sd (rtOf w) (immOf w) (rsOf w))
  | _ => .reserved w .primary

/-- The word that four bytes of memory make, the first at the lowest address: big-endian (20_memory.md R74, R75). -/
def wordOfBytes (b0 b1 b2 b3 : Byte) : Word32 := b0 ++ b1 ++ b2 ++ b3

/-- The four bytes of a word, the first for the lowest address (20_memory.md R74). -/
def bytesOfWord (w : Word32) : List Byte :=
  [w.extractLsb' 24 8, w.extractLsb' 16 8, w.extractLsb' 8 8, w.extractLsb' 0 8]

/-- Decoding four bytes as they lie in memory. -/
def decodeBytes (b0 b1 b2 b3 : Byte) : Decoded := decode (wordOfBytes b0 b1 b2 b3)

/-! ### The encoder -/

/-- The R format (R101), `op = 0`. -/
def rWord (rs rt rd sa : BitVec 5) (funct : BitVec 6) : Word32 := 0#6 ++ rs ++ rt ++ rd ++ sa ++ funct

/-- The R format of SYSCALL and BREAK: bits 25:6 are the code (R101). -/
def codeWord (code : BitVec 20) (funct : BitVec 6) : Word32 := 0#6 ++ code ++ funct

/-- The R format of the register traps: bits 15:6 are the code (R101). -/
def trapWord (rs rt : BitVec 5) (code : BitVec 10) (funct : BitVec 6) : Word32 := 0#6 ++ rs ++ rt ++ code ++ funct

/-- The I format (R102), and with `op = 1` and the sub-opcode for `rt` the REGIMM format (R103). -/
def iWord (op : BitVec 6) (rs rt : BitVec 5) (imm : BitVec 16) : Word32 := op ++ rs ++ rt ++ imm

/-- The J format (R104). -/
def jWord (op : BitVec 6) (target : BitVec 26) : Word32 := op ++ target

/-- The word of an instruction, from the match values of the opcode table; must-be-zero fields are zero (R112). -/
def encode : Instr → Word32
  | .sll rd rt sa => rWord 0 rt rd sa 0x00
  | .srl rd rt sa => rWord 0 rt rd sa 0x02
  | .sra rd rt sa => rWord 0 rt rd sa 0x03
  | .sllv rd rt rs => rWord rs rt rd 0 0x04
  | .srlv rd rt rs => rWord rs rt rd 0 0x06
  | .srav rd rt rs => rWord rs rt rd 0 0x07
  | .jr rs => rWord rs 0 0 0 0x08
  | .jalr rd rs => rWord rs 0 rd 0 0x09
  | .syscall code => codeWord code 0x0C
  | .brk code => codeWord code 0x0D
  | .sync => rWord 0 0 0 0 0x0F
  | .mfhi rd => rWord 0 0 rd 0 0x10
  | .mthi rs => rWord rs 0 0 0 0x11
  | .mflo rd => rWord 0 0 rd 0 0x12
  | .mtlo rs => rWord rs 0 0 0 0x13
  | .dsllv rd rt rs => rWord rs rt rd 0 0x14
  | .dsrlv rd rt rs => rWord rs rt rd 0 0x16
  | .dsrav rd rt rs => rWord rs rt rd 0 0x17
  | .mult rs rt => rWord rs rt 0 0 0x18
  | .multu rs rt => rWord rs rt 0 0 0x19
  | .div rs rt => rWord rs rt 0 0 0x1A
  | .divu rs rt => rWord rs rt 0 0 0x1B
  | .dmult rs rt => rWord rs rt 0 0 0x1C
  | .dmultu rs rt => rWord rs rt 0 0 0x1D
  | .ddiv rs rt => rWord rs rt 0 0 0x1E
  | .ddivu rs rt => rWord rs rt 0 0 0x1F
  | .add rd rs rt => rWord rs rt rd 0 0x20
  | .addu rd rs rt => rWord rs rt rd 0 0x21
  | .sub rd rs rt => rWord rs rt rd 0 0x22
  | .subu rd rs rt => rWord rs rt rd 0 0x23
  | .and rd rs rt => rWord rs rt rd 0 0x24
  | .or rd rs rt => rWord rs rt rd 0 0x25
  | .xor rd rs rt => rWord rs rt rd 0 0x26
  | .nor rd rs rt => rWord rs rt rd 0 0x27
  | .slt rd rs rt => rWord rs rt rd 0 0x2A
  | .sltu rd rs rt => rWord rs rt rd 0 0x2B
  | .dadd rd rs rt => rWord rs rt rd 0 0x2C
  | .daddu rd rs rt => rWord rs rt rd 0 0x2D
  | .dsub rd rs rt => rWord rs rt rd 0 0x2E
  | .dsubu rd rs rt => rWord rs rt rd 0 0x2F
  | .tge rs rt code => trapWord rs rt code 0x30
  | .tgeu rs rt code => trapWord rs rt code 0x31
  | .tlt rs rt code => trapWord rs rt code 0x32
  | .tltu rs rt code => trapWord rs rt code 0x33
  | .teq rs rt code => trapWord rs rt code 0x34
  | .tne rs rt code => trapWord rs rt code 0x36
  | .dsll rd rt sa => rWord 0 rt rd sa 0x38
  | .dsrl rd rt sa => rWord 0 rt rd sa 0x3A
  | .dsra rd rt sa => rWord 0 rt rd sa 0x3B
  | .dsll32 rd rt sa => rWord 0 rt rd sa 0x3C
  | .dsrl32 rd rt sa => rWord 0 rt rd sa 0x3E
  | .dsra32 rd rt sa => rWord 0 rt rd sa 0x3F
  | .bltz rs imm => iWord 0x01 rs 0x00 imm
  | .bgez rs imm => iWord 0x01 rs 0x01 imm
  | .bltzl rs imm => iWord 0x01 rs 0x02 imm
  | .bgezl rs imm => iWord 0x01 rs 0x03 imm
  | .tgei rs imm => iWord 0x01 rs 0x08 imm
  | .tgeiu rs imm => iWord 0x01 rs 0x09 imm
  | .tlti rs imm => iWord 0x01 rs 0x0A imm
  | .tltiu rs imm => iWord 0x01 rs 0x0B imm
  | .teqi rs imm => iWord 0x01 rs 0x0C imm
  | .tnei rs imm => iWord 0x01 rs 0x0E imm
  | .bltzal rs imm => iWord 0x01 rs 0x10 imm
  | .bgezal rs imm => iWord 0x01 rs 0x11 imm
  | .bltzall rs imm => iWord 0x01 rs 0x12 imm
  | .bgezall rs imm => iWord 0x01 rs 0x13 imm
  | .j target => jWord 0x02 target
  | .jal target => jWord 0x03 target
  | .beq rs rt imm => iWord 0x04 rs rt imm
  | .bne rs rt imm => iWord 0x05 rs rt imm
  | .blez rs imm => iWord 0x06 rs 0 imm
  | .bgtz rs imm => iWord 0x07 rs 0 imm
  | .addi rt rs imm => iWord 0x08 rs rt imm
  | .addiu rt rs imm => iWord 0x09 rs rt imm
  | .slti rt rs imm => iWord 0x0A rs rt imm
  | .sltiu rt rs imm => iWord 0x0B rs rt imm
  | .andi rt rs imm => iWord 0x0C rs rt imm
  | .ori rt rs imm => iWord 0x0D rs rt imm
  | .xori rt rs imm => iWord 0x0E rs rt imm
  | .lui rt imm => iWord 0x0F 0 rt imm
  | .beql rs rt imm => iWord 0x14 rs rt imm
  | .bnel rs rt imm => iWord 0x15 rs rt imm
  | .blezl rs imm => iWord 0x16 rs 0 imm
  | .bgtzl rs imm => iWord 0x17 rs 0 imm
  | .daddi rt rs imm => iWord 0x18 rs rt imm
  | .daddiu rt rs imm => iWord 0x19 rs rt imm
  | .ldl rt offset base => iWord 0x1A base rt offset
  | .ldr rt offset base => iWord 0x1B base rt offset
  | .lb rt offset base => iWord 0x20 base rt offset
  | .lh rt offset base => iWord 0x21 base rt offset
  | .lwl rt offset base => iWord 0x22 base rt offset
  | .lw rt offset base => iWord 0x23 base rt offset
  | .lbu rt offset base => iWord 0x24 base rt offset
  | .lhu rt offset base => iWord 0x25 base rt offset
  | .lwr rt offset base => iWord 0x26 base rt offset
  | .lwu rt offset base => iWord 0x27 base rt offset
  | .sb rt offset base => iWord 0x28 base rt offset
  | .sh rt offset base => iWord 0x29 base rt offset
  | .swl rt offset base => iWord 0x2A base rt offset
  | .sw rt offset base => iWord 0x2B base rt offset
  | .sdl rt offset base => iWord 0x2C base rt offset
  | .sdr rt offset base => iWord 0x2D base rt offset
  | .swr rt offset base => iWord 0x2E base rt offset
  | .ll rt offset base => iWord 0x30 base rt offset
  | .lld rt offset base => iWord 0x34 base rt offset
  | .ld rt offset base => iWord 0x37 base rt offset
  | .sc rt offset base => iWord 0x38 base rt offset
  | .scd rt offset base => iWord 0x3C base rt offset
  | .sd rt offset base => iWord 0x3F base rt offset

/-- The raw word of an instruction, zero-extended, as an exception records it (60_exceptions.md R332). -/
def rawInfo (i : Instr) : Word64 := (encode i).setWidth 64

/-- The instruction the decoder reads from an instruction whose bits are `w`, numbered as spec/opcode_table.json numbers
them (bit 0 the least significant bit of the one word), every bit from `nbits` on being zero; none where the word is
reserved. The word is laid out in memory order and read back by the decoder. -/
def decodeTableWord (nbits w : Nat) : Option Instr :=
  match bytesOfWord (BitVec.ofNat 32 (w % 2 ^ nbits)) with
  | [b0, b1, b2, b3] =>
    match decodeBytes b0 b1 b2 b3 with
    | .instr i => some i
    | .reserved _ _ => none
  | _ => none

end Sys2Proof
end

