-- ==== Sys2Proof/Machine/State.lean ====
section
/-! DEFINITION. The state of the block (spec 10_state.md: x[1..31], HI, LO, pc, pend, LLbit, run, ram, with the
constant configuration), the exception record (60_exceptions.md R331), the reasons a run can stop, and the state after
construction. All of it is plain data. -/

namespace Sys2Proof
namespace Machine

/-- The two ways an address is in error (00_scope.md R13, 20_memory.md R64). -/
inductive AddrSub where
  | unaligned
  | span
  deriving DecidableEq, Repr

/-- The class of a bus access (00_scope.md R12). -/
inductive Access where
  | fetch
  | load
  | store
  deriving DecidableEq, Repr

/-- The exception kinds of 60_exceptions.md R330; only an address error has a sub-kind and an access class. -/
inductive ExcKind where
  | addressError (sub : AddrSub) (acc : Access)
  | arithmeticOverflow
  | reservedInstruction
  | syscall
  | breakpoint
  | trap
  deriving DecidableEq, Repr

/-- The exception record `Exc` of 60_exceptions.md R331. -/
structure Exc where
  /-- The kind, with `sub` and `acc` where it is an address error. -/
  kind : ExcKind
  /-- The faulting address, or the raw word zero-extended (R332). -/
  info : Word64
  /-- The address of the faulting instruction. -/
  pc : Word64
  /-- Whether the faulting instruction was in a delay slot. -/
  delay : Bool
  /-- The fetched word; none for a fetch fault. -/
  raw : Option Word32
  deriving DecidableEq, Repr

/-- The run state of CpuCore (10_state.md R38). -/
inductive Run where
  | running
  | faulted (e : Exc)
  | halted
  deriving DecidableEq, Repr

/-- The RAM bytes as pairs of a bus address and its byte, addresses strictly rising, no pair holding
`backgroundByte`: the canonical form `Memory.wf` of Machine/Ops.lean. -/
abbrev Memory := List Host.Cell

/-- What an address that the memory does not list reads as. DESIGN CHOICE, log 9: the spec draws INIT_RAM (R46). -/
def backgroundByte : Byte := 0

/-- The machine's state. -/
structure State where
  /-- x[1] to x[31], x[i] in place i - 1 (10_state.md R30); x[0] holds nothing. -/
  gpr : Vector Word64 31
  /-- HI (10_state.md R35). -/
  hi : Word64
  /-- LO (10_state.md R35). -/
  lo : Word64
  /-- The program counter (10_state.md R33). -/
  pc : Word64
  /-- The pending delayed branch (10_state.md R36): its target where `pend.valid` holds, none where it does not. -/
  pend : Option Word64
  /-- LLbit (10_state.md R37). -/
  llbit : Bool
  /-- The run state (10_state.md R38). -/
  run : Run
  /-- The bytes of every RAM range, by bus address (10_state.md R39). -/
  mem : Memory
  /-- The configuration of this block, which no step changes (10_state.md R40). -/
  params : Params
  /-- The model's own: every device callback so far, the earliest first (20_memory.md R73). -/
  devLog : List DevEvent
  /-- The model's own: the values the external devices will answer, the next read's first (20_memory.md R73). Where it
  is empty, a read answers the free value `Config.deviceRead`. -/
  devReplies : List Word64
  deriving DecidableEq, Repr

/-- Why the machine stops before it can run. No step faults: every exception of the spec is a next state whose `run`
says so (40_cycle.md R133), and a step in a terminal state changes nothing (R140). -/
inductive Fault where
  /-- Raised by `construct` where the range table is malformed (70_reset_and_hazards.md R360). Safe: no block exists. -/
  | malformedRangeTable
  /-- Raised by `load` where the image does not fit or the entry is misaligned (R364). Safe: nothing has changed. -/
  | loadFailure
  deriving DecidableEq, Repr

/-- Why an instruction has no meaning in the model. -/
inductive Refusal where
  /-- Raised by an arm of `exec` whose instruction is not modelled. Safe. No arm raises it. -/
  | notModelled (mnemonic : String)
  deriving DecidableEq, Repr

/-- The outcome of a step, an instruction or a host operation. -/
abbrev Result := Host.Outcome State Fault Refusal

/-- The parameters of the block that `State.reset` is: the spec's environment P of 95_test_vectors.md, with the
defaults of 00_scope.md R7 for DIV0 and PERIPH_WRITABLE. DESIGN CHOICE, log 1 to 6: R7 makes them arguments. -/
def resetParams : Params where
  ranges := [{ base := 0x0#32, size := 0x10000, kind := .ram }]
  fill := 0xEE#8
  haltWord := none
  div0 := .standard
  imageBase := 0x0#32
  periphWritable := []

/-- The machine right after construction (70_reset_and_hazards.md R360, 10_state.md R46), no image loaded: pc, pend,
LLbit, run and x[0] as R360 states them; the draws INIT_GPR, INIT_HI, INIT_LO and INIT_RAM at 0 (DESIGN CHOICE,
log 7 to 9); the parameters of `resetParams`. -/
def State.reset : State where
  gpr := Vector.replicate 31 0#64
  hi := 0#64
  lo := 0#64
  pc := Config.resetVector
  pend := none
  llbit := false
  run := .running
  mem := []
  params := resetParams
  devLog := []
  devReplies := []

end Machine
end Sys2Proof
end

