-- ==== Sys2Proof/WellFormed.lean ====
section
/-! DEFINITION. What construction checks before a block exists: the range table (spec 20_memory.md R61, conditions 1
to 4). An instruction term needs no check: each of its fields has exactly the width of the encoding's field
(30_encoding.md R101 to R104), so every term of `Instr` is well formed. -/

namespace Sys2Proof

/-- The first bus address behind the range, as a number. -/
def BusRange.limit (r : BusRange) : Nat := r.base.toNat + r.size

/-- R61, condition 1: a positive size, inside the 2^32 bytes of the bus. -/
abbrev BusRange.fits (r : BusRange) : Prop := 0 < r.size ∧ r.limit ≤ 2 ^ 32

/-- R61, condition 2, for two ranges: they share no address. -/
abbrev BusRange.disjoint (r q : BusRange) : Prop := r.limit ≤ q.base.toNat ∨ q.limit ≤ r.base.toNat

/-- R61, condition 4: base and size are multiples of 8. -/
abbrev BusRange.aligned (r : BusRange) : Prop := r.base.toNat % 8 = 0 ∧ r.size % 8 = 0

/-- The range table `WellFormed(RANGES)` of 70_reset_and_hazards.md R360: the four conditions of R61. -/
abbrev wellFormedRanges (rs : List BusRange) : Prop :=
  (∀ r ∈ rs, r.fits) ∧ rs.Pairwise BusRange.disjoint ∧ (∃ r ∈ rs, r.kind = .ram) ∧ (∀ r ∈ rs, r.aligned)

/-- The construction's parameters are admissible: R61 asks nothing of the others. -/
abbrev Params.wf (p : Params) : Prop := wellFormedRanges p.ranges

end Sys2Proof
end

