-- ==== Sys2Proof/Machine/Ops.lean ====
section
/-! DEFINITION. The operations every instruction is made of: the register file (spec 10_state.md), memory in its
canonical form and byte order, the bus and its routing (20_memory.md), taking an exception (60_exceptions.md), and the
sequencer's completion of an instruction (40_cycle.md). -/

namespace Sys2Proof
namespace Machine

/-! ### Registers (10_state.md R30) -/

/-- `read(i)` of R30: register 0 reads as 0. -/
def State.reg (s : State) (i : Reg) : Word64 :=
  if i = 0 then 0 else s.gpr[i.toNat - 1]'(by have := i.isLt; omega)

/-- `write(i, v)` of R30: a write to register 0 is discarded. -/
def State.setReg (s : State) (i : Reg) (v : Word64) : State :=
  if i = 0 then s else { s with gpr := s.gpr.set (i.toNat - 1) v (by have := i.isLt; omega) }

/-- HI and LO written together (10_state.md R35). -/
def State.setHiLo (s : State) (hi lo : Word64) : State := { s with hi := hi, lo := lo }

/-! ### Memory: canonical lists of bytes -/

/-- The byte at a bus address. -/
def Memory.read : Memory → Nat → Byte
  | [], _ => backgroundByte
  | (k, b) :: m, a => if k = a then b else Memory.read m a

/-- Listing a byte at its address: before the first higher address, in the place of an entry it replaces. -/
def Memory.insert : Memory → Nat → Byte → Memory
  | [], a, b => [(a, b)]
  | (k, c) :: m, a, b =>
    if a < k then (a, b) :: (k, c) :: m
    else if a = k then (a, b) :: m
    else (k, c) :: Memory.insert m a b

/-- Writing one byte; the canonical form is kept: writing `backgroundByte` removes the entry. -/
def Memory.write (m : Memory) (a : Nat) (b : Byte) : Memory :=
  if b = backgroundByte then m.filter (fun c => c.1 != a) else Memory.insert m a b

/-- The canonical form: addresses strictly rising, and no entry equal to what an unlisted address reads as. -/
abbrev Memory.wf (m : Memory) : Prop :=
  m.Pairwise (fun p q => p.1 < q.1) ∧ ∀ c ∈ m, c.2 ≠ backgroundByte

/-- The byte of RAM at a bus address, as the host inspects it (60_exceptions.md R343): no bus access. -/
def State.byteAt (s : State) (a : BusAddr) : Byte := Memory.read s.mem a.toNat

/-- The address of the i-th byte of an access at `a`, modulo 2^32 (20_memory.md R62). -/
def byteAddr (a : BusAddr) (i : Nat) : BusAddr := a + BitVec.ofNat 32 i

/-- The value of `n` bytes, the byte at the lowest address the most significant (20_memory.md R66, R74). -/
def readBytes (m : Memory) (a : BusAddr) : Nat → Word64
  | 0 => 0
  | n + 1 => (readBytes m a n <<< 8) ||| (Memory.read m (byteAddr a n).toNat).setWidth 64

/-- The low `8n` bits of `v` into `n` bytes, the most significant byte at the lowest address (20_memory.md R67, R74). -/
def writeBytes (m : Memory) (a : BusAddr) : Nat → Word64 → Memory
  | 0, _ => m
  | n + 1, v => Memory.write (writeBytes m a n (v >>> 8)) (byteAddr a n).toNat (v.setWidth 8)

/-- `n` copies of FILL, one after the other (20_memory.md R66, R69). -/
def fillBytes (fill : Byte) : Nat → Word64
  | 0 => 0
  | n + 1 => (fillBytes fill n <<< 8) ||| fill.setWidth 64

/-- The low `8n` bits of a value: what crosses the bus in an access of width `n` (20_memory.md R66, R67). -/
def lowBytes (n : Width) (v : Word64) : Word64 := (v.setWidth (8 * n.bytes)).setWidth 64

/-! ### The bus: routing (20_memory.md R62 to R65) -/

/-- `busaddr(EA) = EA[31:0]` (R62). -/
def busAddr (ea : Word64) : BusAddr := ea.setWidth 32

/-- The address lies in the range. -/
def rangeHolds (r : BusRange) (a : BusAddr) : Bool := r.base.toNat ≤ a.toNat && a.toNat < r.limit

/-- `region(a)` (R63): the range that holds the address, none where it is unmapped. In a table that construction accepts
it is unique; in another the first one (log 20). -/
def region (p : Params) (a : BusAddr) : Option BusRange := p.ranges.find? (rangeHolds · a)

/-- `alignReq` of R64: RAM requires alignment, unmapped space does not, a device range as it was registered. -/
def alignReq : Option BusRange → Bool
  | none => false
  | some r =>
    match r.kind with
    | .ram => true
    | .device _ f => f

/-- Where an access goes (R64). -/
inductive Route where
  /-- `RamAt(k, off)`: RAM range k, at an offset from its base. -/
  | ramAt (k : BusRange) (off : Nat)
  /-- `DevAt(d)`: the callbacks of device d. -/
  | devAt (d : Nat)
  /-- `Open`: unmapped space. -/
  | unmapped
  deriving DecidableEq, Repr

/-- The last line of `Classify`: the route of an access whose bytes all lie in one region. -/
def routeOf (region : Option BusRange) (a : BusAddr) : Route :=
  match region with
  | none => .unmapped
  | some r =>
    match r.kind with
    | .ram => .ramAt r (a.toNat - r.base.toNat)
    | .device d _ => .devAt d

/-- `Classify(a, n)` (R64): first the alignment test, against the region of the first byte, then the span test. -/
def classify (p : Params) (a : BusAddr) (n : Width) : Except AddrSub Route :=
  if 1 < n.bytes ∧ a.toNat % n.bytes ≠ 0 ∧ alignReq (region p a) = true then .error .unaligned
  else if (List.range n.bytes).all (fun i => region p (byteAddr a i) == region p a) then .ok (routeOf (region p a) a)
  else .error .span

/-! ### The bus: devices (20_memory.md R71 to R73) -/

/-- The value device `d` answers to a read: the run's next reply, or the free value where there is none (R73, log 10). -/
def deviceReply (s : State) (d : Nat) (a : BusAddr) (n : Width) : Word64 :=
  lowBytes n (match s.devReplies with
    | v :: _ => v
    | [] => Config.deviceRead s.devLog d a n)

/-- `d.read(a, n)`: exactly one callback, an event of the run (R71, R73). -/
def deviceRead (s : State) (d : Nat) (a : BusAddr) (n : Width) : Word64 × State :=
  (deviceReply s d a n,
    { s with devLog := s.devLog ++ [.read d a n (deviceReply s d a n)], devReplies := s.devReplies.tail })

/-- `d.write(a, n, v)`: exactly one callback, an event of the run (R71, R73). -/
def deviceWrite (s : State) (d : Nat) (a : BusAddr) (n : Width) (v : Word64) : State :=
  { s with devLog := s.devLog ++ [.write d a n (lowBytes n v)] }

/-! ### The bus: the two access primitives (20_memory.md R66, R67) -/

/-- `MemRead(a, n, acc)` (R66): the value, zero-extended, and the state after the access; or the address error. -/
def memRead (s : State) (a : BusAddr) (n : Width) : Except AddrSub (Word64 × State) :=
  match classify s.params a n with
  | .error sub => .error sub
  | .ok (.ramAt _ _) => .ok (readBytes s.mem a n.bytes, s)
  | .ok (.devAt d) => .ok (deviceRead s d a n)
  | .ok .unmapped => .ok (fillBytes s.params.fill n.bytes, s)

/-- `MemWrite(a, n, v, Store)` (R67): the state after the access; or the address error. A write to unmapped space is
dropped (R68). -/
def memWrite (s : State) (a : BusAddr) (n : Width) (v : Word64) : Except AddrSub State :=
  match classify s.params a n with
  | .error sub => .error sub
  | .ok (.ramAt _ _) => .ok { s with mem := writeBytes s.mem a n.bytes v }
  | .ok (.devAt d) => .ok (deviceWrite s d a n v)
  | .ok .unmapped => .ok s

/-- `StoreBytes(L)` (43_loadstore.md R248): one byte write after the other. A byte write has no address error
(20_memory.md R65), so the second arm is never taken. -/
def storeBytes (s : State) : List (BusAddr × Byte) → State
  | [] => s
  | (a, b) :: l =>
    match memWrite s a .byte (b.setWidth 64) with
    | .ok t => storeBytes t l
    | .error _ => storeBytes s l

/-! ### Taking an exception (60_exceptions.md R331, R336; 40_cycle.md R133, R135)

There is no return from an exception beside it: the block has none, and a faulted core cannot resume (R338). -/

/-- `fail(K, info, raw)` of R133: only `run` changes, to `Faulted(e)`. -/
def State.takeException (s : State) (kind : ExcKind) (info : Word64) (raw : Option Word32) : State :=
  { s with run := .faulted { kind := kind, info := info, pc := s.pc, delay := s.pend.isSome, raw := raw } }

/-- `raise K(zext_64(w))` in the instruction `i` (R332): the word recorded is the instruction's own (log 13). -/
def raiseInstr (kind : ExcKind) (i : Instr) (s : State) : Result :=
  .next (s.takeException kind (rawInfo i) (some (encode i)))

/-- `raise AddressError(sub, acc)` in the instruction `i`, with the 64-bit faulting address (43_loadstore.md R231,
44_branch_jump.md R292). -/
def raiseAddress (sub : AddrSub) (acc : Access) (ea : Word64) (i : Instr) (s : State) : Result :=
  .next (s.takeException (.addressError sub acc) ea (some (encode i)))

/-! ### Completing an instruction (40_cycle.md R132, R133) -/

/-- What a completed instruction asks of the sequencer: `Done(br)` of R132. -/
inductive Request where
  /-- The next instruction in sequence. -/
  | none
  /-- A taken branch or jump. -/
  | branch (target : Word64)
  /-- The annulment of a not-taken branch-likely. -/
  | skip
  deriving DecidableEq, Repr

/-- The sequencer's part of a step after `Done(br)` (R133): in a delay slot the pending target, or the new branch's
own, is applied at once; else a branch becomes pending, a skip passes over the delay slot. -/
def State.advance (s : State) (br : Request) : State :=
  match s.pend with
  | some pending =>
    match br with
    | .branch target => { s with pc := target, pend := none }
    | .none => { s with pc := pending, pend := none }
    | .skip => { s with pc := pending, pend := none }
  | none =>
    match br with
    | .branch target => { s with pc := s.pc + 4, pend := some target }
    | .skip => { s with pc := s.pc + 8 }
    | .none => { s with pc := s.pc + 4 }

/-- The instruction completes: its own writes are in `s`. -/
def complete (br : Request) (s : State) : Result := .next (s.advance br)

/-- The instruction completes with one register written and no request. -/
def completeReg (rd : Reg) (v : Word64) (s : State) : Result := complete .none (s.setReg rd v)

/-! ### The step's outcome, seen by the host (60_exceptions.md R331) -/

/-- `StepOutcome` (R331). -/
inductive StepOutcome where
  | continue
  | exception (e : Exc)
  | halted
  deriving DecidableEq, Repr

/-- What the step that led to this state returned: `run` says it (40_cycle.md R133, R140). -/
def State.outcome (s : State) : StepOutcome :=
  match s.run with
  | .running => .continue
  | .faulted e => .exception e
  | .halted => .halted

end Machine
end Sys2Proof
end

