-- ==== Sys2Proof/Machine/Operands.lean ====
section
/-! DEFINITION. The operands of the instructions: the immediates (spec 30_encoding.md R106), the word forms of a
register (41_alu.md R150), the effective address (43_loadstore.md R230), the targets and the link (44_branch_jump.md
R270), the products and quotients (42_muldiv.md), and the merges of the unaligned-part forms (43_loadstore.md). -/

namespace Sys2Proof
namespace Machine

/-! ### Immediates (R106) -/

/-- `simm = sext_64(imm)`. -/
def simm (imm : BitVec 16) : Word64 := imm.signExtend 64

/-- `zimm = zext_64(imm)`. -/
def zimm (imm : BitVec 16) : Word64 := imm.setWidth 64

/-- `luimm = sext_64(imm || 0x0000)`. -/
def luimm (imm : BitVec 16) : Word64 := (imm ++ 0#16).signExtend 64

/-- `boff = sext_64(imm || 00)`. -/
def boff (imm : BitVec 16) : Word64 := (imm ++ 0#2).signExtend 64

/-- `sa32 = sa + 32`. -/
def sa32 (sa : BitVec 5) : Nat := sa.toNat + 32

/-! ### Word forms (41_alu.md R150, R191) -/

/-- `x[31:0]`: all that a word operation reads of a register. -/
def low32 (x : Word64) : Word32 := x.setWidth 32

/-- `W(v) = sext_64(v)`: how a word operation's result is written. -/
def wordResult (v : Word32) : Word64 := v.signExtend 64

/-- `x[rs][4:0]`, the amount of a variable word shift. -/
def shamt5 (x : Word64) : Nat := (x.setWidth 5).toNat

/-- `x[rs][5:0]`, the amount of a variable doubleword shift. -/
def shamt6 (x : Word64) : Nat := (x.setWidth 6).toNat

/-- 1 or 0 in 64 bits, as a set-on-less-than and a store-conditional write it. -/
def oneIf (c : Bool) : Word64 := if c then 1 else 0

/-! ### Addresses and targets -/

/-- `EA = x[rs] + simm`, modulo 2^64 (43_loadstore.md R230). -/
def State.effAddr (s : State) (base : Reg) (offset : BitVec 16) : Word64 := s.reg base + simm offset

/-- `BT = pc + 4 + boff` (44_branch_jump.md R270). -/
def State.branchTarget (s : State) (imm : BitVec 16) : Word64 := s.pc + 4 + boff imm

/-- `JT = (pc + 4)[63:28] || target || 00` (R270). -/
def State.jumpTarget (s : State) (target : BitVec 26) : Word64 := (s.pc + 4).extractLsb' 28 36 ++ target ++ 0#2

/-- `L = pc + 8` (R270). -/
def State.linkValue (s : State) : Word64 := s.pc + 8

/-- Register 31, the implicit link register (10_state.md R31). -/
def linkReg : Reg := 31

/-- `T[1:0] = 0` (R292). -/
def wordAligned (a : Word64) : Bool := a.setWidth 2 == 0#2

/-! ### Integer quotient and remainder (00_scope.md R10) -/

/-- `quot(a, b)`, truncated toward zero. -/
def quot (a b : Int) : Int := a.tdiv b

/-- `rem(a, b) = a − b·quot(a, b)`. -/
def rem (a b : Int) : Int := a - b * quot a b

/-- The default of DIV0, the table of 42_muldiv.md R216, as (LO, HI). -/
def div0Standard : DivOp → Word64 → Word64 × Word64
  | .div, a => (if (low32 a).toInt < 0 then 1 else BitVec.allOnes 64, wordResult (low32 a))
  | .divu, a => (BitVec.allOnes 64, wordResult (low32 a))
  | .ddiv, a => (if a.toInt < 0 then 1 else BitVec.allOnes 64, a)
  | .ddivu, a => (BitVec.allOnes 64, a)

/-- The parameter DIV0 applied to an instruction and the dividend, as (LO, HI) (R216, log 4). The word forms use
it through `completeWordDivByZero` (log 27, log 28). -/
def div0 : Div0 → DivOp → Word64 → Word64 × Word64
  | .standard, op, a => div0Standard op a
  | .free, op, a => Config.divByZero op a

/-! ### Unaligned parts, big-endian (43_loadstore.md R240 to R243, R249 to R252) -/

/-- `a` with its low bits cleared: the aligned word, n = 4, or doubleword, n = 8, that holds it. -/
def alignDown (a : BusAddr) (n : Nat) : BusAddr := a - BitVec.ofNat 32 (a.toNat % n)

/-- The place `k` of `a` in its aligned word or doubleword. -/
def partOf (a : BusAddr) (n : Nat) : Nat := a.toNat % n

/-- LWL's merge (R240). -/
def mergeWordLeft (k : Nat) (m old : Word32) : Word32 := (m <<< (8 * k)) ||| (old &&& BitVec.ofNat 32 (2 ^ (8 * k) - 1))

/-- LWR's merge (R241). -/
def mergeWordRight (k : Nat) (m old : Word32) : Word32 :=
  (m >>> (8 * (3 - k))) ||| (old &&& ~~~ (BitVec.allOnes 32 >>> (8 * (3 - k))))

/-- LDL's merge (R242). -/
def mergeDwordLeft (k : Nat) (m old : Word64) : Word64 := (m <<< (8 * k)) ||| (old &&& BitVec.ofNat 64 (2 ^ (8 * k) - 1))

/-- LDR's merge (R243). -/
def mergeDwordRight (k : Nat) (m old : Word64) : Word64 :=
  (m >>> (8 * (7 - k))) ||| (old &&& ~~~ (BitVec.allOnes 64 >>> (8 * (7 - k))))

/-- The bytes SWL stores (R249): `v[31-8i : 24-8i]` at `aw + k + i`, for i from 0 to 3 - k. -/
def wordLeftBytes (a : BusAddr) (v : Word32) : List (BusAddr × Byte) :=
  (List.range (4 - partOf a 4)).map fun i => (byteAddr a i, v.extractLsb' (24 - 8 * i) 8)

/-- The bytes SWR stores (R250): `v[8(k-j)+7 : 8(k-j)]` at `aw + j`, for j from 0 to k. -/
def wordRightBytes (a : BusAddr) (v : Word32) : List (BusAddr × Byte) :=
  (List.range (partOf a 4 + 1)).map fun j => (byteAddr (alignDown a 4) j, v.extractLsb' (8 * (partOf a 4 - j)) 8)

/-- The bytes SDL stores (R251): `v[63-8i : 56-8i]` at `ad + k + i`, for i from 0 to 7 - k. -/
def dwordLeftBytes (a : BusAddr) (v : Word64) : List (BusAddr × Byte) :=
  (List.range (8 - partOf a 8)).map fun i => (byteAddr a i, v.extractLsb' (56 - 8 * i) 8)

/-- The bytes SDR stores (R252): `v[8(k-j)+7 : 8(k-j)]` at `ad + j`, for j from 0 to k. -/
def dwordRightBytes (a : BusAddr) (v : Word64) : List (BusAddr × Byte) :=
  (List.range (partOf a 8 + 1)).map fun j => (byteAddr (alignDown a 8) j, v.extractLsb' (8 * (partOf a 8 - j)) 8)

end Machine
end Sys2Proof
end

