-- ==== Sys2Proof/Machine/Flags.lean ====
section
/-! DEFINITION. The block has no flags (spec 10_state.md R41): every condition is computed from register values inside
the instruction that uses it. Here they are: signed overflow (41_alu.md R190) and the comparisons (41_alu.md R163 to
R166, 44_branch_jump.md R270, 45_system.md R303). -/

namespace Sys2Proof
namespace Machine

/-! ### Signed overflow: the exact integer is out of the operation's range (R190) -/

/-- An exact integer narrowed to 32 bits, none where it is below -2^31 or above 2^31 - 1. -/
def exact32 (x : Int) : Option Word32 := if x < -2 ^ 31 ∨ x > 2 ^ 31 - 1 then none else some (BitVec.ofInt 32 x)

/-- An exact integer narrowed to 64 bits, none where it is below -2^63 or above 2^63 - 1. -/
def exact64 (x : Int) : Option Word64 := if x < -2 ^ 63 ∨ x > 2 ^ 63 - 1 then none else some (BitVec.ofInt 64 x)

/-! ### Comparisons of 64-bit values -/

/-- `signed(a) < signed(b)`. -/
def ltSigned (a b : Word64) : Bool := decide (a.toInt < b.toInt)

/-- `unsigned(a) < unsigned(b)`. -/
def ltUnsigned (a b : Word64) : Bool := decide (a.toNat < b.toNat)

/-- `signed(a) ≥ signed(b)`. -/
def geSigned (a b : Word64) : Bool := decide (a.toInt ≥ b.toInt)

/-- `unsigned(a) ≥ unsigned(b)`. -/
def geUnsigned (a b : Word64) : Bool := decide (a.toNat ≥ b.toNat)

/-- `signed(a) ≤ 0`. -/
def leZero (a : Word64) : Bool := decide (a.toInt ≤ 0)

/-- `signed(a) > 0`. -/
def gtZero (a : Word64) : Bool := decide (a.toInt > 0)

/-- `signed(a) < 0`. -/
def ltZero (a : Word64) : Bool := decide (a.toInt < 0)

/-- `signed(a) ≥ 0`. -/
def geZero (a : Word64) : Bool := decide (a.toInt ≥ 0)

end Machine
end Sys2Proof
end

