-- ==== Sys2Proof/Machine/Alu.lean ====
section
/-! DEFINITION. The integer ALU instructions (spec 41_alu.md): none accesses memory, changes HI, LO or LLbit, or requests
a branch; six of them trap on signed overflow (R190). -/

namespace Sys2Proof
namespace Machine

/-- The trapping forms (R190): the register is written if the exact result fits, else ArithmeticOverflow is raised and
nothing is written, whatever the destination (R150). -/
def writeOrOverflow (i : Instr) (rd : Reg) (result : Option Word64) (s : State) : Result :=
  match result with
  | some v => completeReg rd v s
  | none => raiseInstr .arithmeticOverflow i s

/-- ADD rd, rs, rt (R151): add word, trap on signed overflow. -/
def execAdd (rd rs rt : Reg) (s : State) : Result :=
  writeOrOverflow (.add rd rs rt) rd ((exact32 ((low32 (s.reg rs)).toInt + (low32 (s.reg rt)).toInt)).map wordResult) s

/-- ADDU rd, rs, rt (R152): add word, wrapping. -/
def execAddu (rd rs rt : Reg) (s : State) : Result :=
  completeReg rd (wordResult (low32 (s.reg rs) + low32 (s.reg rt))) s

/-- SUB rd, rs, rt (R153): subtract word, trap on signed overflow. -/
def execSub (rd rs rt : Reg) (s : State) : Result :=
  writeOrOverflow (.sub rd rs rt) rd ((exact32 ((low32 (s.reg rs)).toInt - (low32 (s.reg rt)).toInt)).map wordResult) s

/-- SUBU rd, rs, rt (R154): subtract word, wrapping. -/
def execSubu (rd rs rt : Reg) (s : State) : Result :=
  completeReg rd (wordResult (low32 (s.reg rs) - low32 (s.reg rt))) s

/-- DADD rd, rs, rt (R155): add doubleword, trap on signed overflow. -/
def execDadd (rd rs rt : Reg) (s : State) : Result :=
  writeOrOverflow (.dadd rd rs rt) rd (exact64 ((s.reg rs).toInt + (s.reg rt).toInt)) s

/-- DADDU rd, rs, rt (R156): add doubleword, wrapping. -/
def execDaddu (rd rs rt : Reg) (s : State) : Result :=
  completeReg rd (s.reg rs + s.reg rt) s

/-- DSUB rd, rs, rt (R157): subtract doubleword, trap on signed overflow. -/
def execDsub (rd rs rt : Reg) (s : State) : Result :=
  writeOrOverflow (.dsub rd rs rt) rd (exact64 ((s.reg rs).toInt - (s.reg rt).toInt)) s

/-- DSUBU rd, rs, rt (R158): subtract doubleword, wrapping. -/
def execDsubu (rd rs rt : Reg) (s : State) : Result :=
  completeReg rd (s.reg rs - s.reg rt) s

/-- ADDI rt, rs, imm (R159): add immediate word, trap on signed overflow. -/
def execAddi (rt rs : Reg) (imm : BitVec 16) (s : State) : Result :=
  writeOrOverflow (.addi rt rs imm) rt ((exact32 ((low32 (s.reg rs)).toInt + (simm imm).toInt)).map wordResult) s

/-- ADDIU rt, rs, imm (R160): add immediate word, wrapping (the immediate is still sign-extended). -/
def execAddiu (rt rs : Reg) (imm : BitVec 16) (s : State) : Result :=
  completeReg rt (wordResult (low32 (s.reg rs) + low32 (simm imm))) s

/-- DADDI rt, rs, imm (R161): add immediate doubleword, trap on signed overflow. -/
def execDaddi (rt rs : Reg) (imm : BitVec 16) (s : State) : Result :=
  writeOrOverflow (.daddi rt rs imm) rt (exact64 ((s.reg rs).toInt + (simm imm).toInt)) s

/-- DADDIU rt, rs, imm (R162): add immediate doubleword, wrapping. -/
def execDaddiu (rt rs : Reg) (imm : BitVec 16) (s : State) : Result :=
  completeReg rt (s.reg rs + simm imm) s

/-- SLT rd, rs, rt (R163): set on less than, signed, 64-bit compare. -/
def execSlt (rd rs rt : Reg) (s : State) : Result :=
  completeReg rd (oneIf (ltSigned (s.reg rs) (s.reg rt))) s

/-- SLTU rd, rs, rt (R164): set on less than, unsigned, 64-bit compare. -/
def execSltu (rd rs rt : Reg) (s : State) : Result :=
  completeReg rd (oneIf (ltUnsigned (s.reg rs) (s.reg rt))) s

/-- SLTI rt, rs, imm (R165): set on less than immediate, signed. -/
def execSlti (rt rs : Reg) (imm : BitVec 16) (s : State) : Result :=
  completeReg rt (oneIf (ltSigned (s.reg rs) (simm imm))) s

/-- SLTIU rt, rs, imm (R166): set on less than immediate, unsigned; the immediate is sign-extended to 64 bits and
then compared as unsigned. -/
def execSltiu (rt rs : Reg) (imm : BitVec 16) (s : State) : Result :=
  completeReg rt (oneIf (ltUnsigned (s.reg rs) (simm imm))) s

/-- AND rd, rs, rt (R167): bitwise and, 64-bit. -/
def execAnd (rd rs rt : Reg) (s : State) : Result :=
  completeReg rd (s.reg rs &&& s.reg rt) s

/-- OR rd, rs, rt (R168): bitwise or, 64-bit. -/
def execOr (rd rs rt : Reg) (s : State) : Result :=
  completeReg rd (s.reg rs ||| s.reg rt) s

/-- XOR rd, rs, rt (R169): bitwise exclusive or, 64-bit. -/
def execXor (rd rs rt : Reg) (s : State) : Result :=
  completeReg rd (s.reg rs ^^^ s.reg rt) s

/-- NOR rd, rs, rt (R170): bitwise not-or, 64-bit. -/
def execNor (rd rs rt : Reg) (s : State) : Result :=
  completeReg rd (~~~ (s.reg rs ||| s.reg rt)) s

/-- ANDI rt, rs, imm (R171): and with zero-extended immediate. -/
def execAndi (rt rs : Reg) (imm : BitVec 16) (s : State) : Result :=
  completeReg rt (s.reg rs &&& zimm imm) s

/-- ORI rt, rs, imm (R172): or with zero-extended immediate. -/
def execOri (rt rs : Reg) (imm : BitVec 16) (s : State) : Result :=
  completeReg rt (s.reg rs ||| zimm imm) s

/-- XORI rt, rs, imm (R173): exclusive or with zero-extended immediate. -/
def execXori (rt rs : Reg) (imm : BitVec 16) (s : State) : Result :=
  completeReg rt (s.reg rs ^^^ zimm imm) s

/-- LUI rt, imm (R174): load upper immediate. -/
def execLui (rt : Reg) (imm : BitVec 16) (s : State) : Result :=
  completeReg rt (luimm imm) s

/-- SLL rd, rt, sa (R175): shift word left logical by a constant. -/
def execSll (rd rt : Reg) (sa : BitVec 5) (s : State) : Result :=
  completeReg rd (wordResult (low32 (s.reg rt) <<< sa.toNat)) s

/-- SRL rd, rt, sa (R176): shift word right logical by a constant. -/
def execSrl (rd rt : Reg) (sa : BitVec 5) (s : State) : Result :=
  completeReg rd (wordResult (low32 (s.reg rt) >>> sa.toNat)) s

/-- SRA rd, rt, sa (R177): shift word right arithmetic by a constant. -/
def execSra (rd rt : Reg) (sa : BitVec 5) (s : State) : Result :=
  completeReg rd (wordResult ((low32 (s.reg rt)).sshiftRight sa.toNat)) s

/-- SLLV rd, rt, rs (R178): shift word left logical by a register. -/
def execSllv (rd rt rs : Reg) (s : State) : Result :=
  completeReg rd (wordResult (low32 (s.reg rt) <<< (shamt5 (s.reg rs)))) s

/-- SRLV rd, rt, rs (R179): shift word right logical by a register. -/
def execSrlv (rd rt rs : Reg) (s : State) : Result :=
  completeReg rd (wordResult (low32 (s.reg rt) >>> (shamt5 (s.reg rs)))) s

/-- SRAV rd, rt, rs (R180): shift word right arithmetic by a register. -/
def execSrav (rd rt rs : Reg) (s : State) : Result :=
  completeReg rd (wordResult ((low32 (s.reg rt)).sshiftRight (shamt5 (s.reg rs)))) s

/-- DSLL rd, rt, sa (R181): shift doubleword left logical by 0–31. -/
def execDsll (rd rt : Reg) (sa : BitVec 5) (s : State) : Result :=
  completeReg rd (s.reg rt <<< sa.toNat) s

/-- DSRL rd, rt, sa (R182): shift doubleword right logical by 0–31. -/
def execDsrl (rd rt : Reg) (sa : BitVec 5) (s : State) : Result :=
  completeReg rd (s.reg rt >>> sa.toNat) s

/-- DSRA rd, rt, sa (R183): shift doubleword right arithmetic by 0–31. -/
def execDsra (rd rt : Reg) (sa : BitVec 5) (s : State) : Result :=
  completeReg rd ((s.reg rt).sshiftRight sa.toNat) s

/-- DSLL32 rd, rt, sa (R184): shift doubleword left logical by 32–63. -/
def execDsll32 (rd rt : Reg) (sa : BitVec 5) (s : State) : Result :=
  completeReg rd (s.reg rt <<< sa32 sa) s

/-- DSRL32 rd, rt, sa (R185): shift doubleword right logical by 32–63. -/
def execDsrl32 (rd rt : Reg) (sa : BitVec 5) (s : State) : Result :=
  completeReg rd (s.reg rt >>> sa32 sa) s

/-- DSRA32 rd, rt, sa (R186): shift doubleword right arithmetic by 32–63. -/
def execDsra32 (rd rt : Reg) (sa : BitVec 5) (s : State) : Result :=
  completeReg rd ((s.reg rt).sshiftRight (sa32 sa)) s

/-- DSLLV rd, rt, rs (R187): shift doubleword left logical by a register. -/
def execDsllv (rd rt rs : Reg) (s : State) : Result :=
  completeReg rd (s.reg rt <<< shamt6 (s.reg rs)) s

/-- DSRLV rd, rt, rs (R188): shift doubleword right logical by a register. -/
def execDsrlv (rd rt rs : Reg) (s : State) : Result :=
  completeReg rd (s.reg rt >>> shamt6 (s.reg rs)) s

/-- DSRAV rd, rt, rs (R189): shift doubleword right arithmetic by a register. -/
def execDsrav (rd rt rs : Reg) (s : State) : Result :=
  completeReg rd ((s.reg rt).sshiftRight (shamt6 (s.reg rs))) s

end Machine
end Sys2Proof
end

