-- ==== Sys2Proof/Machine/Branch.lean ====
section
/-! DEFINITION. Branches and jumps (spec 44_branch_jump.md): the request to the sequencer, the link, and the misaligned
register target (R292). -/

namespace Sys2Proof
namespace Machine

/-- The request of a conditional branch (R270). -/
def branchIf (c : Bool) (target : Word64) : Request := if c then .branch target else .none

/-- The request of a branch-likely: the delay slot is annulled where it is not taken (R271). -/
def branchLikely (c : Bool) (target : Word64) : Request := if c then .branch target else .skip

/-- The instruction completes with the link written, whether or not the branch is taken (R270). -/
def completeLink (rd : Reg) (br : Request) (s : State) : Result := complete br (s.setReg rd s.linkValue)

/-- J target (R272): jump. -/
def execJ (target : BitVec 26) (s : State) : Result :=
  complete (.branch (s.jumpTarget target)) s

/-- JAL target (R273): jump and link. -/
def execJal (target : BitVec 26) (s : State) : Result :=
  completeLink linkReg (.branch (s.jumpTarget target)) s

/-- JR rs (R274): jump register. -/
def execJr (rs : Reg) (s : State) : Result :=
  if wordAligned (s.reg rs) then complete (.branch (s.reg rs)) s
  else raiseAddress .unaligned .fetch (s.reg rs) (.jr rs) s

/-- JALR rd, rs (R275): jump and link register. -/
def execJalr (rd rs : Reg) (s : State) : Result :=
  if wordAligned (s.reg rs) then completeLink rd (.branch (s.reg rs)) s
  else raiseAddress .unaligned .fetch (s.reg rs) (.jalr rd rs) s

/-- BEQ rs, rt, offset (R276): branch on equal. -/
def execBeq (rs rt : Reg) (imm : BitVec 16) (s : State) : Result :=
  complete (branchIf (s.reg rs == s.reg rt) (s.branchTarget imm)) s

/-- BNE rs, rt, offset (R277): branch on not equal. -/
def execBne (rs rt : Reg) (imm : BitVec 16) (s : State) : Result :=
  complete (branchIf (s.reg rs != s.reg rt) (s.branchTarget imm)) s

/-- BLEZ rs, offset (R278): branch on less than or equal to zero. -/
def execBlez (rs : Reg) (imm : BitVec 16) (s : State) : Result :=
  complete (branchIf (leZero (s.reg rs)) (s.branchTarget imm)) s

/-- BGTZ rs, offset (R279): branch on greater than zero. -/
def execBgtz (rs : Reg) (imm : BitVec 16) (s : State) : Result :=
  complete (branchIf (gtZero (s.reg rs)) (s.branchTarget imm)) s

/-- BLTZ rs, offset (R280): branch on less than zero. -/
def execBltz (rs : Reg) (imm : BitVec 16) (s : State) : Result :=
  complete (branchIf (ltZero (s.reg rs)) (s.branchTarget imm)) s

/-- BGEZ rs, offset (R281): branch on greater than or equal to zero. -/
def execBgez (rs : Reg) (imm : BitVec 16) (s : State) : Result :=
  complete (branchIf (geZero (s.reg rs)) (s.branchTarget imm)) s

/-- BLTZAL rs, offset (R282): branch on less than zero and link. -/
def execBltzal (rs : Reg) (imm : BitVec 16) (s : State) : Result :=
  completeLink linkReg (branchIf (ltZero (s.reg rs)) (s.branchTarget imm)) s

/-- BGEZAL rs, offset (R283): branch on greater than or equal to zero and link. -/
def execBgezal (rs : Reg) (imm : BitVec 16) (s : State) : Result :=
  completeLink linkReg (branchIf (geZero (s.reg rs)) (s.branchTarget imm)) s

/-- BEQL rs, rt, offset (R284): branch on equal likely. -/
def execBeql (rs rt : Reg) (imm : BitVec 16) (s : State) : Result :=
  complete (branchLikely (s.reg rs == s.reg rt) (s.branchTarget imm)) s

/-- BNEL rs, rt, offset (R285): branch on not equal likely. -/
def execBnel (rs rt : Reg) (imm : BitVec 16) (s : State) : Result :=
  complete (branchLikely (s.reg rs != s.reg rt) (s.branchTarget imm)) s

/-- BLEZL rs, offset (R286): branch on less than or equal to zero likely. -/
def execBlezl (rs : Reg) (imm : BitVec 16) (s : State) : Result :=
  complete (branchLikely (leZero (s.reg rs)) (s.branchTarget imm)) s

/-- BGTZL rs, offset (R287): branch on greater than zero likely. -/
def execBgtzl (rs : Reg) (imm : BitVec 16) (s : State) : Result :=
  complete (branchLikely (gtZero (s.reg rs)) (s.branchTarget imm)) s

/-- BLTZL rs, offset (R288): branch on less than zero likely. -/
def execBltzl (rs : Reg) (imm : BitVec 16) (s : State) : Result :=
  complete (branchLikely (ltZero (s.reg rs)) (s.branchTarget imm)) s

/-- BGEZL rs, offset (R289): branch on greater than or equal to zero likely. -/
def execBgezl (rs : Reg) (imm : BitVec 16) (s : State) : Result :=
  complete (branchLikely (geZero (s.reg rs)) (s.branchTarget imm)) s

/-- BLTZALL rs, offset (R290): branch on less than zero and link likely. -/
def execBltzall (rs : Reg) (imm : BitVec 16) (s : State) : Result :=
  completeLink linkReg (branchLikely (ltZero (s.reg rs)) (s.branchTarget imm)) s

/-- BGEZALL rs, offset (R291): branch on greater than or equal to zero and link likely. -/
def execBgezall (rs : Reg) (imm : BitVec 16) (s : State) : Result :=
  completeLink linkReg (branchLikely (geZero (s.reg rs)) (s.branchTarget imm)) s

end Machine
end Sys2Proof
end

