-- ==== Sys2Proof/Machine/LoadStore.lean ====
section
/-! DEFINITION. The load/store unit (spec 43_loadstore.md): one addressing mode (R230); an address error is raised with
the effective address before anything has happened (R231). -/

namespace Sys2Proof
namespace Machine

/-- A load: one bus read of width `n` at `a`; `f` makes the register's value of what was read (R231, R232). -/
def loadReg (i : Instr) (n : Width) (a : BusAddr) (ea : Word64) (f : Word64 → Word64) (rt : Reg) (s : State) : Result :=
  match memRead s a n with
  | .error sub => raiseAddress sub .load ea i s
  | .ok (v, t) => completeReg rt (f v) t

/-- A store: one bus write of the low bytes of `v` (R231). -/
def storeReg (i : Instr) (n : Width) (ea v : Word64) (s : State) : Result :=
  match memWrite s (busAddr ea) n v with
  | .error sub => raiseAddress sub .store ea i s
  | .ok t => complete .none t

/-- A load that sets LLbit (R253, R254); an exception leaves it. -/
def loadLinked (i : Instr) (n : Width) (ea : Word64) (f : Word64 → Word64) (rt : Reg) (s : State) : Result :=
  match memRead s (busAddr ea) n with
  | .error sub => raiseAddress sub .load ea i s
  | .ok (v, t) => completeReg rt (f v) { t with llbit := true }

/-- A conditional store (R255, R256): the address is checked first; then, with LLbit set, the store and 1 into `rt`,
else 0 into `rt` and no bus access. LLbit stays. The write's own check is the one already made, so its error is never
taken. -/
def storeConditional (i : Instr) (n : Width) (ea : Word64) (rt : Reg) (s : State) : Result :=
  match classify s.params (busAddr ea) n with
  | .error sub => raiseAddress sub .store ea i s
  | .ok _ =>
    if s.llbit then
      match memWrite s (busAddr ea) n (s.reg rt) with
      | .error sub => raiseAddress sub .store ea i s
      | .ok t => completeReg rt 1 t
    else completeReg rt 0 s

/-- LB rt, offset(base) (R233): load byte, sign-extended. -/
def execLb (rt : Reg) (offset : BitVec 16) (base : Reg) (s : State) : Result :=
  loadReg (.lb rt offset base) .byte (busAddr (s.effAddr base offset)) (s.effAddr base offset)
    (fun v => (v.setWidth 8).signExtend 64) rt s

/-- LBU rt, offset(base) (R234): load byte, zero-extended. -/
def execLbu (rt : Reg) (offset : BitVec 16) (base : Reg) (s : State) : Result :=
  loadReg (.lbu rt offset base) .byte (busAddr (s.effAddr base offset)) (s.effAddr base offset)
    id rt s

/-- LH rt, offset(base) (R235): load halfword, sign-extended. -/
def execLh (rt : Reg) (offset : BitVec 16) (base : Reg) (s : State) : Result :=
  loadReg (.lh rt offset base) .half (busAddr (s.effAddr base offset)) (s.effAddr base offset)
    (fun v => (v.setWidth 16).signExtend 64) rt s

/-- LHU rt, offset(base) (R236): load halfword, zero-extended. -/
def execLhu (rt : Reg) (offset : BitVec 16) (base : Reg) (s : State) : Result :=
  loadReg (.lhu rt offset base) .half (busAddr (s.effAddr base offset)) (s.effAddr base offset)
    id rt s

/-- LW rt, offset(base) (R237): load word, sign-extended. -/
def execLw (rt : Reg) (offset : BitVec 16) (base : Reg) (s : State) : Result :=
  loadReg (.lw rt offset base) .word (busAddr (s.effAddr base offset)) (s.effAddr base offset)
    (fun v => wordResult (low32 v)) rt s

/-- LWU rt, offset(base) (R238): load word, zero-extended. -/
def execLwu (rt : Reg) (offset : BitVec 16) (base : Reg) (s : State) : Result :=
  loadReg (.lwu rt offset base) .word (busAddr (s.effAddr base offset)) (s.effAddr base offset)
    id rt s

/-- LD rt, offset(base) (R239): load doubleword. -/
def execLd (rt : Reg) (offset : BitVec 16) (base : Reg) (s : State) : Result :=
  loadReg (.ld rt offset base) .dword (busAddr (s.effAddr base offset)) (s.effAddr base offset)
    id rt s

/-- LWL rt, offset(base) (R240): load word left. -/
def execLwl (rt : Reg) (offset : BitVec 16) (base : Reg) (s : State) : Result :=
  loadReg (.lwl rt offset base) .word (alignDown (busAddr (s.effAddr base offset)) 4) (s.effAddr base offset)
    (fun m => wordResult (mergeWordLeft (partOf (busAddr (s.effAddr base offset)) 4) (low32 m) (low32 (s.reg rt))))
    rt s

/-- LWR rt, offset(base) (R241): load word right. -/
def execLwr (rt : Reg) (offset : BitVec 16) (base : Reg) (s : State) : Result :=
  loadReg (.lwr rt offset base) .word (alignDown (busAddr (s.effAddr base offset)) 4) (s.effAddr base offset)
    (fun m => wordResult (mergeWordRight (partOf (busAddr (s.effAddr base offset)) 4) (low32 m) (low32 (s.reg rt))))
    rt s

/-- LDL rt, offset(base) (R242): load doubleword left. -/
def execLdl (rt : Reg) (offset : BitVec 16) (base : Reg) (s : State) : Result :=
  loadReg (.ldl rt offset base) .dword (alignDown (busAddr (s.effAddr base offset)) 8) (s.effAddr base offset)
    (fun m => mergeDwordLeft (partOf (busAddr (s.effAddr base offset)) 8) m (s.reg rt))
    rt s

/-- LDR rt, offset(base) (R243): load doubleword right. -/
def execLdr (rt : Reg) (offset : BitVec 16) (base : Reg) (s : State) : Result :=
  loadReg (.ldr rt offset base) .dword (alignDown (busAddr (s.effAddr base offset)) 8) (s.effAddr base offset)
    (fun m => mergeDwordRight (partOf (busAddr (s.effAddr base offset)) 8) m (s.reg rt))
    rt s

/-- SB rt, offset(base) (R244): store byte. -/
def execSb (rt : Reg) (offset : BitVec 16) (base : Reg) (s : State) : Result :=
  storeReg (.sb rt offset base) .byte (s.effAddr base offset) (s.reg rt) s

/-- SH rt, offset(base) (R245): store halfword. -/
def execSh (rt : Reg) (offset : BitVec 16) (base : Reg) (s : State) : Result :=
  storeReg (.sh rt offset base) .half (s.effAddr base offset) (s.reg rt) s

/-- SW rt, offset(base) (R246): store word. -/
def execSw (rt : Reg) (offset : BitVec 16) (base : Reg) (s : State) : Result :=
  storeReg (.sw rt offset base) .word (s.effAddr base offset) (s.reg rt) s

/-- SD rt, offset(base) (R247): store doubleword. -/
def execSd (rt : Reg) (offset : BitVec 16) (base : Reg) (s : State) : Result :=
  storeReg (.sd rt offset base) .dword (s.effAddr base offset) (s.reg rt) s

/-- SWL rt, offset(base) (R249): store word left. -/
def execSwl (rt : Reg) (offset : BitVec 16) (base : Reg) (s : State) : Result :=
  complete .none (storeBytes s (wordLeftBytes (busAddr (s.effAddr base offset)) (low32 (s.reg rt))))

/-- SWR rt, offset(base) (R250): store word right. -/
def execSwr (rt : Reg) (offset : BitVec 16) (base : Reg) (s : State) : Result :=
  complete .none (storeBytes s (wordRightBytes (busAddr (s.effAddr base offset)) (low32 (s.reg rt))))

/-- SDL rt, offset(base) (R251): store doubleword left. -/
def execSdl (rt : Reg) (offset : BitVec 16) (base : Reg) (s : State) : Result :=
  complete .none (storeBytes s (dwordLeftBytes (busAddr (s.effAddr base offset)) (s.reg rt)))

/-- SDR rt, offset(base) (R252): store doubleword right. -/
def execSdr (rt : Reg) (offset : BitVec 16) (base : Reg) (s : State) : Result :=
  complete .none (storeBytes s (dwordRightBytes (busAddr (s.effAddr base offset)) (s.reg rt)))

/-- LL rt, offset(base) (R253): load linked word. -/
def execLl (rt : Reg) (offset : BitVec 16) (base : Reg) (s : State) : Result :=
  loadLinked (.ll rt offset base) .word (s.effAddr base offset) (fun v => wordResult (low32 v)) rt s

/-- LLD rt, offset(base) (R254): load linked doubleword. -/
def execLld (rt : Reg) (offset : BitVec 16) (base : Reg) (s : State) : Result :=
  loadLinked (.lld rt offset base) .dword (s.effAddr base offset) id rt s

/-- SC rt, offset(base) (R255): store conditional word. -/
def execSc (rt : Reg) (offset : BitVec 16) (base : Reg) (s : State) : Result :=
  storeConditional (.sc rt offset base) .word (s.effAddr base offset) rt s

/-- SCD rt, offset(base) (R256): store conditional doubleword. -/
def execScd (rt : Reg) (offset : BitVec 16) (base : Reg) (s : State) : Result :=
  storeConditional (.scd rt offset base) .dword (s.effAddr base offset) rt s

end Machine
end Sys2Proof
end

