-- ==== Sys2Proof/Machine/MulDiv.lean ====
section
/-! DEFINITION. Multiply, divide and the HI/LO moves (spec 42_muldiv.md): none raises an exception (R210). -/

namespace Sys2Proof
namespace Machine

/-- The instruction completes with HI and LO written. -/
def completeHiLo (hi lo : Word64) (s : State) : Result := complete .none (s.setHiLo hi lo)

/-- The word products (R211, R212): each half of the 64-bit product sign-extended. -/
def completeWordPair (p : Word64) (s : State) : Result :=
  completeHiLo (wordResult (p.extractLsb' 32 32)) (wordResult (p.extractLsb' 0 32)) s

/-- The doubleword products (R213, R214): the halves of the 128-bit product. -/
def completeDwordPair (p : Word128) (s : State) : Result :=
  completeHiLo (p.extractLsb' 64 64) (p.extractLsb' 0 64) s

/-- Division by zero of a doubleword (R216): (LO, HI) are what the parameter DIV0 gives for the dividend; no
exception. -/
def completeDivByZero (op : DivOp) (dividend : Word64) (s : State) : Result :=
  completeHiLo (div0 s.params.div0 op dividend).2 (div0 s.params.div0 op dividend).1 s

/-- Division by zero of a word (R216), as R210 has the word forms: DIV0 gets bits 31:0 of x[rs] only, as W of them
(DEDUCED, log 27), and LO and HI are W of the low words of what it gives (DEDUCED, log 28). -/
def completeWordDivByZero (op : DivOp) (dividend : Word32) (s : State) : Result :=
  completeHiLo (wordResult (low32 (div0 s.params.div0 op (wordResult dividend)).2))
    (wordResult (low32 (div0 s.params.div0 op (wordResult dividend)).1)) s

/-- MULT rs, rt (R211): multiply word, signed. -/
def execMult (rs rt : Reg) (s : State) : Result :=
  completeWordPair (BitVec.ofInt 64 ((low32 (s.reg rs)).toInt * (low32 (s.reg rt)).toInt)) s

/-- MULTU rs, rt (R212): multiply word, unsigned. -/
def execMultu (rs rt : Reg) (s : State) : Result :=
  completeWordPair (BitVec.ofNat 64 ((low32 (s.reg rs)).toNat * (low32 (s.reg rt)).toNat)) s

/-- DMULT rs, rt (R213): multiply doubleword, signed. -/
def execDmult (rs rt : Reg) (s : State) : Result :=
  completeDwordPair (BitVec.ofInt 128 ((s.reg rs).toInt * (s.reg rt).toInt)) s

/-- DMULTU rs, rt (R214): multiply doubleword, unsigned. -/
def execDmultu (rs rt : Reg) (s : State) : Result :=
  completeDwordPair (BitVec.ofNat 128 ((s.reg rs).toNat * (s.reg rt).toNat)) s

/-- DIV rs, rt (R217): divide word, signed. -/
def execDiv (rs rt : Reg) (s : State) : Result :=
  if (low32 (s.reg rt)).toInt = 0 then completeWordDivByZero .div (low32 (s.reg rs)) s
  else completeHiLo (wordResult (BitVec.ofInt 32 (rem (low32 (s.reg rs)).toInt (low32 (s.reg rt)).toInt)))
    (wordResult (BitVec.ofInt 32 (quot (low32 (s.reg rs)).toInt (low32 (s.reg rt)).toInt))) s

/-- DIVU rs, rt (R218): divide word, unsigned. -/
def execDivu (rs rt : Reg) (s : State) : Result :=
  if (low32 (s.reg rt)).toNat = 0 then completeWordDivByZero .divu (low32 (s.reg rs)) s
  else completeHiLo (wordResult (BitVec.ofNat 32 ((low32 (s.reg rs)).toNat % (low32 (s.reg rt)).toNat)))
    (wordResult (BitVec.ofNat 32 ((low32 (s.reg rs)).toNat / (low32 (s.reg rt)).toNat))) s

/-- DDIV rs, rt (R219): divide doubleword, signed. -/
def execDdiv (rs rt : Reg) (s : State) : Result :=
  if (s.reg rt).toInt = 0 then completeDivByZero .ddiv (s.reg rs) s
  else completeHiLo (BitVec.ofInt 64 (rem (s.reg rs).toInt (s.reg rt).toInt))
    (BitVec.ofInt 64 (quot (s.reg rs).toInt (s.reg rt).toInt)) s

/-- DDIVU rs, rt (R220): divide doubleword, unsigned. -/
def execDdivu (rs rt : Reg) (s : State) : Result :=
  if (s.reg rt).toNat = 0 then completeDivByZero .ddivu (s.reg rs) s
  else completeHiLo (BitVec.ofNat 64 ((s.reg rs).toNat % (s.reg rt).toNat))
    (BitVec.ofNat 64 ((s.reg rs).toNat / (s.reg rt).toNat)) s

/-- MFHI rd (R221): move from HI. -/
def execMfhi (rd : Reg) (s : State) : Result :=
  completeReg rd s.hi s

/-- MTHI rs (R222): move to HI. -/
def execMthi (rs : Reg) (s : State) : Result :=
  completeHiLo (s.reg rs) s.lo s

/-- MFLO rd (R223): move from LO. -/
def execMflo (rd : Reg) (s : State) : Result :=
  completeReg rd s.lo s

/-- MTLO rs (R224): move to LO. -/
def execMtlo (rs : Reg) (s : State) : Result :=
  completeHiLo s.hi (s.reg rs) s

end Machine
end Sys2Proof
end

