-- ==== Sys2Proof/Machine/System.lean ====
section
/-! DEFINITION. System, trap and reserved instructions (spec 45_system.md). -/

namespace Sys2Proof
namespace Machine

/-- A conditional trap (R303): the exception where the condition holds, else no effect. -/
def trapIf (c : Bool) (i : Instr) (s : State) : Result :=
  if c then raiseInstr .trap i s else complete .none s

/-- Executing `Reserved(w)` (R316 to R319): ReservedInstruction with the raw word, and nothing else changes. -/
def execReserved (w : Word32) (s : State) : Result :=
  .next (s.takeException .reservedInstruction (w.setWidth 64) (some w))

/-- SYSCALL (R300): system call. -/
def execSyscall (code : BitVec 20) (s : State) : Result :=
  raiseInstr .syscall (.syscall code) s

/-- BREAK (R301): breakpoint. -/
def execBreak (code : BitVec 20) (s : State) : Result :=
  raiseInstr .breakpoint (.brk code) s

/-- SYNC (R302): memory barrier. -/
def execSync (s : State) : Result :=
  complete .none s

/-- TGE rs, rt (R304): trap if greater than or equal. -/
def execTge (rs rt : Reg) (code : BitVec 10) (s : State) : Result :=
  trapIf (geSigned (s.reg rs) (s.reg rt)) (.tge rs rt code) s

/-- TGEU rs, rt (R305): trap if greater than or equal, unsigned. -/
def execTgeu (rs rt : Reg) (code : BitVec 10) (s : State) : Result :=
  trapIf (geUnsigned (s.reg rs) (s.reg rt)) (.tgeu rs rt code) s

/-- TLT rs, rt (R306): trap if less than. -/
def execTlt (rs rt : Reg) (code : BitVec 10) (s : State) : Result :=
  trapIf (ltSigned (s.reg rs) (s.reg rt)) (.tlt rs rt code) s

/-- TLTU rs, rt (R307): trap if less than, unsigned. -/
def execTltu (rs rt : Reg) (code : BitVec 10) (s : State) : Result :=
  trapIf (ltUnsigned (s.reg rs) (s.reg rt)) (.tltu rs rt code) s

/-- TEQ rs, rt (R308): trap if equal. -/
def execTeq (rs rt : Reg) (code : BitVec 10) (s : State) : Result :=
  trapIf (s.reg rs == s.reg rt) (.teq rs rt code) s

/-- TNE rs, rt (R309): trap if not equal. -/
def execTne (rs rt : Reg) (code : BitVec 10) (s : State) : Result :=
  trapIf (s.reg rs != s.reg rt) (.tne rs rt code) s

/-- TGEI rs, immediate (R310): trap if greater than or equal, immediate. -/
def execTgei (rs : Reg) (imm : BitVec 16) (s : State) : Result :=
  trapIf (geSigned (s.reg rs) (simm imm)) (.tgei rs imm) s

/-- TGEIU rs, immediate (R311): trap if greater than or equal, unsigned immediate. -/
def execTgeiu (rs : Reg) (imm : BitVec 16) (s : State) : Result :=
  trapIf (geUnsigned (s.reg rs) (simm imm)) (.tgeiu rs imm) s

/-- TLTI rs, immediate (R312): trap if less than, immediate. -/
def execTlti (rs : Reg) (imm : BitVec 16) (s : State) : Result :=
  trapIf (ltSigned (s.reg rs) (simm imm)) (.tlti rs imm) s

/-- TLTIU rs, immediate (R313): trap if less than, unsigned immediate. -/
def execTltiu (rs : Reg) (imm : BitVec 16) (s : State) : Result :=
  trapIf (ltUnsigned (s.reg rs) (simm imm)) (.tltiu rs imm) s

/-- TEQI rs, immediate (R314): trap if equal, immediate. -/
def execTeqi (rs : Reg) (imm : BitVec 16) (s : State) : Result :=
  trapIf (s.reg rs == simm imm) (.teqi rs imm) s

/-- TNEI rs, immediate (R315): trap if not equal, immediate. -/
def execTnei (rs : Reg) (imm : BitVec 16) (s : State) : Result :=
  trapIf (s.reg rs != simm imm) (.tnei rs imm) s

end Machine
end Sys2Proof
end

