-- ==== Sys2Proof/Machine/Cycle.lean ====
section
/-! DEFINITION. The fetch and the step's body (spec 40_cycle.md R130 to R141), and the placing of a word where the next
step fetches. -/

namespace Sys2Proof
namespace Machine

/-- The fetch of R131: one bus read of a word at `pc[31:0]`. A fetch from a device range is a device read
(20_memory.md R79), so the state after it is part of the answer. -/
def fetchWord (s : State) : Except AddrSub (Word32 × State) :=
  match memRead s (busAddr s.pc) .word with
  | .error sub => .error sub
  | .ok (v, t) => .ok (v.setWidth 32, t)

/-- What follows a fetch (R133): the halt word, the reserved words, the instruction, in this order (R335). -/
def runWord (w : Word32) (s : State) : Result :=
  if s.params.haltWord = some w then .next { s with run := .halted }
  else
    match decode w with
    | .reserved _ _ => execReserved w s
    | .instr i => exec i s

/-- `step` of R133. In a terminal state it does nothing (R140). -/
def cycle (s : State) : Result :=
  match s.run with
  | .faulted _ => .next s
  | .halted => .next s
  | .running =>
    match fetchWord s with
    | .error sub => .next (s.takeException (.addressError sub .fetch) s.pc none)
    | .ok (w, t) => runWord w t

/-- The word placed where the next step fetches it: in RAM at the pc where the pc's word is RAM; else as the host's
load of a one-word image places it, at IMAGE_BASE with the pc there (70_reset_and_hazards.md R362, log 15). -/
def placeWord (w : Word32) (s : State) : State :=
  match classify s.params (busAddr s.pc) .word with
  | .ok (.ramAt _ _) => { s with run := .running, mem := writeBytes s.mem (busAddr s.pc) 4 (w.setWidth 64) }
  | _ =>
    { s with
      run := .running
      mem := writeBytes s.mem s.params.imageBase 4 (w.setWidth 64)
      pc := s.params.imageBase.setWidth 64 }

end Machine
end Sys2Proof
end

