-- ==== Sys2Proof/Machine/Step.lean ====
section
/-! DEFINITION. The step, and the state whose next step runs a given word. -/

namespace Sys2Proof
namespace Machine

/-- One step of the block (spec 40_cycle.md R133). -/
def step (s : State) : Host.Outcome State Fault Refusal := cycle s

/-- `s` with the instruction of bits `w` (every bit from `nbits` on being zero) where `step` fetches next. -/
def State.withFetchWord (s : State) (nbits w : Nat) : State := placeWord (BitVec.ofNat 32 (w % 2 ^ nbits)) s

end Machine
end Sys2Proof
end

