-- ==== Sys2Proof/Machine/HostOps.lean ====
section
/-! DEFINITION. What the host does around the steps (spec 60_exceptions.md R342): construction and image load
(70_reset_and_hazards.md R360 to R364), stop, peripheral ticks, and the count of completed steps. None of it is part of
a step. -/

namespace Sys2Proof
namespace Machine

/-- The draws of a construction (10_state.md R46): INIT_GPR, INIT_HI, INIT_LO, and INIT_RAM as the bytes it gives. -/
structure Draws where
  gpr : Vector Word64 31
  hi : Word64
  lo : Word64
  ram : List Host.Cell
  deriving DecidableEq, Repr

/-- Construction sorts the ranges by base (20_memory.md R61): one range put into its place. -/
def insertRange (r : BusRange) : List BusRange → List BusRange
  | [] => [r]
  | q :: rs => if r.base.toNat ≤ q.base.toNat then r :: q :: rs else q :: insertRange r rs

/-- The routing table in the order of its bases (R61). -/
def sortRanges : List BusRange → List BusRange
  | [] => []
  | r :: rs => insertRange r (sortRanges rs)

/-- The address is a byte of a RAM range. -/
def inRam (p : Params) (a : BusAddr) : Bool :=
  match region p a with
  | some r => r.kind == .ram
  | none => false

/-- Direct writes of RAM bytes, without routing errors or callbacks (20_memory.md R70); a byte that is not of a RAM
range, or not `allowed`, is none the host may write, and is left; of two pairs at one address the later holds (log 22). -/
def pokeBytes (allowed : BusAddr → Bool) (p : Params) (m : Memory) : List Host.Cell → Memory
  | [] => m
  | (a, b) :: l =>
    if a < 2 ^ 32 ∧ inRam p (BitVec.ofNat 32 a) = true ∧ allowed (BitVec.ofNat 32 a) = true then
      pokeBytes allowed p (Memory.write m a b) l
    else pokeBytes allowed p m l

/-- `construct(RANGES, callbacks)` (70_reset_and_hazards.md R360), with the draws as arguments: a malformed range table
is refused, and no block exists; else the state of 10_state.md R46. -/
def construct (p : Params) (d : Draws) : Result :=
  if p.wf then
    .next
      { gpr := d.gpr
        hi := d.hi
        lo := d.lo
        pc := Config.resetVector
        pend := none
        llbit := false
        run := .running
        mem := pokeBytes (fun _ => true) { p with ranges := sortRanges p.ranges } [] d.ram
        params := { p with ranges := sortRanges p.ranges }
        devLog := []
        devReplies := [] }
  else .fault .malformedRangeTable

/-- The `n` bytes from IMAGE_BASE on lie in one RAM range (R362). DESIGN CHOICE, log 26: IMAGE_BASE + i is a natural
number here, R362 does not say that it wraps; so an image that runs past bus address 2^32 - 1 does not fit, even where one
RAM range holds all 2^32 bytes. -/
def imageFits (p : Params) (n : Nat) : Bool :=
  n == 0 || p.ranges.any fun r =>
    r.kind == .ram && r.base.toNat ≤ p.imageBase.toNat && p.imageBase.toNat + n ≤ r.limit

/-- The image copied byte for byte, byte i to `a + i` (R362). -/
def copyImage (m : Memory) (a : Nat) : List Byte → Memory
  | [] => m
  | b :: image => copyImage (Memory.write m a b) (a + 1) image

/-- `load(image, entry)` (R362 to R364): the image into RAM at IMAGE_BASE and the pc at the entry point; or LoadFailure,
and nothing has changed. The host calls it at most once, after `construct` and before the first step (R365). -/
def load (image : List Byte) (entry : Word64) (s : State) : Result :=
  if imageFits s.params image.length ∧ wordAligned entry then
    .next { s with mem := copyImage s.mem s.params.imageBase.toNat image, pc := entry }
  else .fault .loadFailure

/-- `stop()` (60_exceptions.md R349): Running becomes Halted; else the request is ignored. -/
def hostStop (s : State) : State :=
  match s.run with
  | .running => { s with run := .halted }
  | .faulted _ => s
  | .halted => s

/-- The address is in PERIPH_WRITABLE (60_exceptions.md R344). -/
def periphWritable (p : Params) (a : BusAddr) : Bool :=
  p.periphWritable.any fun w => w.base.toNat ≤ a.toNat && a.toNat < w.base.toNat + w.size

/-- A peripheral tick (60_exceptions.md R344): it may write bytes of PERIPH_WRITABLE and change what the devices will
answer, and nothing else of the block. -/
def tick (writes : List Host.Cell) (replies : List Word64) (s : State) : State :=
  { s with mem := pokeBytes (periphWritable s.params) s.params s.mem writes, devReplies := replies }

/-- The host's loop of at most `n` steps: the state it ends in and the number of steps that returned Continue, which
the host reports with an exception (60_exceptions.md R345). -/
def hostRun : Nat → State → Nat × State
  | 0, s => (0, s)
  | n + 1, s =>
    match step s with
    | .next t =>
      match t.outcome with
      | .continue => ((hostRun n t).1 + 1, (hostRun n t).2)
      | .exception _ => (0, t)
      | .halted => (0, t)
    | .fault _ => (0, s)
    | .refused _ => (0, s)

end Machine
end Sys2Proof
end

