-- ==== Sys2Proof/Safety.lean ====
section
/-! DEFINITION. What the statements are made of: the invariant of a constructed block, what an instruction leaves
unchanged, the effects of the spec's rules in plain terms, and the tables that say which instruction may do what. -/

namespace Sys2Proof
namespace Machine

/-! ### The invariant of a constructed block -/

/-- Every byte the memory lists is a byte of a RAM range (spec 10_state.md R39). -/
def MemoryIsRam (s : State) : Prop :=
  ∀ c ∈ s.mem, c.1 < 2 ^ 32 ∧ inRam s.params (BitVec.ofNat 32 c.1) = true

/-- A 64-bit address is a multiple of 4 (10_state.md R34). -/
def Aligned4 (a : Word64) : Prop := a.toNat % 4 = 0

/-- What holds at every step boundary of a constructed block: an admissible range table (20_memory.md R61), the memory's
canonical form and place, an aligned pc (10_state.md R34), an aligned pending target (44_branch_jump.md R270, R292), and
an exception record that agrees with the state it was raised in (40_cycle.md R133, R135). -/
structure Inv (s : State) : Prop where
  paramsOk : s.params.wf
  memCanonical : Memory.wf s.mem
  memIsRam : MemoryIsRam s
  pcAligned : Aligned4 s.pc
  pendAligned : ∀ target, s.pend = some target → Aligned4 target
  recordAgrees : ∀ e, s.run = .faulted e → e.pc = s.pc ∧ e.delay = s.pend.isSome

/-! ### What an instruction leaves unchanged -/

/-- HI, LO and LLbit are unchanged. -/
def SameControl (s t : State) : Prop := t.hi = s.hi ∧ t.lo = s.lo ∧ t.llbit = s.llbit

/-- Every general register is unchanged. -/
def SameRegs (s t : State) : Prop := ∀ r : Reg, t.reg r = s.reg r

/-- Every byte of memory is unchanged. -/
def SameMemory (s t : State) : Prop := ∀ a : BusAddr, t.byteAt a = s.byteAt a

/-- No device callback has happened. -/
def SameDevices (s t : State) : Prop := t.devLog = s.devLog ∧ t.devReplies = s.devReplies

/-- Register `rd` holds `v` (register 0 holds 0 whatever is written, 10_state.md R30), every other register is
unchanged. -/
def RegWritten (s t : State) (rd : Reg) (v : Word64) : Prop :=
  t.reg rd = (if rd = 0 then 0 else v) ∧ ∀ r : Reg, r ≠ rd → t.reg r = s.reg r

/-- The sequencer's part of a completed step (40_cycle.md R133): the pc and the pending slot, with the run state and the
configuration unchanged. -/
def Sequenced (br : Request) (s t : State) : Prop :=
  t.run = s.run ∧ t.params = s.params ∧
    match s.pend, br with
    | some _, .branch target => t.pc = target ∧ t.pend = none
    | some pending, .none => t.pc = pending ∧ t.pend = none
    | some pending, .skip => t.pc = pending ∧ t.pend = none
    | none, .branch target => t.pc = s.pc + 4 ∧ t.pend = some target
    | none, .skip => t.pc = s.pc + 8 ∧ t.pend = none
    | none, .none => t.pc = s.pc + 4 ∧ t.pend = none

/-- The instruction completes, asks for `br`, and writes nothing of its own. -/
def WritesNothing (br : Request) (s t : State) : Prop :=
  SameRegs s t ∧ SameControl s t ∧ SameMemory s t ∧ SameDevices s t ∧ Sequenced br s t

/-- The instruction completes, asks for `br`, writes `v` into `rd`, and nothing else. -/
def WritesReg (br : Request) (s t : State) (rd : Reg) (v : Word64) : Prop :=
  RegWritten s t rd v ∧ SameControl s t ∧ SameMemory s t ∧ SameDevices s t ∧ Sequenced br s t

/-- The instruction completes, leaves HI and LO at these values, and writes nothing else. -/
def WritesHiLo (s t : State) (hi lo : Word64) : Prop :=
  t.hi = hi ∧ t.lo = lo ∧ t.llbit = s.llbit ∧ SameRegs s t ∧ SameMemory s t ∧ SameDevices s t ∧ Sequenced .none s t

/-! ### The shapes of an instruction's rule -/

/-- The encoding line of an instruction's rule: exactly the word `w` decodes to `i`. -/
def IsEncoding (i : Instr) (w : Word32) : Prop := ∀ x : Word32, decode x = .instr i ↔ x = w

/-- `Faulted(e)` for an exception raised in the state `s` (40_cycle.md R133): e holds the kind, the information word, the
pc, whether a branch was pending, and the fetched word, none for a fetch fault. -/
def faultedIn (s : State) (kind : ExcKind) (info : Word64) (raw : Option Word32) : Run :=
  .faulted ⟨kind, info, s.pc, s.pend.isSome, raw⟩

/-- The instruction of word `w` raises an exception (40_cycle.md R133): the record, and nothing else changes (R135). -/
def Raises (i : Instr) (w : Word32) (kind : ExcKind) (info : Word64) (s : State) : Prop :=
  exec i s = .next { s with run := faultedIn s kind info (some w) }

/-- An instruction that always completes with `v` in `rd`. -/
def Computes (i : Instr) (w : Word32) (s : State) (rd : Reg) (v : Word64) : Prop :=
  IsEncoding i w ∧ ∃ t, exec i s = .next t ∧ WritesReg .none s t rd v

/-- An instruction that completes with `v` in `rd` where the exact integer `x` fits in `n` bits, signed, and raises
ArithmeticOverflow with the raw word where it does not (41_alu.md R150, R190). -/
def ComputesInRange (n : Nat) (i : Instr) (w : Word32) (s : State) (rd : Reg) (x : Int) (v : Word64) : Prop :=
  IsEncoding i w ∧
    (-2 ^ (n - 1) ≤ x ∧ x ≤ 2 ^ (n - 1) - 1 → ∃ t, exec i s = .next t ∧ WritesReg .none s t rd v) ∧
    (x < -2 ^ (n - 1) ∨ 2 ^ (n - 1) - 1 < x → Raises i w .arithmeticOverflow (w.setWidth 64) s)

/-- An instruction that always completes with these values in HI and LO. -/
def ComputesHiLo (i : Instr) (w : Word32) (s : State) (hi lo : Word64) : Prop :=
  IsEncoding i w ∧ ∃ t, exec i s = .next t ∧ WritesHiLo s t hi lo

/-- A branch or jump that always completes with the request `br` and writes nothing. -/
def Branches (i : Instr) (w : Word32) (s : State) (br : Request) : Prop :=
  IsEncoding i w ∧ ∃ t, exec i s = .next t ∧ WritesNothing br s t

/-- A branch or jump that always completes with the request `br` and the link `pc + 8` in register 31. -/
def BranchesAndLinks (i : Instr) (w : Word32) (s : State) (br : Request) : Prop :=
  IsEncoding i w ∧ ∃ t, exec i s = .next t ∧ WritesReg br s t 31 (s.pc + 8)

/-- A conditional trap (45_system.md R303): Trap with the raw word where `c` holds, else no effect. -/
def Traps (i : Instr) (w : Word32) (s : State) (c : Prop) : Prop :=
  IsEncoding i w ∧ (c → Raises i w .trap (w.setWidth 64) s) ∧
    (¬ c → ∃ t, exec i s = .next t ∧ WritesNothing .none s t)

/-- `BT` of 44_branch_jump.md R270. -/
def branchTargetOf (s : State) (imm : BitVec 16) : Word64 := s.pc + 4 + (imm ++ 0#2).signExtend 64

/-- `EA` of 43_loadstore.md R230. -/
def effectiveAddress (s : State) (base : Reg) (offset : BitVec 16) : Word64 := s.reg base + offset.signExtend 64

/-! ### Bus transactions in plain terms -/

/-- `a` is an address of the range (20_memory.md R63). -/
def InRange (r : BusRange) (a : BusAddr) : Prop := r.base.toNat ≤ a.toNat ∧ a.toNat < r.base.toNat + r.size

/-- The region of `a` requires alignment (20_memory.md R64): RAM, or a device range registered so. -/
def NeedsAlignment (p : Params) (a : BusAddr) : Prop :=
  ∃ r ∈ p.ranges, InRange r a ∧ (r.kind = .ram ∨ ∃ d, r.kind = .device d true)

/-- The big-endian number of the `n` bytes `f 0`, `f 1`, ... (20_memory.md R66, R74). -/
def bigEndian (f : Nat → Byte) (n : Nat) : Nat := ((List.range n).map fun i => (f i).toNat * 2 ^ (8 * (n - 1 - i))).sum

/-- Byte `i` of an `n`-byte value in bus order: bits `8(n-i)-1 : 8(n-1-i)` (20_memory.md R67, R74). -/
def busByte (n : Nat) (v : Word64) (i : Nat) : Byte := v.extractLsb' (8 * (n - 1 - i)) 8

/-- What a read of `n` bytes at `a` returns by each route (20_memory.md R66): the RAM bytes in big-endian order, what
the device answers, or copies of FILL. -/
def ReadReturns (s : State) (a : BusAddr) (n : Width) (v : Word64) : Route → Prop
  | .ramAt _ _ => v.toNat = bigEndian (fun i => s.byteAt (a + BitVec.ofNat 32 i)) n.bytes
  | .devAt d => v = deviceReply s d a n
  | .unmapped => v.toNat = bigEndian (fun _ => s.params.fill) n.bytes

/-- The device callbacks of a read that returns `v`: one where the route is a device, else none (20_memory.md R71). -/
def ReadEvents (s t : State) (a : BusAddr) (n : Width) (v : Word64) : Route → Prop
  | .devAt d => t.devLog = s.devLog ++ [.read d a n v] ∧ t.devReplies = s.devReplies.tail
  | .ramAt _ _ => SameDevices s t
  | .unmapped => SameDevices s t

/-- The bytes that a write of the low `n` bytes of `v` at `a` stores by each route (20_memory.md R67): in RAM the `n`
bytes from `a` on; elsewhere none; every other byte is unchanged. -/
def WrittenBytes (s t : State) (a : BusAddr) (n : Width) (v : Word64) : Route → Prop
  | .ramAt _ _ =>
    (∀ i < n.bytes, t.byteAt (a + BitVec.ofNat 32 i) = busByte n.bytes v i) ∧
      ∀ x, (∀ i < n.bytes, x ≠ a + BitVec.ofNat 32 i) → t.byteAt x = s.byteAt x
  | .devAt _ => SameMemory s t
  | .unmapped => SameMemory s t

/-- The device callbacks of a write: one where the route is a device, with the low `8n` bits of `v`, else none. -/
def WriteEvents (s t : State) (a : BusAddr) (n : Width) (v : Word64) : Route → Prop
  | .devAt d =>
    t.devLog = s.devLog ++ [.write d a n (v &&& BitVec.ofNat 64 (2 ^ (8 * n.bytes) - 1))] ∧ t.devReplies = s.devReplies
  | .ramAt _ _ => SameDevices s t
  | .unmapped => SameDevices s t

/-- A load completes: one read of `n` bytes at `a` by this route returned some `v`, `f v` is in `rt`, LLbit is `ll`, and
nothing else has changed (43_loadstore.md R231, R232). -/
def Loaded (s t : State) (a : BusAddr) (n : Width) (route : Route) (rt : Reg) (f : Word64 → Word64) (ll : Bool) : Prop :=
  ∃ v, ReadReturns s a n v route ∧ ReadEvents s t a n v route ∧ RegWritten s t rt (f v) ∧
    t.hi = s.hi ∧ t.lo = s.lo ∧ t.llbit = ll ∧ SameMemory s t ∧ Sequenced .none s t

/-- A load's rule: where the access is classified to a route the load completes by it; where it is an address error, the
error is raised with the effective address (43_loadstore.md R231). -/
def Loads (i : Instr) (w : Word32) (s : State) (ea : Word64) (a : BusAddr) (n : Width) (rt : Reg)
    (f : Word64 → Word64) (ll : Bool) : Prop :=
  IsEncoding i w ∧
    (∀ route, classify s.params a n = .ok route → ∃ t, exec i s = .next t ∧ Loaded s t a n route rt f ll) ∧
    (∀ sub, classify s.params a n = .error sub → Raises i w (.addressError sub .load) ea s)

/-- A store completes: one write of the low `n` bytes of `v` at `a` by this route, and nothing else has changed. -/
def Stored (s t : State) (a : BusAddr) (n : Width) (v : Word64) (route : Route) : Prop :=
  WrittenBytes s t a n v route ∧ WriteEvents s t a n v route ∧ SameRegs s t ∧ SameControl s t ∧ Sequenced .none s t

/-- A store's rule (43_loadstore.md R231, R232). -/
def Stores (i : Instr) (w : Word32) (s : State) (ea : Word64) (n : Width) (v : Word64) : Prop :=
  IsEncoding i w ∧
    (∀ route, classify s.params (ea.setWidth 32) n = .ok route →
      ∃ t, exec i s = .next t ∧ Stored s t (ea.setWidth 32) n v route) ∧
    (∀ sub, classify s.params (ea.setWidth 32) n = .error sub → Raises i w (.addressError sub .store) ea s)

/-- The callbacks of byte writes, one for each byte whose address is a device's, in the list's order. -/
def byteEvents (p : Params) (l : List (BusAddr × Byte)) : List DevEvent :=
  l.filterMap fun c =>
    match classify p c.1 .byte with
    | .ok (.devAt d) => some (.write d c.1 .byte (c.2.setWidth 64))
    | _ => none

/-- `StoreBytes` of a list of bytes completes (43_loadstore.md R248): every listed byte whose address is RAM is stored,
every other byte of memory is unchanged, and the devices get their bytes in order. -/
def StoredEach (s t : State) (l : List (BusAddr × Byte)) : Prop :=
  (∀ c ∈ l, inRam s.params c.1 = true → t.byteAt c.1 = c.2) ∧
    (∀ x, (∀ c ∈ l, x ≠ c.1) ∨ inRam s.params x = false → t.byteAt x = s.byteAt x) ∧
    t.devLog = s.devLog ++ byteEvents s.params l ∧ t.devReplies = s.devReplies ∧
    SameRegs s t ∧ SameControl s t ∧ Sequenced .none s t

/-- The rule of an unaligned-part store: it always completes, storing these bytes. -/
def StoresEach (i : Instr) (w : Word32) (s : State) (l : List (BusAddr × Byte)) : Prop :=
  IsEncoding i w ∧ ∃ t, exec i s = .next t ∧ StoredEach s t l

/-- The rule of a conditional store (43_loadstore.md R255, R256): the address is checked whether or not LLbit is set;
then the store and 1 into `rt`, or 0 into `rt` and no access. -/
def StoresConditionally (i : Instr) (w : Word32) (s : State) (ea : Word64) (n : Width) (rt : Reg) : Prop :=
  IsEncoding i w ∧
    (∀ sub, classify s.params (ea.setWidth 32) n = .error sub → Raises i w (.addressError sub .store) ea s) ∧
    (∀ route, classify s.params (ea.setWidth 32) n = .ok route → s.llbit = true →
      ∃ t, exec i s = .next t ∧ WrittenBytes s t (ea.setWidth 32) n (s.reg rt) route ∧
        WriteEvents s t (ea.setWidth 32) n (s.reg rt) route ∧ RegWritten s t rt 1 ∧ SameControl s t ∧
        Sequenced .none s t) ∧
    (∀ route, classify s.params (ea.setWidth 32) n = .ok route → s.llbit = false →
      ∃ t, exec i s = .next t ∧ WritesReg .none s t rt 0)

/-! ### Which instruction may do what -/

/-- The register an instruction writes, if any (30_encoding.md R105, 10_state.md R31). -/
def destination : Instr → Option Reg
  | .sll rd _ _ | .srl rd _ _ | .sra rd _ _ | .sllv rd _ _ | .srlv rd _ _ | .srav rd _ _ => some rd
  | .dsllv rd _ _ | .dsrlv rd _ _ | .dsrav rd _ _ | .dsll rd _ _ | .dsrl rd _ _ | .dsra rd _ _ => some rd
  | .dsll32 rd _ _ | .dsrl32 rd _ _ | .dsra32 rd _ _ => some rd
  | .add rd _ _ | .addu rd _ _ | .sub rd _ _ | .subu rd _ _ | .and rd _ _ | .or rd _ _ | .xor rd _ _ => some rd
  | .nor rd _ _ | .slt rd _ _ | .sltu rd _ _ | .dadd rd _ _ | .daddu rd _ _ | .dsub rd _ _ | .dsubu rd _ _ => some rd
  | .jalr rd _ | .mfhi rd | .mflo rd => some rd
  | .addi rt _ _ | .addiu rt _ _ | .slti rt _ _ | .sltiu rt _ _ | .andi rt _ _ | .ori rt _ _ | .xori rt _ _ => some rt
  | .daddi rt _ _ | .daddiu rt _ _ | .lui rt _ => some rt
  | .lb rt _ _ | .lh rt _ _ | .lwl rt _ _ | .lw rt _ _ | .lbu rt _ _ | .lhu rt _ _ | .lwr rt _ _ => some rt
  | .lwu rt _ _ | .ldl rt _ _ | .ldr rt _ _ | .ld rt _ _ | .ll rt _ _ | .lld rt _ _ | .sc rt _ _ | .scd rt _ _ => some rt
  | .jal _ | .bltzal _ _ | .bgezal _ _ | .bltzall _ _ | .bgezall _ _ => some 31
  | .jr _ | .syscall _ | .brk _ | .sync | .mthi _ | .mtlo _ => none
  | .mult _ _ | .multu _ _ | .div _ _ | .divu _ _ | .dmult _ _ | .dmultu _ _ | .ddiv _ _ | .ddivu _ _ => none
  | .tge _ _ _ | .tgeu _ _ _ | .tlt _ _ _ | .tltu _ _ _ | .teq _ _ _ | .tne _ _ _ => none
  | .tgei _ _ | .tgeiu _ _ | .tlti _ _ | .tltiu _ _ | .teqi _ _ | .tnei _ _ => none
  | .bltz _ _ | .bgez _ _ | .bltzl _ _ | .bgezl _ _ | .j _ | .beq _ _ _ | .bne _ _ _ | .blez _ _ | .bgtz _ _ => none
  | .beql _ _ _ | .bnel _ _ _ | .blezl _ _ | .bgtzl _ _ => none
  | .sb _ _ _ | .sh _ _ _ | .swl _ _ _ | .sw _ _ _ | .sdl _ _ _ | .sdr _ _ _ | .swr _ _ _ | .sd _ _ _ => none

/-- The request a completed instruction makes of the sequencer (40_cycle.md R132, 44_branch_jump.md). -/
def requestOf (s : State) : Instr → Request
  | .j target | .jal target => .branch ((s.pc + 4).extractLsb' 28 36 ++ target ++ 0#2)
  | .jr rs | .jalr _ rs => .branch (s.reg rs)
  | .beq rs rt imm => if s.reg rs = s.reg rt then .branch (branchTargetOf s imm) else .none
  | .bne rs rt imm => if s.reg rs = s.reg rt then .none else .branch (branchTargetOf s imm)
  | .blez rs imm => if (s.reg rs).toInt ≤ 0 then .branch (branchTargetOf s imm) else .none
  | .bgtz rs imm => if 0 < (s.reg rs).toInt then .branch (branchTargetOf s imm) else .none
  | .bltz rs imm | .bltzal rs imm => if (s.reg rs).toInt < 0 then .branch (branchTargetOf s imm) else .none
  | .bgez rs imm | .bgezal rs imm => if 0 ≤ (s.reg rs).toInt then .branch (branchTargetOf s imm) else .none
  | .beql rs rt imm => if s.reg rs = s.reg rt then .branch (branchTargetOf s imm) else .skip
  | .bnel rs rt imm => if s.reg rs = s.reg rt then .skip else .branch (branchTargetOf s imm)
  | .blezl rs imm => if (s.reg rs).toInt ≤ 0 then .branch (branchTargetOf s imm) else .skip
  | .bgtzl rs imm => if 0 < (s.reg rs).toInt then .branch (branchTargetOf s imm) else .skip
  | .bltzl rs imm | .bltzall rs imm => if (s.reg rs).toInt < 0 then .branch (branchTargetOf s imm) else .skip
  | .bgezl rs imm | .bgezall rs imm => if 0 ≤ (s.reg rs).toInt then .branch (branchTargetOf s imm) else .skip
  | _ => .none

/-- Which exception an instruction may raise, and when (60_exceptions.md R333): every other one raises nothing. -/
def mayRaise (s : State) : Instr → ExcKind → Prop
  | .jr rs, .addressError .unaligned .fetch | .jalr _ rs, .addressError .unaligned .fetch => ¬ Aligned4 (s.reg rs)
  | .lh .., .addressError _ .load | .lhu .., .addressError _ .load | .lw .., .addressError _ .load => True
  | .lwu .., .addressError _ .load | .ld .., .addressError _ .load => True
  | .ll .., .addressError _ .load | .lld .., .addressError _ .load => True
  | .sh .., .addressError _ .store | .sw .., .addressError _ .store | .sd .., .addressError _ .store => True
  | .sc .., .addressError _ .store | .scd .., .addressError _ .store => True
  | .add .., .arithmeticOverflow | .addi .., .arithmeticOverflow | .sub .., .arithmeticOverflow => True
  | .dadd .., .arithmeticOverflow | .daddi .., .arithmeticOverflow | .dsub .., .arithmeticOverflow => True
  | .syscall _, .syscall | .brk _, .breakpoint => True
  | .tge rs rt _, .trap => (s.reg rt).toInt ≤ (s.reg rs).toInt
  | .tgeu rs rt _, .trap => (s.reg rt).toNat ≤ (s.reg rs).toNat
  | .tlt rs rt _, .trap => (s.reg rs).toInt < (s.reg rt).toInt
  | .tltu rs rt _, .trap => (s.reg rs).toNat < (s.reg rt).toNat
  | .teq rs rt _, .trap => s.reg rs = s.reg rt
  | .tne rs rt _, .trap => s.reg rs ≠ s.reg rt
  | .tgei rs imm, .trap => (imm.signExtend 64).toInt ≤ (s.reg rs).toInt
  | .tgeiu rs imm, .trap => (imm.signExtend 64).toNat ≤ (s.reg rs).toNat
  | .tlti rs imm, .trap => (s.reg rs).toInt < (imm.signExtend 64).toInt
  | .tltiu rs imm, .trap => (s.reg rs).toNat < (imm.signExtend 64).toNat
  | .teqi rs imm, .trap => s.reg rs = imm.signExtend 64
  | .tnei rs imm, .trap => s.reg rs ≠ imm.signExtend 64
  | _, _ => False

/-- What the bus sees of an instruction (20_memory.md R76). -/
inductive BusUse where
  /-- No bus access. -/
  | none
  /-- One read of this width. -/
  | oneRead (n : Width)
  /-- One write of this width. -/
  | oneWrite (n : Width)
  /-- At most this many byte writes. -/
  | byteWrites (most : Nat)
  deriving DecidableEq, Repr

/-- The table of 20_memory.md R76. -/
def busUse : Instr → BusUse
  | .lb .. | .lbu .. => .oneRead .byte
  | .lh .. | .lhu .. => .oneRead .half
  | .lw .. | .lwu .. | .ll .. | .lwl .. | .lwr .. => .oneRead .word
  | .ld .. | .lld .. | .ldl .. | .ldr .. => .oneRead .dword
  | .sb .. => .oneWrite .byte
  | .sh .. => .oneWrite .half
  | .sw .. | .sc .. => .oneWrite .word
  | .sd .. | .scd .. => .oneWrite .dword
  | .swl .. | .swr .. => .byteWrites 4
  | .sdl .. | .sdr .. => .byteWrites 8
  | _ => .none

/-- The callbacks of one instruction that its bus use allows: none, one read or one write of the width, or byte writes;
a read leaves every byte of memory as it was. -/
def AllowedBus (s t : State) (evs : List DevEvent) : BusUse → Prop
  | .none => evs = [] ∧ SameMemory s t
  | .oneRead n => (evs = [] ∨ ∃ d a v, evs = [.read d a n v]) ∧ SameMemory s t
  | .oneWrite n => evs = [] ∨ ∃ d a v, evs = [.write d a n v]
  | .byteWrites most => evs.length ≤ most ∧ ∀ e ∈ evs, ∃ d a v, e = .write d a .byte v

/-- The bus addresses of `n` bytes from `a` on (20_memory.md R62). -/
def bytesFrom (a : BusAddr) (n : Nat) : List BusAddr := (List.range n).map fun i => a + BitVec.ofNat 32 i

/-- The bus addresses an instruction may store to: the bytes of its access from EA on (43_loadstore.md R244 to R247,
R255, R256); for an unaligned-part store the bytes from EA to the end of its aligned unit, or from the unit's start to
EA (R248 to R252); for every other instruction none. -/
def storedAt (s : State) : Instr → List BusAddr
  | .sb _ offset base => bytesFrom ((effectiveAddress s base offset).setWidth 32) 1
  | .sh _ offset base => bytesFrom ((effectiveAddress s base offset).setWidth 32) 2
  | .sw _ offset base | .sc _ offset base => bytesFrom ((effectiveAddress s base offset).setWidth 32) 4
  | .sd _ offset base | .scd _ offset base => bytesFrom ((effectiveAddress s base offset).setWidth 32) 8
  | .swl _ offset base =>
    bytesFrom ((effectiveAddress s base offset).setWidth 32) (4 - (effectiveAddress s base offset).toNat % 4)
  | .sdl _ offset base =>
    bytesFrom ((effectiveAddress s base offset).setWidth 32) (8 - (effectiveAddress s base offset).toNat % 8)
  | .swr _ offset base =>
    bytesFrom ((effectiveAddress s base offset).setWidth 32
      - BitVec.ofNat 32 ((effectiveAddress s base offset).toNat % 4)) ((effectiveAddress s base offset).toNat % 4 + 1)
  | .sdr _ offset base =>
    bytesFrom ((effectiveAddress s base offset).setWidth 32
      - BitVec.ofNat 32 ((effectiveAddress s base offset).toNat % 8)) ((effectiveAddress s base offset).toNat % 8 + 1)
  | _ => []

/-- The byte of the last pair at `x`, if the host's list holds one (log 22). -/
def lastByteAt (l : List Host.Cell) (x : BusAddr) : Option Byte :=
  (l.reverse.find? fun c => c.1 == x.toNat).map (·.2)

/-- The byte that INIT_RAM gives at `x` (10_state.md R46): that of the last pair of the draw at `x`; where the draw lists
none, `backgroundByte` (log 9). -/
def drawnByte (d : Draws) (x : BusAddr) : Byte := (lastByteAt d.ram x).getD backgroundByte

/-- HI may be written by this instruction (10_state.md R35). -/
def writesHi : Instr → Bool
  | .mult .. | .multu .. | .div .. | .divu .. | .dmult .. | .dmultu .. | .ddiv .. | .ddivu .. | .mthi _ => true
  | _ => false

/-- LO may be written by this instruction (10_state.md R35). -/
def writesLo : Instr → Bool
  | .mult .. | .multu .. | .div .. | .divu .. | .dmult .. | .dmultu .. | .ddiv .. | .ddivu .. | .mtlo _ => true
  | _ => false

/-- LLbit is set by this instruction (10_state.md R37). -/
def setsLink : Instr → Bool
  | .ll .. | .lld .. => true
  | _ => false

/-- LLbit is read by this instruction (10_state.md R37). -/
def readsLink : Instr → Bool
  | .sc .. | .scd .. => true
  | _ => false

end Machine
end Sys2Proof
end

