-- ==== Sys2Proof/Certificates/Slice0/Obligations.lean ====
section
/-! DEFINITION. The statements about the machine, for the provers. Their vocabulary is Sys2Proof/Safety.lean. -/

open Sys2Proof Sys2Proof.Machine

/-- Decoding an encoded instruction gives it back, for every instruction (30_encoding.md R101 to R104, 30_encoding.md
R108 to R112, spec/opcode_table.json). No bit of an operand is lost between the two directions. -/
def Obligations.DecodeOfEncode : Prop :=
  ∀ i : Instr, decode (encode i) = .instr i

/-- A word that decodes to an instruction is that instruction's encoding; a reserved word is kept whole (30_encoding.md
R108 to R113). So the raw word an exception records is the word that was fetched (log 13). -/
def Obligations.DecodedWordIsItsEncoding : Prop :=
  ∀ w : Word32,
    (∀ i, decode w = .instr i → encode i = w) ∧ (∀ x why, decode w = .reserved x why → x = w)

/-- The reserved words are exactly those of R113, the must-be-zero violations of R112 among them (R113, R112). Fields
are written as numbers, so that the lists read as in the spec. -/
def Obligations.ReservedWords : Prop :=
  ∀ w : Word32,
    ((∃ x why, decode w = .reserved x why) ↔
       ((opOf w).toNat ∈ [0x13, 0x1C, 0x1D, 0x1E, 0x1F, 0x33, 0x3B] ∨
         (opOf w).toNat ∈ [0x10, 0x11, 0x12, 0x31, 0x32, 0x35, 0x36, 0x39, 0x3A, 0x3D, 0x3E] ∨
         (opOf w).toNat = 0x2F ∨
         ((opOf w).toNat = 1 ∧ (rtOf w).toNat ∈
           [0x04, 0x05, 0x06, 0x07, 0x0D, 0x0F, 0x14, 0x15, 0x16, 0x17, 0x18, 0x19, 0x1A, 0x1B, 0x1C, 0x1D, 0x1E,
               0x1F]) ∨
         ((opOf w).toNat = 0x0F ∧ rsOf w ≠ 0) ∨
         ((opOf w).toNat ∈ [0x06, 0x07, 0x16, 0x17] ∧ rtOf w ≠ 0) ∨
         ((opOf w).toNat = 0 ∧
           ((functOf w).toNat ∈ [0x01, 0x05, 0x0A, 0x0B, 0x0E, 0x15, 0x28, 0x29, 0x35, 0x37, 0x39, 0x3D] ∨
             ((functOf w).toNat ∈ [0x00, 0x02, 0x03, 0x38, 0x3A, 0x3B, 0x3C, 0x3E, 0x3F] ∧ rsOf w ≠ 0) ∨
             ((functOf w).toNat ∈ [0x04, 0x06, 0x07, 0x14, 0x16, 0x17] ∧ saOf w ≠ 0) ∨
             ((functOf w).toNat ∈
               [0x20, 0x21, 0x22, 0x23, 0x24, 0x25, 0x26, 0x27, 0x2A, 0x2B, 0x2C, 0x2D, 0x2E, 0x2F] ∧ saOf w ≠ 0) ∨
             ((functOf w).toNat = 0x08 ∧ w.extractLsb' 6 15 ≠ 0) ∨
             ((functOf w).toNat = 0x09 ∧ (rtOf w ≠ 0 ∨ saOf w ≠ 0)) ∨
             ((functOf w).toNat = 0x0F ∧ w.extractLsb' 6 20 ≠ 0) ∨
             ((functOf w).toNat ∈ [0x10, 0x12] ∧ (w.extractLsb' 16 10 ≠ 0 ∨ saOf w ≠ 0)) ∨
             ((functOf w).toNat ∈ [0x11, 0x13] ∧ w.extractLsb' 6 15 ≠ 0) ∨
             ((functOf w).toNat ∈ [0x18, 0x19, 0x1A, 0x1B, 0x1C, 0x1D, 0x1E, 0x1F] ∧ w.extractLsb' 6 10 ≠ 0))))) ∧
    (∀ s : State, execReserved w s = .next { s with run := faultedIn s .reservedInstruction (w.setWidth 64) (some w) })

/-- Example words of every family decode to the instructions the spec gives for them (41_alu.md R151, 42_muldiv.md
R217, R222, 43_loadstore.md R240, R256, 44_branch_jump.md R273, R283, R285, 45_system.md R301, R310, 45_system.md
R316, R317, R319, 30_encoding.md R113). One word at a time, from the examples in the rules. The names of the
reasons are the model's own (log 19): the statement says of a reserved word only that there is one. -/
def Obligations.SampleWordsDecode : Prop :=
  decode 0x00221820#32 = .instr (.add 3 1 2) ∧
    decode 0x0022001A#32 = .instr (.div 1 2) ∧
    decode 0x00200011#32 = .instr (.mthi 1) ∧
    decode 0x88220001#32 = .instr (.lwl 2 1 1) ∧
    decode 0xF0220008#32 = .instr (.scd 2 8 1) ∧
    decode 0x0C000800#32 = .instr (.jal 0x800) ∧
    decode 0x04110010#32 = .instr (.bgezal 0 0x10) ∧
    decode 0x54220003#32 = .instr (.bnel 1 2 3) ∧
    decode 0x0007000D#32 = .instr (.brk 0x1C00) ∧
    decode 0x0428FFFF#32 = .instr (.tgei 1 0xFFFF) ∧
    (∃ why, decode 0x4C000000#32 = .reserved 0x4C000000#32 why) ∧
    (∃ why, decode 0x40086000#32 = .reserved 0x40086000#32 why) ∧
    ∃ why, decode 0x00200800#32 = .reserved 0x00200800#32 why

/-- A step runs the instruction its fetched word decodes to (40_cycle.md R130, 40_cycle.md R131, 40_cycle.md R133).
exec holds the sequencer's part too (pc, pending slot); see CompletedInstructionIsSequenced. -/
def Obligations.StepRunsDecodedInstruction : Prop :=
  ∀ (s u : State) (w : Word32) (i : Instr),
    s.run = .running → fetchWord s = .ok (w, u) → s.params.haltWord ≠ some w → decode w = .instr i →
      step s = exec i u ∧ u = { s with devLog := u.devLog, devReplies := u.devReplies }

/-- A reserved word raises ReservedInstruction with the raw word and changes nothing else (R316). The clause on the
decoder is DecodedWordIsItsEncoding and ReservedWords; the examples of the rule are stated too. -/
def Obligations.ReservedWordRaises : Prop :=
  (∀ (s u : State) (w x : Word32) (why : ReservedWhy),
      s.run = .running → fetchWord s = .ok (w, u) → s.params.haltWord ≠ some w → decode w = .reserved x why →
        step s = .next { u with run := faultedIn s .reservedInstruction (w.setWidth 64) (some w) } ∧
          u = { s with devLog := u.devLog, devReplies := u.devReplies }) ∧
    (∃ why, decode 0x4C000000#32 = .reserved 0x4C000000#32 why) ∧ (∃ i, decode 0xFFFFFFFF#32 = .instr i ∧
      i = .sd 31 0xFFFF 31)

/-- The halt word, if there is one, halts the core before decoding; without one nothing halts (R134). The fetch itself
may have been a device read, which is u. -/
def Obligations.HaltWordHalts : Prop :=
  (∀ (s u : State) (w : Word32),
      s.run = .running → fetchWord s = .ok (w, u) → s.params.haltWord = some w →
        step s = .next { u with run := .halted } ∧
          u = { s with devLog := u.devLog, devReplies := u.devReplies }) ∧
    (∀ s t : State, s.run = .running → s.params.haltWord = none → step s = .next t → t.run ≠ .halted)

/-- A step in a terminal state changes nothing and reports the same outcome again (R140). The outcome of a step is read
from run (log 12). -/
def Obligations.TerminalStatesStay : Prop :=
  ∀ s : State,
    (∀ e, s.run = .faulted e → step s = .next s ∧ s.outcome = .exception e) ∧
      (s.run = .halted → step s = .next s ∧ s.outcome = .halted)

/-- Fetch is one bus read of a word at pc[31:0]; its address error ends the step; in a constructed block it has none
(R131). The last clause is what the rule derives from R65 and R34. -/
def Obligations.FetchReadsTheBus : Prop :=
  ∀ s : State,
    (∀ sub, memRead s (s.pc.setWidth 32) .word = .error sub → s.run = .running →
      step s = .next { s with run := faultedIn s (.addressError sub .fetch) s.pc none }) ∧
    (∀ v u, memRead s (s.pc.setWidth 32) .word = .ok (v, u) → fetchWord s = .ok (v.setWidth 32, u)) ∧
    (Inv s → ∃ v u, memRead s (s.pc.setWidth 32) .word = .ok (v, u))

/-- The instruction after a taken branch executes before the target takes effect, and only that one (R137). The word
fetched in each step is the one its fetch returns; a completed step leaves run at Running. -/
def Obligations.DelaySlotLaw : Prop :=
  ∀ (s u t v r : State) (w x : Word32) (i j : Instr) (target : Word64),
    s.run = .running → s.pend = none →
    fetchWord s = .ok (w, u) → s.params.haltWord ≠ some w → decode w = .instr i →
    requestOf s i = .branch target → step s = .next t → t.run = .running →
      t.pc = s.pc + 4 ∧ t.pend = some target ∧
        (fetchWord t = .ok (x, v) → t.params.haltWord ≠ some x → decode x = .instr j →
          (∀ other, requestOf t j ≠ .branch other) → step t = .next r → r.run = .running →
            r.pc = target ∧ r.pend = none ∧ fetchWord r =
              (memRead r (target.setWidth 32) .word).map fun q => (q.1.setWidth 32, q.2))

/-- In a delay slot a taken branch replaces the pending target at once; a not-taken likely branch annuls nothing (R138,
R139). The state is any state with a pending target; the instruction is any that requests a branch or a skip. -/
def Obligations.BranchInDelaySlot : Prop :=
  ∀ (s t : State) (i : Instr) (t1 : Word64),
    s.run = .running → s.pend = some t1 → exec i s = .next t → t.run = .running →
    (∀ t2, requestOf s i = .branch t2 →
      t.pc = t2 ∧ t.pend = none ∧ ∀ rd, destination i = some rd → t.reg rd = if rd = 0 then 0 else s.pc + 8) ∧
    (requestOf s i = .skip → t.pc = t1 ∧ t.pend = none)

/-- Every instruction that completes is sequenced by its request (40_cycle.md R132, 40_cycle.md R133, 44_branch_jump.md
R270, 44_branch_jump.md R271). All 109 instructions at once. -/
def Obligations.CompletedInstructionIsSequenced : Prop :=
  ∀ (s t : State) (i : Instr), s.run = .running → exec i s = .next t →
    (t.run = .running → Sequenced (requestOf s i) s t) ∧ (t.run ≠ .running → t = { s with run := t.run })

/-- A step that raises an exception changes only run (R135). Registers, HI, LO, LLbit, pc, pend, every RAM byte: all
unchanged, since the state after the fetch differs from s only in the device record. -/
def Obligations.ExceptionChangesOnlyRun : Prop :=
  ∀ (s t : State) (e : Exc), s.run = .running → step s = .next t → t.run = .faulted e →
    e.pc = s.pc ∧ e.delay = s.pend.isSome ∧
      ((∃ sub, fetchWord s = .error sub ∧ e.raw = none ∧ t = { s with run := .faulted e }) ∨
        (∃ w u, fetchWord s = .ok (w, u) ∧ e.raw = some w ∧ t = { u with run := .faulted e } ∧
          u = { s with devLog := u.devLog, devReplies := u.devReplies }))

/-- Which step can raise which kind (R333). mayRaise is the table of R333. -/
def Obligations.ExceptionKinds : Prop :=
  ∀ (s t : State) (e : Exc), s.params.wf → s.run = .running → step s = .next t → t.run = .faulted e →
    (∃ sub, fetchWord s = .error sub ∧ e.kind = .addressError sub .fetch ∧ ¬ Aligned4 s.pc) ∨
      (∃ w u, fetchWord s = .ok (w, u) ∧ s.params.haltWord ≠ some w ∧
        ((∃ x why, decode w = .reserved x why ∧ e.kind = .reservedInstruction) ∨
          (∃ i, decode w = .instr i ∧ mayRaise s i e.kind)))

/-- Every step answers a next state: no instruction is refused, no step faults the model (40_cycle.md R130,
30_encoding.md R107, 45_system.md R316). So every encoding has a meaning in every state. -/
def Obligations.StepAnswersNext : Prop :=
  ∀ s : State, ∃ t, step s = .next t

/-- The routing table is immutable (R40). The parameters stand in the state (log 16); this says that they are constants
of a run. -/
def Obligations.ConfigurationNeverChanges : Prop :=
  ∀ s t : State,
    (step s = .next t → t.params = s.params) ∧ (∀ image entry, load image entry s = .next t → t.params = s.params) ∧
      (hostStop s).params = s.params ∧ (∀ writes replies, (tick writes replies s).params = s.params)

/-- Every step keeps the invariant of a constructed block (10_state.md R34, 10_state.md R39, 20_memory.md R61,
40_cycle.md R133, 44_branch_jump.md R292). All instructions, all routes, all exceptions. -/
def Obligations.InvariantKeptByStep : Prop :=
  ∀ s t : State, Inv s → step s = .next t → Inv t

/-- The invariant holds at reset (70_reset_and_hazards.md R360, 10_state.md R46). The values that are the model's own
are those of log 1 to 9; the invariant does not rest on which they are. -/
def Obligations.InvariantAtReset : Prop :=
  Inv State.reset ∧ construct resetParams ⟨Vector.replicate 31 0, 0, 0, []⟩ = .next State.reset

/-- Construction establishes the invariant; load, tick and stop keep it (70_reset_and_hazards.md R360,
70_reset_and_hazards.md R362, 60_exceptions.md R344, 60_exceptions.md R349). load is performed before the first
step, so run is Running there. -/
def Obligations.HostActionsKeepInvariant : Prop :=
  (∀ (p : Params) (d : Draws) (s : State), construct p d = .next s → Inv s) ∧
    (∀ (s t : State) (image : List Byte) (entry : Word64), Inv s → s.run = .running →
      load image entry s = .next t → Inv t) ∧
    (∀ (s : State) (writes : List Host.Cell) (replies : List Word64), Inv s → Inv (tick writes replies s)) ∧
    (∀ s : State, Inv s → Inv (hostStop s))

/-- The pc is word-aligned at every step boundary (R34, R292). The targets are those the instructions request
(requestOf). -/
def Obligations.PcAlwaysAligned : Prop :=
  (∀ p d s, construct p d = .next s → s.pc.toNat % 4 = 0) ∧
    (∀ (image : List Byte) (entry : Word64) (s : State), entry.toNat % 4 ≠ 0 →
        load image entry s = .fault .loadFailure) ∧
    (∀ (image : List Byte) (entry : Word64) (s t : State), load image entry s = .next t → t.pc.toNat % 4 = 0) ∧
    (∀ s t : State, Inv s → step s = .next t → t.pc.toNat % 4 = 0) ∧
    (∀ s t : State, s.run = .running → s.pend = none → step s = .next t → t.run = .running →
      t.pc = s.pc + 4 ∨ t.pc = s.pc + 8) ∧
    (∀ (s : State) (i : Instr) (target : Word64), Aligned4 s.pc → requestOf s i = .branch target →
      target.toNat % 4 = 0 ∨
        ∃ rs, ((∃ rd, i = .jalr rd rs) ∨ i = .jr rs) ∧
          exec i s = .next { s with run := faultedIn s (.addressError .unaligned .fetch) (s.reg rs) (some (encode i)) })

/-- LL and LLD set LLbit, SC and SCD alone read it, and no instruction clears it (R37). The flag has no address: it is
one Bool of the state. -/
def Obligations.LinkBit : Prop :=
  (∀ (s t : State) (i : Instr), exec i s = .next t →
      (t.llbit = s.llbit ∨ (setsLink i = true ∧ t.llbit = true)) ∧
        (setsLink i = true → s.run = .running → t.run = .running → t.llbit = true)) ∧
    (∀ s t : State, s.llbit = true → step s = .next t → t.llbit = true) ∧
    (∀ p d s, construct p d = .next s → s.llbit = false) ∧
    (∀ (s t : State) (i : Instr) (b : Bool), readsLink i = false → exec i s = .next t →
      ∃ t', exec i { s with llbit := b } = .next t' ∧ { t' with llbit := t.llbit } = t)

/-- HI and LO are written only by the multiply-divide group and MTHI or MTLO, and read only by MFHI or MFLO
(10_state.md R35). MTLO is outside the list for HI, and MTHI outside the list for LO. -/
def Obligations.HiLoWrittenAndRead : Prop :=
  ∀ (s t : State) (i : Instr) (x : Word64), exec i s = .next t →
    (writesHi i = false → t.hi = s.hi) ∧ (writesLo i = false → t.lo = s.lo) ∧
    ((∀ rd, i ≠ .mfhi rd) →
      ∃ t', exec i { s with hi := x } = .next t' ∧ { t' with hi := t.hi } = t ∧ (writesHi i = true → t' = t)) ∧
    ((∀ rd, i ≠ .mflo rd) →
      ∃ t', exec i { s with lo := x } = .next t' ∧ { t' with lo := t.lo } = t ∧ (writesLo i = true → t' = t))

/-- No register but the instruction's destination is written (10_state.md R31, 30_encoding.md R105, 43_loadstore.md
R232, 44_branch_jump.md R293). An instruction without a destination writes no register at all. -/
def Obligations.OnlyTheDestinationIsWritten : Prop :=
  ∀ (s t : State) (i : Instr) (r : Reg), exec i s = .next t → destination i ≠ some r → t.reg r = s.reg r

/-- Register 0 reads as 0 and discards writes; the other registers hold what is written (R30). setReg and reg are the
only operations on the registers. -/
def Obligations.GeneralRegisters : Prop :=
  ∀ (s : State) (i j : Reg) (v : Word64),
    s.reg 0 = 0 ∧ s.setReg 0 v = s ∧ (i ≠ 0 → (s.setReg i v).reg i = v) ∧
      (j ≠ i → (s.setReg i v).reg j = s.reg j) ∧ s.setReg i v = { s with gpr := (s.setReg i v).gpr }

/-- Every instruction makes at most the device callbacks of its class, and changes no byte of memory but those it
stores to (20_memory.md R67, 20_memory.md R76, 20_memory.md R79, 20_memory.md R82, 43_loadstore.md R248). busUse is
the table of R76, storedAt the addresses of the stores. -/
def Obligations.BusUseOfInstructions : Prop :=
  ∀ (s t : State) (i : Instr), exec i s = .next t →
    (∃ evs, t.devLog = s.devLog ++ evs ∧ AllowedBus s t evs (busUse i)) ∧
      ∀ x, x ∉ storedAt s i → t.byteAt x = s.byteAt x

/-- An address lies in exactly one range or is unmapped (R63). Uniqueness is by place in the table: equal entries at
two places would overlap. -/
def Obligations.RegionIsUnique : Prop :=
  ∀ (p : Params) (a : BusAddr), p.wf →
    (∀ r, region p a = some r ↔ r ∈ p.ranges ∧ InRange r a) ∧
      (region p a = none ↔ ∀ r ∈ p.ranges, ¬ InRange r a) ∧
      p.ranges.Pairwise (fun r q => ¬ (InRange r a ∧ InRange q a))

/-- Classify: the alignment test, the span test, then the route (R64). Classify is a function of the table, the address
and the width alone: it reads no state and calls no device. -/
def Obligations.Classification : Prop :=
  ∀ (p : Params) (a : BusAddr) (n : Width), p.wf →
    (classify p a n = .error .unaligned ↔ 1 < n.bytes ∧ a.toNat % n.bytes ≠ 0 ∧ NeedsAlignment p a) ∧
    (classify p a n = .error .span ↔
      ¬ (1 < n.bytes ∧ a.toNat % n.bytes ≠ 0 ∧ NeedsAlignment p a) ∧
        ∃ i < n.bytes, region p (a + BitVec.ofNat 32 i) ≠ region p a) ∧
    (∀ route, classify p a n = .ok route ↔
      ¬ (1 < n.bytes ∧ a.toNat % n.bytes ≠ 0 ∧ NeedsAlignment p a) ∧
        (∀ i < n.bytes, region p (a + BitVec.ofNat 32 i) = region p a) ∧
        match region p a with
        | none => route = .unmapped
        | some r =>
          match r.kind with
          | .ram => route = .ramAt r (a.toNat - r.base.toNat)
          | .device d _ => route = .devAt d)

/-- Aligned accesses never span; byte and open-space accesses never fail; misaligned RAM accesses always do (R65). The
rule's four consequences. -/
def Obligations.ClassificationConsequences : Prop :=
  ∀ (p : Params) (a : BusAddr) (n : Width), p.wf →
    (a.toNat % n.bytes = 0 → ∃ route, classify p a n = .ok route) ∧
    (∃ route, classify p a .byte = .ok route) ∧
    ((∀ i < n.bytes, region p (a + BitVec.ofNat 32 i) = none) → classify p a n = .ok .unmapped) ∧
    (1 < n.bytes → a.toNat % n.bytes ≠ 0 → inRam p a = true → classify p a n = .error .unaligned)

/-- MemRead: the error, the RAM bytes in big-endian order, one device read, or FILL bytes (R66). In an admissible table
the RAM bytes are those at a, a+1, ..., with no wrap. -/
def Obligations.MemReadReturns : Prop :=
  ∀ (s : State) (a : BusAddr) (n : Width),
    (∀ sub, classify s.params a n = .error sub → memRead s a n = .error sub) ∧
    (∀ route, classify s.params a n = .ok route →
      ∃ v u, memRead s a n = .ok (v, u) ∧ ReadReturns s a n v route ∧ ReadEvents s u a n v route ∧
        v.toNat < 2 ^ (8 * n.bytes) ∧ u = { s with devLog := u.devLog, devReplies := u.devReplies }) ∧
    (∀ k off, s.params.wf → classify s.params a n = .ok (.ramAt k off) →
      k.kind = .ram ∧ k ∈ s.params.ranges ∧ off + n.bytes ≤ k.size ∧
        ∀ i < n.bytes, (a + BitVec.ofNat 32 i).toNat = k.base.toNat + off + i)

/-- MemWrite: the error, the RAM bytes in big-endian order, one device write, or nothing (R67, R68). The stored bytes
are at a, a+1, ...: the bytes of RamAt(k, off) (see MemReadReturns). -/
def Obligations.MemWriteStores : Prop :=
  ∀ (s : State) (a : BusAddr) (n : Width) (v : Word64),
    (∀ sub, classify s.params a n = .error sub → memWrite s a n v = .error sub) ∧
    (∀ route, classify s.params a n = .ok route →
      ∃ t, memWrite s a n v = .ok t ∧ WrittenBytes s t a n v route ∧ WriteEvents s t a n v route ∧
        t = { s with mem := t.mem, devLog := t.devLog } ∧
        (route = .unmapped → t = s ∧
          ∃ x, memRead t a n = .ok (x, t) ∧ x.toNat = bigEndian (fun _ => s.params.fill) n.bytes))

/-- A RAM read returns what was last written to those bytes, and other bytes keep their value (20_memory.md R66,
20_memory.md R67, 20_memory.md R82). Any widths, any admissible table or not. -/
def Obligations.ReadAfterWrite : Prop :=
  ∀ (s t : State) (a b : BusAddr) (n m : Width) (v : Word64) (k k' : BusRange) (off off' : Nat),
    classify s.params a n = .ok (.ramAt k off) → memWrite s a n v = .ok t →
      memRead t a n = .ok (v &&& BitVec.ofNat 64 (2 ^ (8 * n.bytes) - 1), t) ∧
        (classify s.params b m = .ok (.ramAt k' off') →
          (∀ i < n.bytes, ∀ j < m.bytes, a + BitVec.ofNat 32 i ≠ b + BitVec.ofNat 32 j) →
          ∃ x, memRead s b m = .ok (x, s) ∧ memRead t b m = .ok (x, t))

/-- Fetch and every access width see one big-endian order (R75). The instruction word at pc is MemRead(pc[31:0], 4):
FetchReadsTheBus. -/
def Obligations.BigEndianMixedWidths : Prop :=
  (∀ (s t : State) (a : BusAddr) (v : Word32), s.params.wf → a.toNat % 4 = 0 → inRam s.params a = true →
      memWrite s a .word (v.setWidth 64) = .ok t →
        (∀ i < 4, memRead t (a + BitVec.ofNat 32 i) .byte = .ok ((v.extractLsb' (8 * (3 - i)) 8).setWidth 64, t)) ∧
        memRead t (a + 2) .half = .ok ((v.setWidth 16).setWidth 64, t) ∧
        (t.pc.setWidth 32 = a → fetchWord t = .ok (v, t)) ∧
        (v = 0x11223344#32 →
          memRead t a .byte = .ok (0x11, t) ∧ memRead t (a + 1) .byte = .ok (0x22, t) ∧
            memRead t (a + 2) .byte = .ok (0x33, t) ∧ memRead t (a + 3) .byte = .ok (0x44, t) ∧
            memRead t (a + 2) .half = .ok (0x3344, t))) ∧
    (∀ (s t : State) (a : BusAddr) (n m : Width) (i : Nat) (v : Word64), s.params.wf → a.toNat % n.bytes = 0 →
      inRam s.params a = true → memWrite s a n v = .ok t → m.bytes * (i + 1) ≤ n.bytes →
        memRead t (a + BitVec.ofNat 32 (m.bytes * i)) m =
          .ok ((v >>> (8 * (n.bytes - m.bytes * (i + 1)))) &&& BitVec.ofNat 64 (2 ^ (8 * m.bytes) - 1), t)) ∧
    (∀ (s t u : State) (a : BusAddr) (n m : Width) (v w : Word64), s.params.wf → a.toNat % m.bytes = 0 →
      inRam s.params a = true → m.bytes = 2 * n.bytes → memWrite s a n v = .ok t →
      memWrite t (a + BitVec.ofNat 32 n.bytes) n w = .ok u →
        memRead u a m = .ok (((v &&& BitVec.ofNat 64 (2 ^ (8 * n.bytes) - 1)) <<< (8 * n.bytes)) |||
          (w &&& BitVec.ofNat 64 (2 ^ (8 * n.bytes) - 1)), u)) ∧
    (∀ b0 b1 b2 b3 : Byte, opOf (wordOfBytes b0 b1 b2 b3) = b0.extractLsb' 2 6)

/-- A store to RAM is seen by the very next fetch, in a delay slot too (R85). The second clause is why a later fetch
sees every store: no fetched word is kept. -/
def Obligations.StoreIsSeenByNextFetch : Prop :=
  (∀ (s t : State) (rt base : Reg) (offset : BitVec 16), s.params.wf →
      (effectiveAddress s base offset).toNat % 4 = 0 →
      inRam s.params ((effectiveAddress s base offset).setWidth 32) = true →
      exec (.sw rt offset base) s = .next t →
      t.pc.setWidth 32 = (effectiveAddress s base offset).setWidth 32 →
        fetchWord t = .ok ((s.reg rt).setWidth 32, t)) ∧
    (∀ (s : State), s.params.wf → s.pc.toNat % 4 = 0 → inRam s.params (s.pc.setWidth 32) = true →
      ∃ w, fetchWord s = .ok (w, s) ∧
        w.toNat = bigEndian (fun i => s.byteAt (s.pc.setWidth 32 + BitVec.ofNat 32 i)) 4)

/-- ADDU, SUBU, DADDU, DSUBU, ADDIU, DADDIU: the wrapped sum or difference, no exception, nothing else changed (R152,
R154, R156, R158, R160, R162). Computes holds the encoding, the completion, the value and the frame. -/
def Obligations.WrappingAddSubtract : Prop :=
  ∀ (s : State) (rd rs rt : Reg) (imm : BitVec 16),
    Computes (.addu rd rs rt) (rWord rs rt rd 0 0x21) s rd (((s.reg rs).setWidth 32 +
        (s.reg rt).setWidth 32).signExtend 64) ∧
    Computes (.subu rd rs rt) (rWord rs rt rd 0 0x23) s rd (((s.reg rs).setWidth 32 -
        (s.reg rt).setWidth 32).signExtend 64) ∧
    Computes (.daddu rd rs rt) (rWord rs rt rd 0 0x2D) s rd (s.reg rs + s.reg rt) ∧
    Computes (.dsubu rd rs rt) (rWord rs rt rd 0 0x2F) s rd (s.reg rs - s.reg rt) ∧
    Computes (.addiu rt rs imm) (iWord 0x09 rs rt imm) s rt (((s.reg rs).setWidth 32 + imm.signExtend
        32).signExtend 64) ∧
    Computes (.daddiu rt rs imm) (iWord 0x19 rs rt imm) s rt (s.reg rs + imm.signExtend 64)

/-- ADD, SUB, DADD, DSUB, ADDI, DADDI: the exact result where it fits, else ArithmeticOverflow and nothing written
(R151, R153, R155, R157, R159, R161). The bounds are -2^(n-1) and 2^(n-1) - 1, the exact integers. -/
def Obligations.TrappingAddSubtract : Prop :=
  ∀ (s : State) (rd rs rt : Reg) (imm : BitVec 16),
    ComputesInRange 32 (.add rd rs rt) (rWord rs rt rd 0 0x20) s rd
      (((s.reg rs).setWidth 32).toInt + ((s.reg rt).setWidth 32).toInt)
      ((BitVec.ofInt 32 (((s.reg rs).setWidth 32).toInt + ((s.reg rt).setWidth 32).toInt)).signExtend 64) ∧
    ComputesInRange 32 (.sub rd rs rt) (rWord rs rt rd 0 0x22) s rd
      (((s.reg rs).setWidth 32).toInt - ((s.reg rt).setWidth 32).toInt)
      ((BitVec.ofInt 32 (((s.reg rs).setWidth 32).toInt - ((s.reg rt).setWidth 32).toInt)).signExtend 64) ∧
    ComputesInRange 64 (.dadd rd rs rt) (rWord rs rt rd 0 0x2C) s rd
      ((s.reg rs).toInt + (s.reg rt).toInt)
      (BitVec.ofInt 64 ((s.reg rs).toInt + (s.reg rt).toInt)) ∧
    ComputesInRange 64 (.dsub rd rs rt) (rWord rs rt rd 0 0x2E) s rd
      ((s.reg rs).toInt - (s.reg rt).toInt)
      (BitVec.ofInt 64 ((s.reg rs).toInt - (s.reg rt).toInt)) ∧
    ComputesInRange 32 (.addi rt rs imm) (iWord 0x08 rs rt imm) s rt
      (((s.reg rs).setWidth 32).toInt + imm.toInt)
      ((BitVec.ofInt 32 (((s.reg rs).setWidth 32).toInt + imm.toInt)).signExtend 64) ∧
    ComputesInRange 64 (.daddi rt rs imm) (iWord 0x18 rs rt imm) s rt
      ((s.reg rs).toInt + imm.toInt)
      (BitVec.ofInt 64 ((s.reg rs).toInt + imm.toInt))

/-- SLT, SLTU, SLTI, SLTIU: 1 or 0 from a full 64-bit comparison (R163, R164, R165, R166). SLTIU sign-extends its
immediate and then compares as unsigned. -/
def Obligations.SetOnLessThan : Prop :=
  ∀ (s : State) (rd rs rt : Reg) (imm : BitVec 16),
    Computes (.slt rd rs rt) (rWord rs rt rd 0 0x2A) s rd (if (s.reg rs).toInt < (s.reg rt).toInt then 1 else 0) ∧
    Computes (.sltu rd rs rt) (rWord rs rt rd 0 0x2B) s rd (if (s.reg rs).toNat < (s.reg rt).toNat then 1 else 0) ∧
    Computes (.slti rt rs imm) (iWord 0x0A rs rt imm) s rt (if (s.reg rs).toInt < imm.toInt then 1 else 0) ∧
    Computes (.sltiu rt rs imm) (iWord 0x0B rs rt imm) s rt (if (s.reg rs).toNat <
        (imm.signExtend 64).toNat then 1 else 0)

/-- AND, OR, XOR, NOR, ANDI, ORI, XORI, LUI: 64-bit logic, zero-extended immediates, the sign-extended upper immediate
(R167, R168, R169, R170, R171, R172, R173, R174). LUI places the immediate above sixteen zeros and sign-extends
from bit 31. -/
def Obligations.LogicalAndLui : Prop :=
  ∀ (s : State) (rd rs rt : Reg) (imm : BitVec 16),
    Computes (.and rd rs rt) (rWord rs rt rd 0 0x24) s rd (s.reg rs &&& s.reg rt) ∧
    Computes (.or rd rs rt) (rWord rs rt rd 0 0x25) s rd (s.reg rs ||| s.reg rt) ∧
    Computes (.xor rd rs rt) (rWord rs rt rd 0 0x26) s rd (s.reg rs ^^^ s.reg rt) ∧
    Computes (.nor rd rs rt) (rWord rs rt rd 0 0x27) s rd (~~~(s.reg rs ||| s.reg rt)) ∧
    Computes (.andi rt rs imm) (iWord 0x0C rs rt imm) s rt (s.reg rs &&& imm.setWidth 64) ∧
    Computes (.ori rt rs imm) (iWord 0x0D rs rt imm) s rt (s.reg rs ||| imm.setWidth 64) ∧
    Computes (.xori rt rs imm) (iWord 0x0E rs rt imm) s rt (s.reg rs ^^^ imm.setWidth 64) ∧
    Computes (.lui rt imm) (iWord 0x0F 0 rt imm) s rt ((imm ++ 0#16).signExtend 64)

/-- SLL, SRL, SRA, SLLV, SRLV, SRAV: the low word shifted and sign-extended (R175, R176, R177, R178, R179, R180). The
logical right shift brings zeros into bit 31 of the low word, and the result is still sign-extended. -/
def Obligations.WordShifts : Prop :=
  ∀ (s : State) (rd rs rt : Reg) (sa : BitVec 5),
    Computes (.sll rd rt sa) (rWord 0 rt rd sa 0x00) s rd ((((s.reg rt).setWidth 32) <<< sa.toNat).signExtend 64) ∧
    Computes (.srl rd rt sa) (rWord 0 rt rd sa 0x02) s rd ((((s.reg rt).setWidth 32) >>> sa.toNat).signExtend 64) ∧
    Computes (.sra rd rt sa) (rWord 0 rt rd sa 0x03) s rd ((((s.reg rt).setWidth 32).sshiftRight
        sa.toNat).signExtend 64) ∧
    Computes (.sllv rd rt rs) (rWord rs rt rd 0 0x04) s rd ((((s.reg rt).setWidth 32)
        <<< ((s.reg rs).toNat % 32)).signExtend 64) ∧
    Computes (.srlv rd rt rs) (rWord rs rt rd 0 0x06) s rd ((((s.reg rt).setWidth 32)
        >>> ((s.reg rs).toNat % 32)).signExtend 64) ∧
    Computes (.srav rd rt rs) (rWord rs rt rd 0 0x07) s rd ((((s.reg rt).setWidth 32).sshiftRight
        ((s.reg rs).toNat % 32)).signExtend 64)

/-- The nine doubleword shifts: by sa, by sa + 32, or by x[rs][5:0] (R181, R182, R183, R184, R185, R186, R187, R188,
R189). DSLL, DSRL, DSRA, the -32 forms and the variable forms. -/
def Obligations.DoublewordShifts : Prop :=
  ∀ (s : State) (rd rs rt : Reg) (sa : BitVec 5),
    Computes (.dsll rd rt sa) (rWord 0 rt rd sa 0x38) s rd (s.reg rt <<< sa.toNat) ∧
    Computes (.dsrl rd rt sa) (rWord 0 rt rd sa 0x3A) s rd (s.reg rt >>> sa.toNat) ∧
    Computes (.dsra rd rt sa) (rWord 0 rt rd sa 0x3B) s rd ((s.reg rt).sshiftRight sa.toNat) ∧
    Computes (.dsll32 rd rt sa) (rWord 0 rt rd sa 0x3C) s rd (s.reg rt <<< (sa.toNat + 32)) ∧
    Computes (.dsrl32 rd rt sa) (rWord 0 rt rd sa 0x3E) s rd (s.reg rt >>> (sa.toNat + 32)) ∧
    Computes (.dsra32 rd rt sa) (rWord 0 rt rd sa 0x3F) s rd ((s.reg rt).sshiftRight (sa.toNat + 32)) ∧
    Computes (.dsllv rd rt rs) (rWord rs rt rd 0 0x14) s rd (s.reg rt <<< ((s.reg rs).toNat % 64)) ∧
    Computes (.dsrlv rd rt rs) (rWord rs rt rd 0 0x16) s rd (s.reg rt >>> ((s.reg rs).toNat % 64)) ∧
    Computes (.dsrav rd rt rs) (rWord rs rt rd 0 0x17) s rd ((s.reg rt).sshiftRight ((s.reg rs).toNat % 64))

/-- Word operations ignore bits 63:32 of their sources (R191). ADD, ADDU, SUB, SUBU, ADDI, ADDIU, SLL, SRL, SRA, SLLV,
SRLV, SRAV. -/
def Obligations.WordOperationsReadLowHalves : Prop :=
  ∀ (s s' : State) (rd rs rt : Reg) (imm : BitVec 16) (sa : BitVec 5),
    s.run = .running → s' = { s with gpr := s'.gpr } →
    (∀ r, (s'.reg r).setWidth 32 = (s.reg r).setWidth 32) →
      ∀ i ∈ [Instr.add rd rs rt, .addu rd rs rt, .sub rd rs rt, .subu rd rs rt, .addi rd rs imm, .addiu rd rs imm,
          .sll rd rt sa, .srl rd rt sa, .sra rd rt sa, .sllv rd rt rs, .srlv rd rt rs, .srav rd rt rs],
        ∃ t t', exec i s = .next t ∧ exec i s' = .next t' ∧ t'.run = t.run ∧
          (t.run = .running → t'.reg rd = t.reg rd)

/-- MULT, MULTU, DMULT, DMULTU: the exact product in HI and LO (R211, R212, R213, R214). The word product is exact in
64 bits, the doubleword product in 128. -/
def Obligations.Multiply : Prop :=
  ∀ (s : State) (rs rt : Reg),
    ComputesHiLo (.mult rs rt) (rWord rs rt 0 0 0x18) s
      (((BitVec.ofInt 64 (((s.reg rs).setWidth 32).toInt * ((s.reg rt).setWidth 32).toInt)).extractLsb' 32
          32).signExtend 64)
      (((BitVec.ofInt 64 (((s.reg rs).setWidth 32).toInt * ((s.reg rt).setWidth 32).toInt)).setWidth 32).signExtend
          64) ∧
    ComputesHiLo (.multu rs rt) (rWord rs rt 0 0 0x19) s
      (((BitVec.ofNat 64 (((s.reg rs).setWidth 32).toNat * ((s.reg rt).setWidth 32).toNat)).extractLsb' 32
          32).signExtend 64)
      (((BitVec.ofNat 64 (((s.reg rs).setWidth 32).toNat * ((s.reg rt).setWidth 32).toNat)).setWidth 32).signExtend
          64) ∧
    ComputesHiLo (.dmult rs rt) (rWord rs rt 0 0 0x1C) s
      ((BitVec.ofInt 128 ((s.reg rs).toInt * (s.reg rt).toInt)).extractLsb' 64 64)
      ((BitVec.ofInt 128 ((s.reg rs).toInt * (s.reg rt).toInt)).setWidth 64) ∧
    ComputesHiLo (.dmultu rs rt) (rWord rs rt 0 0 0x1D) s
      ((BitVec.ofNat 128 ((s.reg rs).toNat * (s.reg rt).toNat)).extractLsb' 64 64)
      ((BitVec.ofNat 128 ((s.reg rs).toNat * (s.reg rt).toNat)).setWidth 64)

/-- DIV, DIVU, DDIV, DDIVU: truncated quotient in LO, remainder in HI; division by zero takes DIV0 (42_muldiv.md R216,
42_muldiv.md R217, 42_muldiv.md R218, 42_muldiv.md R219, 42_muldiv.md R220). Three points are the model's choice:
the two values of the DIV0 parameter (log 4), that the dividend DIV0 gets for DIV and DIVU is W(x[rs][31:0]) (log
27), and that these write W of the low words of what it gives (log 28), as R210 has the word forms read and write
words. Config.divByZero has no body, so nothing is claimed of its value. -/
def Obligations.Divide : Prop :=
  ∀ (s : State) (rs rt : Reg),
    (IsEncoding (.div rs rt) (rWord rs rt 0 0 0x1A) ∧ ∃ t, exec (.div rs rt) s = .next t ∧
      (if ((s.reg rt).setWidth 32) = 0 then
        match s.params.div0 with
        | .standard => WritesHiLo s t (((s.reg rs).setWidth 32).signExtend 64)
            (if ((s.reg rs).setWidth 32).toInt < 0 then 1 else 0xFFFFFFFFFFFFFFFF#64)
        | .free => WritesHiLo s t
            (((Config.divByZero .div (((s.reg rs).setWidth 32).signExtend 64)).2.setWidth 32).signExtend 64)
            (((Config.divByZero .div (((s.reg rs).setWidth 32).signExtend 64)).1.setWidth 32).signExtend 64)
      else WritesHiLo s t
        ((BitVec.ofInt 32 (((s.reg rs).setWidth 32).toInt - ((s.reg rt).setWidth 32).toInt *
            ((s.reg rs).setWidth 32).toInt.tdiv ((s.reg rt).setWidth 32).toInt)).signExtend 64)
        ((BitVec.ofInt 32 (((s.reg rs).setWidth 32).toInt.tdiv ((s.reg rt).setWidth 32).toInt)).signExtend 64))) ∧
    (IsEncoding (.divu rs rt) (rWord rs rt 0 0 0x1B) ∧ ∃ t, exec (.divu rs rt) s = .next t ∧
      (if ((s.reg rt).setWidth 32) = 0 then
        match s.params.div0 with
        | .standard => WritesHiLo s t (((s.reg rs).setWidth 32).signExtend 64) (0xFFFFFFFFFFFFFFFF#64)
        | .free => WritesHiLo s t
            (((Config.divByZero .divu (((s.reg rs).setWidth 32).signExtend 64)).2.setWidth 32).signExtend 64)
            (((Config.divByZero .divu (((s.reg rs).setWidth 32).signExtend 64)).1.setWidth 32).signExtend 64)
      else WritesHiLo s t
        ((BitVec.ofNat 32 (((s.reg rs).setWidth 32).toNat % ((s.reg rt).setWidth 32).toNat)).signExtend 64)
        ((BitVec.ofNat 32 (((s.reg rs).setWidth 32).toNat / ((s.reg rt).setWidth 32).toNat)).signExtend 64))) ∧
    (IsEncoding (.ddiv rs rt) (rWord rs rt 0 0 0x1E) ∧ ∃ t, exec (.ddiv rs rt) s = .next t ∧
      (if s.reg rt = 0 then
        match s.params.div0 with
        | .standard => WritesHiLo s t (s.reg rs) (if (s.reg rs).toInt < 0 then 1 else 0xFFFFFFFFFFFFFFFF#64)
        | .free => WritesHiLo s t (Config.divByZero .ddiv (s.reg rs)).2 (Config.divByZero .ddiv (s.reg rs)).1
      else WritesHiLo s t
        (BitVec.ofInt 64 ((s.reg rs).toInt - (s.reg rt).toInt * (s.reg rs).toInt.tdiv (s.reg rt).toInt))
        (BitVec.ofInt 64 ((s.reg rs).toInt.tdiv (s.reg rt).toInt)))) ∧
    (IsEncoding (.ddivu rs rt) (rWord rs rt 0 0 0x1F) ∧ ∃ t, exec (.ddivu rs rt) s = .next t ∧
      (if s.reg rt = 0 then
        match s.params.div0 with
        | .standard => WritesHiLo s t (s.reg rs) (0xFFFFFFFFFFFFFFFF#64)
        | .free => WritesHiLo s t (Config.divByZero .ddivu (s.reg rs)).2 (Config.divByZero .ddivu (s.reg rs)).1
      else WritesHiLo s t
        (BitVec.ofNat 64 ((s.reg rs).toNat % (s.reg rt).toNat))
        (BitVec.ofNat 64 ((s.reg rs).toNat / (s.reg rt).toNat))))

/-- For a nonzero divisor: dividend = quotient times divisor + remainder, the remainder smaller and of the dividend's
sign (R215). The quotient truncates toward zero: that is the sign condition on the remainder. -/
def Obligations.DivisionLaw : Prop :=
  ∀ (s t : State) (rs rt : Reg),
    (∀ a b : Int, a = ((s.reg rs).setWidth 32).toInt → b = ((s.reg rt).setWidth 32).toInt → b ≠ 0 →
      exec (.div rs rt) s = .next t → t.run = s.run ∧
        (¬ (a = -2 ^ 31 ∧ b = -1) →
          a = b * t.lo.toInt + t.hi.toInt ∧ t.hi.toInt.natAbs < b.natAbs ∧ (t.hi.toInt ≠ 0 →
              (0 < t.hi.toInt ↔ 0 < a))) ∧
        (a = -2 ^ 31 ∧ b = -1 → t.lo.toInt = -2 ^ 31 ∧ t.hi.toInt = 0)) ∧
    (∀ a b : Int, a = (s.reg rs).toInt → b = (s.reg rt).toInt → b ≠ 0 →
      exec (.ddiv rs rt) s = .next t → t.run = s.run ∧
        (¬ (a = -2 ^ 63 ∧ b = -1) →
          a = b * t.lo.toInt + t.hi.toInt ∧ t.hi.toInt.natAbs < b.natAbs ∧ (t.hi.toInt ≠ 0 →
              (0 < t.hi.toInt ↔ 0 < a))) ∧
        (a = -2 ^ 63 ∧ b = -1 → t.lo.toInt = -2 ^ 63 ∧ t.hi.toInt = 0)) ∧
    (∀ a b : Nat, a = ((s.reg rs).setWidth 32).toNat → b = ((s.reg rt).setWidth 32).toNat → b ≠ 0 →
      exec (.divu rs rt) s = .next t → t.run = s.run ∧
        a = b * (t.lo.setWidth 32).toNat + (t.hi.setWidth 32).toNat ∧ (t.hi.setWidth 32).toNat < b) ∧
    (∀ a b : Nat, a = (s.reg rs).toNat → b = (s.reg rt).toNat → b ≠ 0 →
      exec (.ddivu rs rt) s = .next t → t.run = s.run ∧ a = b * t.lo.toNat + t.hi.toNat ∧ t.hi.toNat < b)

/-- MFHI, MTHI, MFLO, MTLO move a doubleword and change nothing else (R221, R222, R223, R224). The only ways to read HI
and LO. -/
def Obligations.HiLoMoves : Prop :=
  ∀ (s : State) (rd rs : Reg),
    Computes (.mfhi rd) (rWord 0 0 rd 0 0x10) s rd (s.hi) ∧
    Computes (.mflo rd) (rWord 0 0 rd 0 0x12) s rd (s.lo) ∧
    ComputesHiLo (.mthi rs) (rWord rs 0 0 0 0x11) s (s.reg rs) s.lo ∧
    ComputesHiLo (.mtlo rs) (rWord rs 0 0 0 0x13) s s.hi (s.reg rs)

/-- LB, LBU, LH, LHU, LW, LWU, LD, LL, LLD: one bus read, extended into rt; address errors with the effective address
(R233, R234, R235, R236, R237, R238, R239, R253, R254). Loads holds the encoding, the completion by each route, the
error and the frame. -/
def Obligations.AlignedLoads : Prop :=
  ∀ (s : State) (rt base : Reg) (offset : BitVec 16),
    Loads (.lb rt offset base) (iWord 0x20 base rt offset) s (effectiveAddress s base offset)
      ((effectiveAddress s base offset).setWidth 32) .byte rt (fun v => (v.setWidth 8).signExtend 64) s.llbit ∧
    Loads (.lbu rt offset base) (iWord 0x24 base rt offset) s (effectiveAddress s base offset)
      ((effectiveAddress s base offset).setWidth 32) .byte rt (fun v => v) s.llbit ∧
    Loads (.lh rt offset base) (iWord 0x21 base rt offset) s (effectiveAddress s base offset)
      ((effectiveAddress s base offset).setWidth 32) .half rt (fun v => (v.setWidth 16).signExtend 64) s.llbit ∧
    Loads (.lhu rt offset base) (iWord 0x25 base rt offset) s (effectiveAddress s base offset)
      ((effectiveAddress s base offset).setWidth 32) .half rt (fun v => v) s.llbit ∧
    Loads (.lw rt offset base) (iWord 0x23 base rt offset) s (effectiveAddress s base offset)
      ((effectiveAddress s base offset).setWidth 32) .word rt (fun v => (v.setWidth 32).signExtend 64) s.llbit ∧
    Loads (.lwu rt offset base) (iWord 0x27 base rt offset) s (effectiveAddress s base offset)
      ((effectiveAddress s base offset).setWidth 32) .word rt (fun v => v) s.llbit ∧
    Loads (.ld rt offset base) (iWord 0x37 base rt offset) s (effectiveAddress s base offset)
      ((effectiveAddress s base offset).setWidth 32) .dword rt (fun v => v) s.llbit ∧
    Loads (.ll rt offset base) (iWord 0x30 base rt offset) s (effectiveAddress s base offset)
      ((effectiveAddress s base offset).setWidth 32) .word rt (fun v => (v.setWidth 32).signExtend 64) true ∧
    Loads (.lld rt offset base) (iWord 0x34 base rt offset) s (effectiveAddress s base offset)
      ((effectiveAddress s base offset).setWidth 32) .dword rt (fun v => v) true ∧
    (∃ route, classify s.params ((effectiveAddress s base offset).setWidth 32) .byte = .ok route)

/-- LWL, LWR, LDL, LDR: one read of the aligned unit that holds EA, merged into rt; no exception in a constructed block
(R240, R241, R242, R243). The merges are written with the shifts and masks of the rules. -/
def Obligations.UnalignedPartLoads : Prop :=
  ∀ (s : State) (rt base : Reg) (offset : BitVec 16),
    Loads (.lwl rt offset base) (iWord 0x22 base rt offset) s (effectiveAddress s base offset)
      ((effectiveAddress s base offset).setWidth 32 - BitVec.ofNat 32 ((effectiveAddress s base offset).toNat % 4))
          .word rt
      (fun m => ((m.setWidth 32 <<< (8 * ((effectiveAddress s base offset).toNat % 4))) |||
        ((s.reg rt).setWidth 32 &&& BitVec.ofNat 32 (2 ^ (8 * ((effectiveAddress s base offset).toNat % 4))
            - 1))).signExtend 64) s.llbit ∧
    Loads (.lwr rt offset base) (iWord 0x26 base rt offset) s (effectiveAddress s base offset)
      ((effectiveAddress s base offset).setWidth 32 - BitVec.ofNat 32 ((effectiveAddress s base offset).toNat % 4))
          .word rt
      (fun m => ((m.setWidth 32 >>> (8 * (3 - ((effectiveAddress s base offset).toNat % 4)))) |||
        ((s.reg rt).setWidth 32 &&& ~~~(0xFFFFFFFF#32 >>> (8 * (3 - ((effectiveAddress s base offset).toNat %
            4)))))).signExtend 64) s.llbit ∧
    Loads (.ldl rt offset base) (iWord 0x1A base rt offset) s (effectiveAddress s base offset)
      ((effectiveAddress s base offset).setWidth 32 - BitVec.ofNat 32 ((effectiveAddress s base offset).toNat % 8))
          .dword rt
      (fun m => (m <<< (8 * ((effectiveAddress s base offset).toNat % 8)))
          ||| (s.reg rt &&& BitVec.ofNat 64 (2 ^ (8 * ((effectiveAddress s base offset).toNat % 8)) - 1))) s.llbit ∧
    Loads (.ldr rt offset base) (iWord 0x1B base rt offset) s (effectiveAddress s base offset)
      ((effectiveAddress s base offset).setWidth 32 - BitVec.ofNat 32 ((effectiveAddress s base offset).toNat % 8))
          .dword rt
      (fun m => (m >>> (8 * (7 - ((effectiveAddress s base offset).toNat % 8)))) |||
        (s.reg rt &&& ~~~(0xFFFFFFFFFFFFFFFF#64 >>> (8 * (7 - ((effectiveAddress s base offset).toNat % 8))))))
            s.llbit ∧
    (s.params.wf → (∃ route, classify s.params ((effectiveAddress s base offset).setWidth 32 - BitVec.ofNat 32
        ((effectiveAddress s base offset).toNat % 4)) .word = .ok route) ∧
      ∃ route, classify s.params ((effectiveAddress s base offset).setWidth 32 - BitVec.ofNat 32
          ((effectiveAddress s base offset).toNat % 8)) .dword = .ok route)

/-- The pair LWL 0(b), LWR 3(b) loads the big-endian word at any RAM address b; LDL 0(b), LDR 7(b) the doubleword
(43_loadstore.md R240, 43_loadstore.md R241, 43_loadstore.md R242, 43_loadstore.md R243). R241 says so of the word
pair; for the doubleword pair it follows from R242 and R243. All alignments of b, the aligned ones included. For rt
= 0 and rt = base the single instructions are UnalignedPartLoads'. -/
def Obligations.UnalignedLoadPair : Prop :=
  ∀ (s : State) (rt base : Reg), s.params.wf → rt ≠ 0 → rt ≠ base →
    ((∀ i < 4, inRam s.params ((s.reg base).setWidth 32 + BitVec.ofNat 32 i) = true) →
      ∃ u t, exec (.lwl rt 0 base) s = .next u ∧ exec (.lwr rt 3 base) u = .next t ∧
        t.reg rt = (BitVec.ofNat 32 (bigEndian (fun i => s.byteAt ((s.reg base).setWidth 32 + BitVec.ofNat 32 i))
            4)).signExtend 64 ∧ (∀ r, r ≠ rt → t.reg r = s.reg r) ∧ SameMemory s t ∧ SameDevices s t) ∧
    ((∀ i < 8, inRam s.params ((s.reg base).setWidth 32 + BitVec.ofNat 32 i) = true) →
      ∃ u t, exec (.ldl rt 0 base) s = .next u ∧ exec (.ldr rt 7 base) u = .next t ∧
        t.reg rt = BitVec.ofNat 64 (bigEndian (fun i => s.byteAt ((s.reg base).setWidth 32 + BitVec.ofNat 32 i)) 8)
            ∧ (∀ r, r ≠ rt → t.reg r = s.reg r) ∧ SameMemory s t ∧ SameDevices s t)

/-- SB, SH, SW, SD: one bus write of the low bytes of rt at EA; address errors with the effective address (R244, R245,
R246, R247). Stores holds the encoding, the completion by each route with its stored bytes, the error and the
frame. -/
def Obligations.AlignedStores : Prop :=
  ∀ (s : State) (rt base : Reg) (offset : BitVec 16),
    Stores (.sb rt offset base) (iWord 0x28 base rt offset) s (effectiveAddress s base offset) .byte (s.reg rt) ∧
    Stores (.sh rt offset base) (iWord 0x29 base rt offset) s (effectiveAddress s base offset) .half (s.reg rt) ∧
    Stores (.sw rt offset base) (iWord 0x2B base rt offset) s (effectiveAddress s base offset) .word (s.reg rt) ∧
    Stores (.sd rt offset base) (iWord 0x3F base rt offset) s (effectiveAddress s base offset) .dword (s.reg rt) ∧
    (∃ route, classify s.params ((effectiveAddress s base offset).setWidth 32) .byte = .ok route)

/-- SWL, SWR, SDL, SDR: the byte writes of the rule, each routed on its own, never failing (R248, R249, R250, R251,
R252). The lists are those of the rules: the upper bytes of the word or doubleword from EA to the end of its
aligned unit, or the lower bytes from the unit's start to EA. -/
def Obligations.UnalignedPartStores : Prop :=
  ∀ (s : State) (rt base : Reg) (offset : BitVec 16),
    StoresEach (.swl rt offset base) (iWord 0x2A base rt offset) s
      ((List.range (4 - ((effectiveAddress s base offset).toNat % 4))).map fun i =>
        ((effectiveAddress s base offset).setWidth 32 + BitVec.ofNat 32 i, (s.reg rt).extractLsb' (24 - 8 * i) 8)) ∧
    StoresEach (.swr rt offset base) (iWord 0x2E base rt offset) s
      ((List.range (((effectiveAddress s base offset).toNat % 4) + 1)).map fun j =>
        ((effectiveAddress s base offset).setWidth 32 - BitVec.ofNat 32
            ((effectiveAddress s base offset).toNat % 4) + BitVec.ofNat 32 j, (s.reg rt).extractLsb' (8 *
                (((effectiveAddress s base offset).toNat % 4) - j)) 8)) ∧
    StoresEach (.sdl rt offset base) (iWord 0x2C base rt offset) s
      ((List.range (8 - ((effectiveAddress s base offset).toNat % 8))).map fun i =>
        ((effectiveAddress s base offset).setWidth 32 + BitVec.ofNat 32 i, (s.reg rt).extractLsb' (56 - 8 * i) 8)) ∧
    StoresEach (.sdr rt offset base) (iWord 0x2D base rt offset) s
      ((List.range (((effectiveAddress s base offset).toNat % 8) + 1)).map fun j =>
        ((effectiveAddress s base offset).setWidth 32 - BitVec.ofNat 32
            ((effectiveAddress s base offset).toNat % 8) + BitVec.ofNat 32 j, (s.reg rt).extractLsb' (8 *
                (((effectiveAddress s base offset).toNat % 8) - j)) 8))

/-- The pair SWL 0(b), SWR 3(b) stores the big-endian word at any RAM address b; SDL 0(b), SDR 7(b) the doubleword
(43_loadstore.md R249, 43_loadstore.md R250, 43_loadstore.md R251, 43_loadstore.md R252). R250 says so of the word
pair; for the doubleword pair it follows from R251 and R252. All alignments of b; rt may be the base or register 0. -/
def Obligations.UnalignedStorePair : Prop :=
  ∀ (s : State) (rt base : Reg),
    ((∀ i < 4, inRam s.params ((s.reg base).setWidth 32 + BitVec.ofNat 32 i) = true) →
      ∃ u t, exec (.swl rt 0 base) s = .next u ∧ exec (.swr rt 3 base) u = .next t ∧
        (∀ i < 4, t.byteAt ((s.reg base).setWidth 32 + BitVec.ofNat 32 i) = busByte 4 (s.reg rt) i) ∧
        (∀ x, (∀ i < 4, x ≠ (s.reg base).setWidth 32 + BitVec.ofNat 32 i) → t.byteAt x = s.byteAt x) ∧
        SameRegs s t ∧ SameDevices s t) ∧
    ((∀ i < 8, inRam s.params ((s.reg base).setWidth 32 + BitVec.ofNat 32 i) = true) →
      ∃ u t, exec (.sdl rt 0 base) s = .next u ∧ exec (.sdr rt 7 base) u = .next t ∧
        (∀ i < 8, t.byteAt ((s.reg base).setWidth 32 + BitVec.ofNat 32 i) = busByte 8 (s.reg rt) i) ∧
        (∀ x, (∀ i < 8, x ≠ (s.reg base).setWidth 32 + BitVec.ofNat 32 i) → t.byteAt x = s.byteAt x) ∧
        SameRegs s t ∧ SameDevices s t)

/-- SC and SCD: the address check first, then the store and 1, or no access and 0; LLbit stays (R255, R256). The stored
value is rt as it was before the instruction wrote it. -/
def Obligations.StoreConditional : Prop :=
  ∀ (s : State) (rt base : Reg) (offset : BitVec 16),
    StoresConditionally (.sc rt offset base) (iWord 0x38 base rt offset) s (effectiveAddress s base offset) .word rt ∧
    StoresConditionally (.scd rt offset base) (iWord 0x3C base rt offset) s (effectiveAddress s base offset) .dword rt

/-- J, JAL, JR, JALR: the target requested, the link written, a misaligned register target raised at the jump (R272,
R273, R274, R275). The misaligned target is R292: PcAlwaysAligned. -/
def Obligations.Jumps : Prop :=
  ∀ (s : State) (rd rs : Reg) (target : BitVec 26),
    Branches (.j target) (jWord 0x02 target) s (.branch ((s.pc + 4).extractLsb' 28 36 ++ target ++ 0#2)) ∧
    BranchesAndLinks (.jal target) (jWord 0x03 target) s (.branch ((s.pc + 4).extractLsb' 28 36 ++ target ++ 0#2)) ∧
    IsEncoding (.jr rs) (rWord rs 0 0 0 0x08) ∧
    IsEncoding (.jalr rd rs) (rWord rs 0 rd 0 0x09) ∧
    ((s.reg rs).toNat % 4 = 0 →
      (∃ t, exec (.jr rs) s = .next t ∧ WritesNothing (.branch (s.reg rs)) s t) ∧
        ∃ t, exec (.jalr rd rs) s = .next t ∧ WritesReg (.branch (s.reg rs)) s t rd (s.pc + 8)) ∧
    ((s.reg rs).toNat % 4 ≠ 0 →
      Raises (.jr rs) (rWord rs 0 0 0 0x08) (.addressError .unaligned .fetch) (s.reg rs) s ∧
        Raises (.jalr rd rs) (rWord rs 0 rd 0 0x09) (.addressError .unaligned .fetch) (s.reg rs) s)

/-- BEQ, BNE, BLEZ, BGTZ, BLTZ, BGEZ: the branch requested where the 64-bit condition holds (R276, R277, R278, R279,
R280, R281). Branches holds the encoding, the completion, the frame and the sequencing. -/
def Obligations.ConditionalBranches : Prop :=
  ∀ (s : State) (rs rt : Reg) (imm : BitVec 16),
    Branches (.beq rs rt imm) (iWord 0x04 rs rt imm) s (if s.reg rs = s.reg rt then .branch (branchTargetOf s imm)
        else .none) ∧
    Branches (.bne rs rt imm) (iWord 0x05 rs rt imm) s (if s.reg rs = s.reg rt then .none else .branch
        (branchTargetOf s imm)) ∧
    Branches (.blez rs imm) (iWord 0x06 rs 0 imm) s (if (s.reg rs).toInt ≤ 0 then .branch (branchTargetOf s imm)
        else .none) ∧
    Branches (.bgtz rs imm) (iWord 0x07 rs 0 imm) s (if 0 < (s.reg rs).toInt then .branch (branchTargetOf s imm)
        else .none) ∧
    Branches (.bltz rs imm) (iWord 0x01 rs 0x00 imm) s (if (s.reg rs).toInt < 0 then .branch (branchTargetOf s imm)
        else .none) ∧
    Branches (.bgez rs imm) (iWord 0x01 rs 0x01 imm) s (if 0 ≤ (s.reg rs).toInt then .branch (branchTargetOf s imm)
        else .none)

/-- BEQL, BNEL, BLEZL, BGTZL, BLTZL, BGEZL: the branch where the condition holds, else the delay slot is annulled
(R284, R285, R286, R287, R288, R289). Sequenced gives the effect of a skip outside and inside a delay slot. -/
def Obligations.BranchLikely : Prop :=
  ∀ (s : State) (rs rt : Reg) (imm : BitVec 16),
    Branches (.beql rs rt imm) (iWord 0x14 rs rt imm) s (if s.reg rs = s.reg rt then .branch (branchTargetOf s imm)
        else .skip) ∧
    Branches (.bnel rs rt imm) (iWord 0x15 rs rt imm) s (if s.reg rs = s.reg rt then .skip else .branch
        (branchTargetOf s imm)) ∧
    Branches (.blezl rs imm) (iWord 0x16 rs 0 imm) s (if (s.reg rs).toInt ≤ 0 then .branch (branchTargetOf s imm)
        else .skip) ∧
    Branches (.bgtzl rs imm) (iWord 0x17 rs 0 imm) s (if 0 < (s.reg rs).toInt then .branch (branchTargetOf s imm)
        else .skip) ∧
    Branches (.bltzl rs imm) (iWord 0x01 rs 0x02 imm) s (if (s.reg rs).toInt < 0 then .branch
        (branchTargetOf s imm) else .skip) ∧
    Branches (.bgezl rs imm) (iWord 0x01 rs 0x03 imm) s (if 0 ≤ (s.reg rs).toInt then .branch
        (branchTargetOf s imm) else .skip)

/-- BLTZAL, BGEZAL, BLTZALL, BGEZALL: the link is written whether or not the branch is taken (R282, R283, R290, R291).
Register 31 as rs is covered: the condition reads the old value. -/
def Obligations.BranchAndLink : Prop :=
  ∀ (s : State) (rs : Reg) (imm : BitVec 16),
    BranchesAndLinks (.bltzal rs imm) (iWord 0x01 rs 0x10 imm) s (if (s.reg rs).toInt < 0 then .branch
        (branchTargetOf s imm) else .none) ∧
    BranchesAndLinks (.bgezal rs imm) (iWord 0x01 rs 0x11 imm) s (if 0 ≤ (s.reg rs).toInt then .branch
        (branchTargetOf s imm) else .none) ∧
    BranchesAndLinks (.bltzall rs imm) (iWord 0x01 rs 0x12 imm) s (if (s.reg rs).toInt < 0 then .branch
        (branchTargetOf s imm) else .skip) ∧
    BranchesAndLinks (.bgezall rs imm) (iWord 0x01 rs 0x13 imm) s (if 0 ≤ (s.reg rs).toInt then .branch
        (branchTargetOf s imm) else .skip)

/-- SYSCALL and BREAK raise with the raw word, whatever their code; SYNC only advances (R300, R301, R302). Their own
effect is the exception; the entry is the whole of it (R336). -/
def Obligations.SystemInstructions : Prop :=
  ∀ (s : State) (code : BitVec 20),
    (IsEncoding (.syscall code) (codeWord code 0x0C) ∧
      Raises (.syscall code) (codeWord code 0x0C) .syscall ((codeWord code 0x0C).setWidth 64) s) ∧
    (IsEncoding (.brk code) (codeWord code 0x0D) ∧
      Raises (.brk code) (codeWord code 0x0D) .breakpoint ((codeWord code 0x0D).setWidth 64) s) ∧
    (IsEncoding .sync 0x0000000F#32 ∧ ∃ t, exec .sync s = .next t ∧ WritesNothing .none s t)

/-- The twelve conditional traps: Trap with the raw word where the condition holds, else no effect (R304, R305, R306,
R307, R308, R309, R310, R311, R312, R313, R314, R315). The code field is part of the word and read by nothing. -/
def Obligations.ConditionalTraps : Prop :=
  ∀ (s : State) (rs rt : Reg) (code : BitVec 10) (imm : BitVec 16),
    Traps (.tge rs rt code) (trapWord rs rt code 0x30) s ((s.reg rt).toInt ≤ (s.reg rs).toInt) ∧
    Traps (.tgeu rs rt code) (trapWord rs rt code 0x31) s ((s.reg rt).toNat ≤ (s.reg rs).toNat) ∧
    Traps (.tlt rs rt code) (trapWord rs rt code 0x32) s ((s.reg rs).toInt < (s.reg rt).toInt) ∧
    Traps (.tltu rs rt code) (trapWord rs rt code 0x33) s ((s.reg rs).toNat < (s.reg rt).toNat) ∧
    Traps (.teq rs rt code) (trapWord rs rt code 0x34) s (s.reg rs = s.reg rt) ∧
    Traps (.tne rs rt code) (trapWord rs rt code 0x36) s (s.reg rs ≠ s.reg rt) ∧
    Traps (.tgei rs imm) (iWord 0x01 rs 0x08 imm) s (imm.toInt ≤ (s.reg rs).toInt) ∧
    Traps (.tgeiu rs imm) (iWord 0x01 rs 0x09 imm) s ((imm.signExtend 64).toNat ≤ (s.reg rs).toNat) ∧
    Traps (.tlti rs imm) (iWord 0x01 rs 0x0A imm) s ((s.reg rs).toInt < imm.toInt) ∧
    Traps (.tltiu rs imm) (iWord 0x01 rs 0x0B imm) s ((s.reg rs).toNat < (imm.signExtend 64).toNat) ∧
    Traps (.teqi rs imm) (iWord 0x01 rs 0x0C imm) s (s.reg rs = imm.signExtend 64) ∧
    Traps (.tnei rs imm) (iWord 0x01 rs 0x0E imm) s (s.reg rs ≠ imm.signExtend 64)

/-- Construction: a malformed table is refused, else the state of R360 with the draws as they are, the RAM bytes among
them (70_reset_and_hazards.md R360, 70_reset_and_hazards.md R361, 10_state.md R46). drawnByte is the draw. Three
points are the model's choice: what a RAM byte that the draw does not list reads as (log 9), that the last of two
pairs at one address counts, and that a pair outside RAM is ignored (log 22). -/
def Obligations.Construction : Prop :=
  (∀ (p : Params) (d : Draws),
      (¬ wellFormedRanges p.ranges → construct p d = .fault .malformedRangeTable) ∧
      (wellFormedRanges p.ranges → ∃ s, construct p d = .next s ∧ s.gpr = d.gpr ∧ s.reg 0 = 0 ∧ s.hi = d.hi ∧
        s.lo = d.lo ∧ s.pc = 0xFFFFFFFFBFC00000#64 ∧ s.pend = none ∧ s.llbit = false ∧ s.run = .running ∧
        (∀ x, (∃ r ∈ p.ranges, r.kind = .ram ∧ InRange r x) → s.byteAt x = drawnByte d x) ∧
        (∀ x, (¬ ∃ r ∈ p.ranges, r.kind = .ram ∧ InRange r x) → s.byteAt x = backgroundByte) ∧
        s.params = { p with ranges := s.params.ranges } ∧ s.params.ranges.Perm p.ranges ∧
        s.params.ranges.Pairwise (fun r q => r.base.toNat ≤ q.base.toNat) ∧
        ∀ (image : List Byte) (entry : Word64) (t : State), load image entry s = .next t →
          t = { s with mem := t.mem, pc := entry } ∧
            (∀ i b, image[i]? = some b → t.byteAt (p.imageBase + BitVec.ofNat 32 i) = b) ∧
            (∀ x, (∃ r ∈ p.ranges, r.kind = .ram ∧ InRange r x) →
              (∀ i < image.length, x ≠ p.imageBase + BitVec.ofNat 32 i) → t.byteAt x = drawnByte d x))) ∧
    (∀ (s t : State) (rt base : Reg) (offset : BitVec 16), s.llbit = false → s.run = .running → t.run = .running →
      exec (.sc rt offset base) s = .next t ∨ exec (.scd rt offset base) s = .next t →
        t.reg rt = 0 ∧ SameMemory s t ∧ SameDevices s t)

/-- Load: refused where the image leaves its RAM range or the entry is misaligned, else the bytes and the pc
(70_reset_and_hazards.md R362, 70_reset_and_hazards.md R363, 70_reset_and_hazards.md R364). That IMAGE_BASE + i
does not wrap in the fit test is the model's choice (log 26); that load is performed at most once is the host's
part (log 23). An empty image fits anywhere. -/
def Obligations.ImageLoad : Prop :=
  ∀ (s : State) (image : List Byte) (entry : Word64), Inv s →
    ((∃ r ∈ s.params.ranges, r.kind = .ram ∧ ∀ i < image.length, r.base.toNat ≤ s.params.imageBase.toNat + i ∧
        s.params.imageBase.toNat + i < r.base.toNat + r.size) ∧ entry.toNat % 4 = 0 →
      ∃ t, load image entry s = .next t ∧ t = { s with mem := t.mem, pc := entry } ∧
        (∀ i b, image[i]? = some b → t.byteAt (s.params.imageBase + BitVec.ofNat 32 i) = b) ∧
        (∀ x, (∀ i < image.length, x ≠ s.params.imageBase + BitVec.ofNat 32 i) → t.byteAt x = s.byteAt x)) ∧
    (¬ (∃ r ∈ s.params.ranges, r.kind = .ram ∧ ∀ i < image.length, r.base.toNat ≤ s.params.imageBase.toNat + i ∧
        s.params.imageBase.toNat + i < r.base.toNat + r.size) ∨ entry.toNat % 4 ≠ 0 →
      load image entry s = .fault .loadFailure)

/-- A host stop halts a running core and is ignored otherwise; a tick writes the allowed RAM bytes, and changes else
only the devices (60_exceptions.md R344, 60_exceptions.md R349). The replies stand for the peripherals' own state
(log 10); that the last of two pairs at one address counts is the model's choice (log 22). -/
def Obligations.StopAndTick : Prop :=
  ∀ (s t : State) (writes : List Host.Cell) (replies : List Word64),
    (s.run = .running → hostStop s = { s with run := .halted }) ∧
    (s.run ≠ .running → hostStop s = s) ∧
    (s.run = .halted → step s = .next t → t = s) ∧
    tick writes replies s = { s with mem := (tick writes replies s).mem, devReplies := replies } ∧
    (∀ a, ((∀ w ∈ s.params.periphWritable, ¬ (w.base.toNat ≤ a.toNat ∧ a.toNat < w.base.toNat + w.size)) ∨
        inRam s.params a = false) → (tick writes replies s).byteAt a = s.byteAt a) ∧
    (∀ a, (∃ w ∈ s.params.periphWritable, w.base.toNat ≤ a.toNat ∧ a.toNat < w.base.toNat + w.size) →
      inRam s.params a = true → (tick writes replies s).byteAt a = (lastByteAt writes a).getD (s.byteAt a)) ∧
    (s.params.periphWritable = [] → (tick writes replies s).mem = s.mem)
end

