-- ==== Sys2Proof/Laws/State.lean ====
section
/-! SUPPORT. One lemma for each field of the state and each update of it, and the register file's laws. -/

namespace Sys2Proof
namespace Machine

section SetReg
variable (s : State) (i : Reg) (v : Word64)

@[simp] theorem setReg_hi : (s.setReg i v).hi = s.hi := by unfold State.setReg; split <;> rfl
@[simp] theorem setReg_lo : (s.setReg i v).lo = s.lo := by unfold State.setReg; split <;> rfl
@[simp] theorem setReg_pc : (s.setReg i v).pc = s.pc := by unfold State.setReg; split <;> rfl
@[simp] theorem setReg_pend : (s.setReg i v).pend = s.pend := by unfold State.setReg; split <;> rfl
@[simp] theorem setReg_llbit : (s.setReg i v).llbit = s.llbit := by unfold State.setReg; split <;> rfl
@[simp] theorem setReg_run : (s.setReg i v).run = s.run := by unfold State.setReg; split <;> rfl
@[simp] theorem setReg_mem : (s.setReg i v).mem = s.mem := by unfold State.setReg; split <;> rfl
@[simp] theorem setReg_params : (s.setReg i v).params = s.params := by unfold State.setReg; split <;> rfl
@[simp] theorem setReg_devLog : (s.setReg i v).devLog = s.devLog := by unfold State.setReg; split <;> rfl
@[simp] theorem setReg_devReplies : (s.setReg i v).devReplies = s.devReplies := by
  unfold State.setReg; split <;> rfl
@[simp] theorem setReg_byteAt (a : BusAddr) : (s.setReg i v).byteAt a = s.byteAt a := by simp [State.byteAt]

end SetReg

/-- Register 0 reads as 0 (10_state.md R30). -/
@[simp] theorem reg_zero (s : State) : s.reg 0#5 = 0#64 := rfl

/-- A write to register 0 is discarded (10_state.md R30). -/
@[simp] theorem setReg_zero (s : State) (v : Word64) : s.setReg 0#5 v = s := rfl

/-- Reading a register after a write of one: the written value, unless it is register 0. -/
theorem reg_setReg (s : State) (i j : Reg) (v : Word64) :
    (s.setReg i v).reg j = if j = i ∧ i ≠ 0 then v else s.reg j := by
  by_cases hi : i = 0#5
  · subst hi; simp
  · by_cases hj : j = 0#5
    · subst hj; simp [Ne.symm hi]
    · have hbi := i.isLt
      have hbj := j.isLt
      have hi' : i.toNat ≠ 0 := fun h => hi (BitVec.eq_of_toNat_eq (by simpa using h))
      have hj' : j.toNat ≠ 0 := fun h => hj (BitVec.eq_of_toNat_eq (by simpa using h))
      by_cases hji : j = i
      · subst hji; simp [State.reg, State.setReg, hj]
      · have hne : j.toNat ≠ i.toNat := fun h => hji (BitVec.eq_of_toNat_eq h)
        have hset : s.setReg i v =
            { s with gpr := s.gpr.set (i.toNat - 1) v (by omega) } := by
          unfold State.setReg; exact if_neg (show ¬ i = 0 from hi)
        rw [hset]
        simp only [hji, false_and, if_false]
        unfold State.reg
        rw [if_neg (show ¬ j = 0 from hj), if_neg (show ¬ j = 0 from hj)]
        exact Vector.getElem_set_ne (i := i.toNat - 1) (by omega) (by omega) (by omega)

@[simp] theorem reg_setReg_same (s : State) (i : Reg) (v : Word64) :
    (s.setReg i v).reg i = if i = 0#5 then 0#64 else v := by
  rw [reg_setReg]
  by_cases h : i = 0#5
  · subst h; simp
  · simp [h]

theorem reg_setReg_ne (s : State) (i j : Reg) (v : Word64) (h : j ≠ i) : (s.setReg i v).reg j = s.reg j := by
  rw [reg_setReg]; simp [h]

section SetHiLo
variable (s : State) (hi lo : Word64)

@[simp] theorem setHiLo_hi : (s.setHiLo hi lo).hi = hi := rfl
@[simp] theorem setHiLo_lo : (s.setHiLo hi lo).lo = lo := rfl
@[simp] theorem setHiLo_reg (i : Reg) : (s.setHiLo hi lo).reg i = s.reg i := rfl
@[simp] theorem setHiLo_pc : (s.setHiLo hi lo).pc = s.pc := rfl
@[simp] theorem setHiLo_pend : (s.setHiLo hi lo).pend = s.pend := rfl
@[simp] theorem setHiLo_llbit : (s.setHiLo hi lo).llbit = s.llbit := rfl
@[simp] theorem setHiLo_run : (s.setHiLo hi lo).run = s.run := rfl
@[simp] theorem setHiLo_mem : (s.setHiLo hi lo).mem = s.mem := rfl
@[simp] theorem setHiLo_params : (s.setHiLo hi lo).params = s.params := rfl
@[simp] theorem setHiLo_devLog : (s.setHiLo hi lo).devLog = s.devLog := rfl
@[simp] theorem setHiLo_devReplies : (s.setHiLo hi lo).devReplies = s.devReplies := rfl
@[simp] theorem setHiLo_byteAt (a : BusAddr) : (s.setHiLo hi lo).byteAt a = s.byteAt a := rfl

end SetHiLo

section TakeException
variable (s : State) (k : ExcKind) (info : Word64) (raw : Option Word32)

@[simp] theorem takeException_run : (s.takeException k info raw).run =
    .faulted { kind := k, info := info, pc := s.pc, delay := s.pend.isSome, raw := raw } := rfl
@[simp] theorem takeException_reg (i : Reg) : (s.takeException k info raw).reg i = s.reg i := rfl
@[simp] theorem takeException_hi : (s.takeException k info raw).hi = s.hi := rfl
@[simp] theorem takeException_lo : (s.takeException k info raw).lo = s.lo := rfl
@[simp] theorem takeException_pc : (s.takeException k info raw).pc = s.pc := rfl
@[simp] theorem takeException_pend : (s.takeException k info raw).pend = s.pend := rfl
@[simp] theorem takeException_llbit : (s.takeException k info raw).llbit = s.llbit := rfl
@[simp] theorem takeException_mem : (s.takeException k info raw).mem = s.mem := rfl
@[simp] theorem takeException_params : (s.takeException k info raw).params = s.params := rfl
@[simp] theorem takeException_devLog : (s.takeException k info raw).devLog = s.devLog := rfl
@[simp] theorem takeException_devReplies : (s.takeException k info raw).devReplies = s.devReplies := rfl
@[simp] theorem takeException_byteAt (a : BusAddr) : (s.takeException k info raw).byteAt a = s.byteAt a := rfl

end TakeException

section Advance
variable (s : State) (br : Request)

@[simp] theorem advance_gpr : (s.advance br).gpr = s.gpr := by
  unfold State.advance; repeat' split
  all_goals rfl
@[simp] theorem advance_hi : (s.advance br).hi = s.hi := by
  unfold State.advance; repeat' split
  all_goals rfl
@[simp] theorem advance_lo : (s.advance br).lo = s.lo := by
  unfold State.advance; repeat' split
  all_goals rfl
@[simp] theorem advance_llbit : (s.advance br).llbit = s.llbit := by
  unfold State.advance; repeat' split
  all_goals rfl
@[simp] theorem advance_run : (s.advance br).run = s.run := by
  unfold State.advance; repeat' split
  all_goals rfl
@[simp] theorem advance_mem : (s.advance br).mem = s.mem := by
  unfold State.advance; repeat' split
  all_goals rfl
@[simp] theorem advance_params : (s.advance br).params = s.params := by
  unfold State.advance; repeat' split
  all_goals rfl
@[simp] theorem advance_devLog : (s.advance br).devLog = s.devLog := by
  unfold State.advance; repeat' split
  all_goals rfl
@[simp] theorem advance_devReplies : (s.advance br).devReplies = s.devReplies := by
  unfold State.advance; repeat' split
  all_goals rfl
@[simp] theorem advance_reg (i : Reg) : (s.advance br).reg i = s.reg i := by simp [State.reg]
@[simp] theorem advance_byteAt (a : BusAddr) : (s.advance br).byteAt a = s.byteAt a := by simp [State.byteAt]

/-- The pending slot after a completed instruction (40_cycle.md R133): a branch outside a delay slot, else empty. -/
theorem advance_pend : (s.advance br).pend = match s.pend, br with
    | none, .branch target => some target
    | _, _ => none := by
  unfold State.advance
  rcases hp : s.pend with _ | p <;> cases br <;> simp_all

/-- The pc after a completed instruction (40_cycle.md R133). -/
theorem advance_pc : (s.advance br).pc = match s.pend, br with
    | some _, .branch target => target
    | some pending, _ => pending
    | none, .skip => s.pc + 8
    | none, _ => s.pc + 4 := by
  unfold State.advance
  rcases hp : s.pend with _ | p <;> cases br <;> simp_all

end Advance

section DeviceOps
variable (s : State) (d : Nat) (a : BusAddr) (n : Width) (v : Word64)

@[simp] theorem deviceRead_value : (deviceRead s d a n).1 = deviceReply s d a n := rfl
@[simp] theorem deviceRead_gpr : (deviceRead s d a n).2.gpr = s.gpr := rfl
@[simp] theorem deviceRead_reg (i : Reg) : (deviceRead s d a n).2.reg i = s.reg i := rfl
@[simp] theorem deviceRead_hi : (deviceRead s d a n).2.hi = s.hi := rfl
@[simp] theorem deviceRead_lo : (deviceRead s d a n).2.lo = s.lo := rfl
@[simp] theorem deviceRead_pc : (deviceRead s d a n).2.pc = s.pc := rfl
@[simp] theorem deviceRead_pend : (deviceRead s d a n).2.pend = s.pend := rfl
@[simp] theorem deviceRead_llbit : (deviceRead s d a n).2.llbit = s.llbit := rfl
@[simp] theorem deviceRead_run : (deviceRead s d a n).2.run = s.run := rfl
@[simp] theorem deviceRead_mem : (deviceRead s d a n).2.mem = s.mem := rfl
@[simp] theorem deviceRead_params : (deviceRead s d a n).2.params = s.params := rfl
@[simp] theorem deviceRead_devLog :
    (deviceRead s d a n).2.devLog = s.devLog ++ [.read d a n (deviceReply s d a n)] := rfl
@[simp] theorem deviceRead_devReplies : (deviceRead s d a n).2.devReplies = s.devReplies.tail := rfl
@[simp] theorem deviceRead_byteAt (x : BusAddr) : (deviceRead s d a n).2.byteAt x = s.byteAt x := rfl

@[simp] theorem deviceWrite_gpr : (deviceWrite s d a n v).gpr = s.gpr := rfl
@[simp] theorem deviceWrite_reg (i : Reg) : (deviceWrite s d a n v).reg i = s.reg i := rfl
@[simp] theorem deviceWrite_hi : (deviceWrite s d a n v).hi = s.hi := rfl
@[simp] theorem deviceWrite_lo : (deviceWrite s d a n v).lo = s.lo := rfl
@[simp] theorem deviceWrite_pc : (deviceWrite s d a n v).pc = s.pc := rfl
@[simp] theorem deviceWrite_pend : (deviceWrite s d a n v).pend = s.pend := rfl
@[simp] theorem deviceWrite_llbit : (deviceWrite s d a n v).llbit = s.llbit := rfl
@[simp] theorem deviceWrite_run : (deviceWrite s d a n v).run = s.run := rfl
@[simp] theorem deviceWrite_mem : (deviceWrite s d a n v).mem = s.mem := rfl
@[simp] theorem deviceWrite_params : (deviceWrite s d a n v).params = s.params := rfl
@[simp] theorem deviceWrite_devLog :
    (deviceWrite s d a n v).devLog = s.devLog ++ [.write d a n (lowBytes n v)] := rfl
@[simp] theorem deviceWrite_devReplies : (deviceWrite s d a n v).devReplies = s.devReplies := rfl
@[simp] theorem deviceWrite_byteAt (x : BusAddr) : (deviceWrite s d a n v).byteAt x = s.byteAt x := rfl

end DeviceOps

end Machine
end Sys2Proof
end

