-- ==== Sys2Proof/Laws/Memory.lean ====
section
/-! SUPPORT. The laws of memory: a read after a write, the canonical form, and the multi-byte reads and writes. -/

namespace Sys2Proof
namespace Machine

/-! ### One byte -/

theorem Memory.read_insert (m : Memory) (a x : Nat) (b : Byte) :
    Memory.read (Memory.insert m a b) x = if x = a then b else Memory.read m x := by
  induction m with
  | nil => simp [Memory.insert, Memory.read, eq_comm]
  | cons c m ih =>
    obtain ⟨k, c⟩ := c
    unfold Memory.insert
    split
    · by_cases h : x = a
      · subst h; simp [Memory.read]
      · simp [Memory.read, h, Ne.symm h]
    · split
      · rename_i hak
        subst hak
        simp only [Memory.read, eq_comm (a := x)]
        split <;> rfl
      · by_cases h : k = x
        · subst h; simp [Memory.read]; intro h; omega
        · simp [Memory.read, h, ih]

theorem Memory.read_filter (m : Memory) (a x : Nat) :
    Memory.read (m.filter (fun c => c.1 != a)) x = if x = a then backgroundByte else Memory.read m x := by
  induction m with
  | nil => simp [Memory.read]
  | cons c m ih =>
    obtain ⟨k, c⟩ := c
    by_cases hk : k = a
    · subst hk
      by_cases h : x = k <;> simp_all [Memory.read]
      exact fun h' => absurd h'.symm h
    · by_cases h : k = x
      · subst h; simp [Memory.read, hk]
      · simp [Memory.read, hk, h, ih]

/-- A byte reads as what was last written to it; a write leaves every other byte. -/
theorem Memory.read_write (m : Memory) (a x : Nat) (b : Byte) :
    Memory.read (Memory.write m a b) x = if x = a then b else Memory.read m x := by
  unfold Memory.write
  split
  · subst_vars; exact Memory.read_filter m a x
  · exact Memory.read_insert m a x b

theorem Memory.mem_insert {m : Memory} {a : Nat} {b : Byte} {c : Host.Cell} (h : c ∈ Memory.insert m a b) :
    c = (a, b) ∨ c ∈ m := by
  induction m with
  | nil => simpa [Memory.insert] using h
  | cons d m ih =>
    obtain ⟨k, d⟩ := d
    unfold Memory.insert at h
    split at h
    · simpa using h
    · split at h
      · rcases List.mem_cons.1 h with h | h
        · exact .inl h
        · exact .inr (List.mem_cons_of_mem _ h)
      · rcases List.mem_cons.1 h with h | h
        · exact .inr (h ▸ List.mem_cons_self)
        · exact (ih h).imp id (List.mem_cons_of_mem _)

/-- A write lists no byte but the one written. -/
theorem Memory.mem_write {m : Memory} {a : Nat} {b : Byte} {c : Host.Cell} (h : c ∈ Memory.write m a b) :
    c = (a, b) ∨ c ∈ m := by
  unfold Memory.write at h
  split at h
  · exact .inr (List.mem_filter.1 h).1
  · exact Memory.mem_insert h

theorem Memory.pairwise_insert {m : Memory} (a : Nat) (b : Byte)
    (h : m.Pairwise (fun p q => p.1 < q.1)) : (Memory.insert m a b).Pairwise (fun p q => p.1 < q.1) := by
  induction m with
  | nil => simp [Memory.insert]
  | cons d m ih =>
    obtain ⟨k, d⟩ := d
    obtain ⟨hk, hm⟩ := List.pairwise_cons.1 h
    unfold Memory.insert
    split
    · rename_i hlt
      refine List.pairwise_cons.2 ⟨fun c hc => ?_, h⟩
      rcases List.mem_cons.1 hc with rfl | hc
      · exact hlt
      · exact Nat.lt_trans hlt (hk c hc)
    · split
      · subst_vars; exact List.pairwise_cons.2 ⟨hk, hm⟩
      · refine List.pairwise_cons.2 ⟨fun c hc => ?_, ih hm⟩
        rcases Memory.mem_insert hc with rfl | hc
        · show k < a; omega
        · exact hk c hc

/-- A write keeps the canonical form. -/
theorem Memory.wf_write {m : Memory} (a : Nat) (b : Byte) (h : Memory.wf m) : Memory.wf (Memory.write m a b) := by
  obtain ⟨hp, hb⟩ := h
  unfold Memory.write
  split
  · exact ⟨hp.filter _, fun c hc => hb c (List.mem_filter.1 hc).1⟩
  · rename_i hne
    refine ⟨Memory.pairwise_insert a b hp, fun c hc => ?_⟩
    rcases Memory.mem_insert hc with rfl | hc
    · exact hne
    · exact hb c hc

/-! ### Byte addresses -/

@[simp] theorem byteAddr_zero (a : BusAddr) : byteAddr a 0 = a := by simp [byteAddr]

theorem byteAddr_toNat (a : BusAddr) (i : Nat) : (byteAddr a i).toNat = (a.toNat + i) % 2 ^ 32 := by
  simp [byteAddr, BitVec.toNat_add]

theorem byteAddr_inj {a : BusAddr} {i j : Nat} (hi : i < 2 ^ 32) (hj : j < 2 ^ 32) (h : byteAddr a i = byteAddr a j) :
    i = j := by
  have := congrArg BitVec.toNat h
  rw [byteAddr_toNat, byteAddr_toNat] at this
  have := a.isLt
  omega

theorem mem_bytesFrom {a x : BusAddr} {n : Nat} : x ∈ bytesFrom a n ↔ ∃ i < n, x = byteAddr a i := by
  simp [bytesFrom, byteAddr, eq_comm]

theorem toNat_byteAddr_ne {a x : BusAddr} {i : Nat} (h : x ≠ byteAddr a i) : x.toNat ≠ (byteAddr a i).toNat :=
  fun e => h (BitVec.eq_of_toNat_eq e)

/-! ### Several bytes -/

/-- A byte outside the written ones is unchanged. -/
theorem read_writeBytes_of_ne (m : Memory) (a : BusAddr) (n : Nat) (v : Word64) (x : BusAddr)
    (h : ∀ i < n, x ≠ byteAddr a i) : Memory.read (writeBytes m a n v) x.toNat = Memory.read m x.toNat := by
  induction n generalizing v with
  | zero => rfl
  | succ n ih =>
    rw [writeBytes, Memory.read_write, if_neg (toNat_byteAddr_ne (h n (by omega)))]
    exact ih _ fun i hi => h i (by omega)

/-- Byte `i` of an `n`-byte write: bits `8(n-i)-1 : 8(n-1-i)` of the value. -/
theorem read_writeBytes (m : Memory) (a : BusAddr) (n : Nat) (v : Word64) (i : Nat) (hi : i < n) (hn : n ≤ 2 ^ 32) :
    Memory.read (writeBytes m a n v) (byteAddr a i).toNat = v.extractLsb' (8 * (n - 1 - i)) 8 := by
  induction n generalizing v with
  | zero => omega
  | succ n ih =>
    rw [writeBytes, Memory.read_write]
    by_cases h : i = n
    · subst h
      simp [BitVec.extractLsb']
    · rw [if_neg, ih _ (by omega) (by omega)]
      · apply BitVec.eq_of_getLsbD_eq
        intro j hj
        simp only [BitVec.getLsbD_extractLsb', BitVec.getLsbD_ushiftRight, hj, decide_true, Bool.true_and]
        congr 1; omega
      · intro e
        exact h (byteAddr_inj (by omega) (by omega) (BitVec.eq_of_toNat_eq e))

theorem wf_writeBytes {m : Memory} (a : BusAddr) (n : Nat) (v : Word64) (h : Memory.wf m) :
    Memory.wf (writeBytes m a n v) := by
  induction n generalizing v with
  | zero => exact h
  | succ n ih => exact Memory.wf_write _ _ (ih _)

theorem mem_writeBytes {m : Memory} {a : BusAddr} {n : Nat} {v : Word64} {c : Host.Cell}
    (h : c ∈ writeBytes m a n v) : c ∈ m ∨ ∃ i < n, c.1 = (byteAddr a i).toNat := by
  induction n generalizing v with
  | zero => exact .inl h
  | succ n ih =>
    rcases Memory.mem_write h with rfl | h
    · exact .inr ⟨n, by omega, rfl⟩
    · exact (ih h).imp id fun ⟨i, hi, e⟩ => ⟨i, by omega, e⟩

/-- The big-endian number, one byte more. -/
theorem bigEndian_succ (f : Nat → Byte) (n : Nat) : bigEndian f (n + 1) = bigEndian f n * 256 + (f n).toNat := by
  unfold bigEndian
  rw [List.range_succ, List.map_append, List.sum_append]
  simp only [List.map_cons, List.map_nil, List.sum_cons, List.sum_nil, Nat.add_zero]
  congr 1
  · rw [← List.sum_map_mul_right]
    apply congrArg
    apply List.map_congr_left
    intro i hi
    have := List.mem_range.1 hi
    rw [Nat.mul_assoc, show (256 : Nat) = 2 ^ 8 from rfl, ← Nat.pow_add]
    congr 2; omega
  · simp

theorem bigEndian_lt (f : Nat → Byte) (n : Nat) : bigEndian f n < 2 ^ (8 * n) := by
  induction n with
  | zero => simp [bigEndian]
  | succ n ih =>
    rw [bigEndian_succ, show 8 * (n + 1) = 8 * n + 8 by omega, Nat.pow_add]
    have := (f n).isLt
    omega

theorem toNat_shift_or_byte (x : Word64) (b : Byte) (k : Nat) (hx : x.toNat < 2 ^ (8 * k)) (hk : k < 8) :
    ((x <<< 8) ||| b.setWidth 64).toNat = x.toNat * 256 + b.toNat := by
  have hb := b.isLt
  have h56 : x.toNat < 2 ^ 56 := Nat.lt_of_lt_of_le hx (Nat.pow_le_pow_right (by omega) (by omega))
  rw [BitVec.toNat_or, BitVec.toNat_shiftLeft, BitVec.toNat_setWidth, Nat.mod_eq_of_lt (a := b.toNat) (by omega),
    Nat.shiftLeft_eq, Nat.mod_eq_of_lt (by omega), Nat.mul_comm x.toNat (2 ^ 8), ← Nat.two_pow_add_eq_or_of_lt hb]

/-- A RAM read is the big-endian number of its bytes (20_memory.md R66). -/
theorem toNat_readBytes (m : Memory) (a : BusAddr) (n : Nat) (hn : n ≤ 8) :
    (readBytes m a n).toNat = bigEndian (fun i => Memory.read m (byteAddr a i).toNat) n := by
  induction n with
  | zero => rfl
  | succ n ih =>
    rw [readBytes, bigEndian_succ, toNat_shift_or_byte _ _ n _ (by omega), ih (by omega)]
    rw [ih (by omega)]; exact bigEndian_lt _ _

/-- Copies of FILL as a big-endian number (20_memory.md R69). -/
theorem toNat_fillBytes (b : Byte) (n : Nat) (hn : n ≤ 8) : (fillBytes b n).toNat = bigEndian (fun _ => b) n := by
  induction n with
  | zero => rfl
  | succ n ih =>
    rw [fillBytes, bigEndian_succ, toNat_shift_or_byte _ _ n _ (by omega), ih (by omega)]
    rw [ih (by omega)]; exact bigEndian_lt _ _

theorem bigEndian_congr {f g : Nat → Byte} {n : Nat} (h : ∀ i < n, f i = g i) : bigEndian f n = bigEndian g n := by
  unfold bigEndian
  exact congrArg _ (List.map_congr_left fun i hi => by rw [h i (List.mem_range.1 hi)])

/-- Two reads agree where their bytes do. -/
theorem readBytes_congr {m m' : Memory} {a : BusAddr} {n : Nat} (hn : n ≤ 8)
    (h : ∀ i < n, Memory.read m' (byteAddr a i).toNat = Memory.read m (byteAddr a i).toNat) :
    readBytes m' a n = readBytes m a n := by
  apply BitVec.eq_of_toNat_eq
  rw [toNat_readBytes _ _ _ hn, toNat_readBytes _ _ _ hn]
  exact bigEndian_congr h

/-- The big-endian number of the low `n` bytes of a value is the value modulo 2^(8n). -/
theorem bigEndian_busByte (v : Word64) (n : Nat) :
    bigEndian (fun i => v.extractLsb' (8 * (n - 1 - i)) 8) n = v.toNat % 2 ^ (8 * n) := by
  induction n generalizing v with
  | zero => simp [bigEndian, Nat.mod_one]
  | succ n ih =>
    rw [bigEndian_succ]
    have e : bigEndian (fun i => v.extractLsb' (8 * (n + 1 - 1 - i)) 8) n =
        bigEndian (fun i => (v >>> 8).extractLsb' (8 * (n - 1 - i)) 8) n := by
      apply bigEndian_congr
      intro i hi
      apply BitVec.eq_of_toNat_eq
      simp only [BitVec.extractLsb'_toNat, BitVec.toNat_ushiftRight, ← Nat.shiftRight_add]
      rw [show 8 + 8 * (n - 1 - i) = 8 * (n + 1 - 1 - i) by omega]
    rw [e, ih]
    simp only [BitVec.toNat_ushiftRight, BitVec.extractLsb'_toNat, Nat.shiftRight_eq_div_pow]
    have : 2 ^ (8 * (n + 1)) = 256 * 2 ^ (8 * n) := by rw [Nat.mul_succ, Nat.pow_add, Nat.mul_comm]
    rw [this, Nat.mod_mul, show 8 * (n + 1 - 1 - n) = 0 by omega]
    rw [show (2 : Nat) ^ 8 = 256 from rfl, Nat.pow_zero, Nat.div_one]
    omega

/-- A RAM read after a RAM write of the same bytes returns the low bytes of what was written. -/
theorem toNat_readBytes_writeBytes (m : Memory) (a : BusAddr) (n : Nat) (v : Word64) (hn : n ≤ 8) :
    (readBytes (writeBytes m a n v) a n).toNat = v.toNat % 2 ^ (8 * n) := by
  rw [toNat_readBytes _ _ _ hn, ← bigEndian_busByte]
  exact bigEndian_congr fun i hi => read_writeBytes m a n v i hi (by omega)

theorem toNat_lowBytes (n : Width) (v : Word64) : (lowBytes n v).toNat = v.toNat % 2 ^ (8 * n.bytes) := by
  have h : v.toNat % 2 ^ (8 * n.bytes) ≤ v.toNat := Nat.mod_le _ _
  have := v.isLt
  simp only [lowBytes, BitVec.toNat_setWidth]
  exact Nat.mod_eq_of_lt (by omega)

/-- What crosses the bus, as a mask. -/
theorem lowBytes_eq_and (n : Width) (v : Word64) : lowBytes n v = v &&& BitVec.ofNat 64 (2 ^ (8 * n.bytes) - 1) := by
  apply BitVec.eq_of_toNat_eq
  rw [toNat_lowBytes, BitVec.toNat_and, BitVec.toNat_ofNat]
  cases n <;> simp only [Width.bytes] <;> exact (Nat.and_two_pow_sub_one_eq_mod _ _).symm

/-! ### The host's writes -/

theorem wf_pokeBytes {allowed : BusAddr → Bool} {p : Params} {m : Memory} (l : List Host.Cell) (h : Memory.wf m) :
    Memory.wf (pokeBytes allowed p m l) := by
  induction l generalizing m with
  | nil => exact h
  | cons c l ih =>
    obtain ⟨a, b⟩ := c
    unfold pokeBytes
    split
    · exact ih (Memory.wf_write _ _ h)
    · exact ih h

theorem wf_copyImage {m : Memory} (a : Nat) (image : List Byte) (h : Memory.wf m) :
    Memory.wf (copyImage m a image) := by
  induction image generalizing m a with
  | nil => exact h
  | cons b image ih => exact ih _ (Memory.wf_write _ _ h)

theorem lastByteAt_cons (a : Nat) (b : Byte) (l : List Host.Cell) (x : BusAddr) :
    lastByteAt ((a, b) :: l) x = (lastByteAt l x).or (if a = x.toNat then some b else none) := by
  unfold lastByteAt
  rw [List.reverse_cons, List.find?_append, Option.map_or]
  by_cases e : a = x.toNat <;> simp [e]

/-- What the host's direct writes leave at an address: the byte of the last pair at it, where the address is one the
host may write, else what was there. -/
theorem read_pokeBytes (allowed : BusAddr → Bool) (p : Params) (m : Memory) (l : List Host.Cell) (x : BusAddr) :
    Memory.read (pokeBytes allowed p m l) x.toNat =
      if inRam p x = true ∧ allowed x = true then (lastByteAt l x).getD (Memory.read m x.toNat)
      else Memory.read m x.toNat := by
  induction l generalizing m with
  | nil => simp [pokeBytes, lastByteAt]
  | cons c l ih =>
    obtain ⟨a, b⟩ := c
    have hx := x.isLt
    rw [lastByteAt_cons]
    by_cases e : a = x.toNat
    · subst e
      unfold pokeBytes
      simp only [BitVec.ofNat_toNat, BitVec.setWidth_eq]
      split <;> rw [ih] <;> cases lastByteAt l x <;> simp_all [Memory.read_write]
    · unfold pokeBytes
      rw [if_neg e, Option.or_none]
      have hw : Memory.read (Memory.write m a b) x.toNat = Memory.read m x.toNat := by
        rw [Memory.read_write, if_neg fun h => e h.symm]
      split <;> rw [ih]
      rw [hw]

/-- What an image copy leaves at an address: the image's byte where the image covers it, else what was there. -/
theorem read_copyImage (m : Memory) (a : Nat) (image : List Byte) (x : Nat) :
    Memory.read (copyImage m a image) x =
      if h : a ≤ x ∧ x < a + image.length then image[x - a] else Memory.read m x := by
  induction image generalizing m a with
  | nil => simp [copyImage]
  | cons b image ih =>
    rw [copyImage, ih]
    by_cases h1 : a + 1 ≤ x ∧ x < a + 1 + image.length
    · rw [dif_pos h1, dif_pos (by simp; omega), List.getElem_cons, dif_neg (by omega)]
      congr 1
    · rw [dif_neg h1, Memory.read_write]
      by_cases h2 : a = x
      · subst h2; simp
      · rw [if_neg (by omega), dif_neg (by simp at *; omega)]

/-- The memory of the reset state is in canonical form. -/
theorem wf_reset_mem : Memory.wf State.reset.mem := by decide

end Machine
end Sys2Proof
end

