-- ==== Sys2Proof/Laws/Bus.lean ====
section
/-! SUPPORT. The laws of the bus: regions, the classification, and what each access primitive can do. -/

namespace Sys2Proof
namespace Machine

/-! ### Regions (20_memory.md R63) -/

theorem rangeHolds_iff (r : BusRange) (a : BusAddr) : rangeHolds r a = true ↔ InRange r a := by
  simp only [rangeHolds, InRange, Bool.and_eq_true, decide_eq_true_eq]; rfl

theorem region_some {p : Params} {a : BusAddr} {r : BusRange} (h : region p a = some r) :
    r ∈ p.ranges ∧ InRange r a :=
  ⟨List.mem_of_find?_eq_some h, (rangeHolds_iff r a).1 (List.find?_some (p := (rangeHolds · a)) h)⟩

theorem region_none {p : Params} {a : BusAddr} (h : region p a = none) : ∀ r ∈ p.ranges, ¬ InRange r a := by
  intro r hr hi
  exact absurd ((rangeHolds_iff r a).2 hi) (by simpa using List.find?_eq_none.1 h r hr)

theorem inRam_iff (p : Params) (a : BusAddr) : inRam p a = true ↔ ∃ r, region p a = some r ∧ r.kind = .ram := by
  unfold inRam
  cases region p a <;> simp

/-- Disjoint ranges share no address. -/
theorem not_both_inRange {r q : BusRange} {a : BusAddr} (h : r.disjoint q) : ¬ (InRange r a ∧ InRange q a) := by
  rintro ⟨⟨h1, h2⟩, h3, h4⟩
  rcases h with h | h <;> simp only [BusRange.limit] at h <;> omega

/-- In an admissible table the range that holds an address is its region. -/
theorem region_of_mem {p : Params} (hp : p.wf) {a : BusAddr} {r : BusRange} (hr : r ∈ p.ranges) (h : InRange r a) :
    region p a = some r := by
  obtain ⟨-, hd, -, -⟩ := hp
  unfold region
  generalize p.ranges = l at hd hr
  induction l with
  | nil => cases hr
  | cons q l ih =>
    obtain ⟨hq, hl⟩ := List.pairwise_cons.1 hd
    rcases List.mem_cons.1 hr with rfl | hr
    · simp [(rangeHolds_iff r a).2 h]
    · have : rangeHolds q a = false := by
        rw [Bool.eq_false_iff, Ne, rangeHolds_iff]
        exact fun h' => not_both_inRange (hq r hr) ⟨h', h⟩
      rw [List.find?_cons, this]
      exact ih hl hr

/-- Ranges start and end on multiples of 8 (R61), so two addresses in one aligned doubleword are in one region. -/
theorem region_same_block {p : Params} (hp : p.wf) {a b : BusAddr} (h : a.toNat / 8 = b.toNat / 8) :
    region p a = region p b := by
  obtain ⟨-, -, -, ha⟩ := hp
  unfold region
  generalize p.ranges = l at ha
  induction l with
  | nil => rfl
  | cons q l ih =>
    have hq : rangeHolds q a = rangeHolds q b := by
      have := ha q List.mem_cons_self
      rw [Bool.eq_iff_iff, rangeHolds_iff, rangeHolds_iff]
      simp only [BusRange.aligned, InRange] at *
      omega
    rw [List.find?_cons, List.find?_cons, hq, ih fun r hr => ha r (List.mem_cons_of_mem _ hr)]

theorem alignReq_iff {p : Params} (hp : p.wf) (a : BusAddr) : alignReq (region p a) = true ↔ NeedsAlignment p a := by
  constructor
  · intro h
    cases hr : region p a with
    | none => rw [hr] at h; cases h
    | some r =>
      rw [hr] at h
      obtain ⟨hm, hi⟩ := region_some hr
      refine ⟨r, hm, hi, ?_⟩
      simp only [alignReq] at h
      split at h
      · exact .inl ‹_›
      · subst h; exact .inr ⟨_, ‹_›⟩
  · rintro ⟨r, hm, hi, h⟩
    rw [region_of_mem hp hm hi]
    rcases h with h | ⟨d, h⟩ <;> simp [alignReq, h]

/-! ### Classification (20_memory.md R64, R65) -/

theorem Width.bytes_le (n : Width) : n.bytes ≤ 8 := by cases n <;> decide

theorem Width.bytes_pos (n : Width) : 0 < n.bytes := by cases n <;> decide

/-- The span test, as a statement about each byte. -/
theorem spanTest_iff (p : Params) (a : BusAddr) (n : Width) :
    ((List.range n.bytes).all fun i => region p (byteAddr a i) == region p a) = true ↔
      ∀ i < n.bytes, region p (byteAddr a i) = region p a := by
  simp [List.all_eq_true, List.mem_range]

/-- What a successful classification says. -/
theorem classify_ok {p : Params} {a : BusAddr} {n : Width} {route : Route} (h : classify p a n = .ok route) :
    ¬ (1 < n.bytes ∧ a.toNat % n.bytes ≠ 0 ∧ alignReq (region p a) = true) ∧
      (∀ i < n.bytes, region p (byteAddr a i) = region p a) ∧ route = routeOf (region p a) a := by
  unfold classify at h
  split at h
  · cases h
  · split at h
    · rename_i h1 h2
      injection h with h
      exact ⟨h1, (spanTest_iff p a n).1 h2, h.symm⟩
    · cases h

theorem classify_of {p : Params} {a : BusAddr} {n : Width}
    (h1 : ¬ (1 < n.bytes ∧ a.toNat % n.bytes ≠ 0 ∧ alignReq (region p a) = true))
    (h2 : ∀ i < n.bytes, region p (byteAddr a i) = region p a) : classify p a n = .ok (routeOf (region p a) a) := by
  unfold classify
  rw [if_neg h1, if_pos ((spanTest_iff p a n).2 h2)]

/-- A RAM route: the region of every byte is the one RAM range. -/
theorem classify_ramAt {p : Params} {a : BusAddr} {n : Width} {k : BusRange} {off : Nat}
    (h : classify p a n = .ok (.ramAt k off)) :
    k.kind = .ram ∧ off = a.toNat - k.base.toNat ∧ ∀ i < n.bytes, region p (byteAddr a i) = some k := by
  obtain ⟨-, hs, hr⟩ := classify_ok h
  unfold routeOf at hr
  split at hr
  · cases hr
  · rename_i r hreg
    split at hr
    · injection hr with h1 h2
      subst h1
      exact ⟨‹_›, h2, fun i hi => (hs i hi).trans hreg⟩
    · cases hr

/-- A byte access is classified by the region of its address alone. -/
theorem classify_byte (p : Params) (a : BusAddr) : classify p a .byte = .ok (routeOf (region p a) a) := by
  apply classify_of
  · rintro ⟨h, -⟩; exact absurd h (by decide)
  · intro i hi
    obtain rfl : i = 0 := Nat.lt_one_iff.1 hi
    rw [byteAddr_zero]

theorem classify_byte_ram {p : Params} {a : BusAddr} (h : inRam p a = true) :
    ∃ k off, classify p a .byte = .ok (.ramAt k off) := by
  obtain ⟨r, hr, hk⟩ := (inRam_iff p a).1 h
  exact ⟨r, a.toNat - r.base.toNat, by rw [classify_byte, hr]; simp [routeOf, hk]⟩

/-- The bytes of an aligned access stay in one aligned doubleword. -/
theorem byteAddr_block {a : BusAddr} {n : Width} (h : a.toNat % n.bytes = 0) {i : Nat} (hi : i < n.bytes) :
    (byteAddr a i).toNat = a.toNat + i ∧ (byteAddr a i).toNat / 8 = a.toNat / 8 := by
  have := a.isLt
  rw [byteAddr_toNat]
  cases n <;> simp only [Width.bytes] at h hi <;> omega

/-- An aligned access is never in error in an admissible table (R65). -/
theorem classify_aligned {p : Params} (hp : p.wf) {a : BusAddr} {n : Width} (h : a.toNat % n.bytes = 0) :
    classify p a n = .ok (routeOf (region p a) a) := by
  apply classify_of
  · rintro ⟨-, h', -⟩; exact h' h
  · intro i hi
    exact region_same_block hp (byteAddr_block h hi).2

/-! ### The access primitives (20_memory.md R66, R67) -/

theorem memRead_error {s : State} {a : BusAddr} {n : Width} {sub : AddrSub}
    (h : classify s.params a n = .error sub) : memRead s a n = .error sub := by
  unfold memRead; rw [h]

theorem memWrite_error {s : State} {a : BusAddr} {n : Width} {v : Word64} {sub : AddrSub}
    (h : classify s.params a n = .error sub) : memWrite s a n v = .error sub := by
  unfold memWrite; rw [h]

/-- All that a read can do by a route: it returns that route's value and adds that route's event. -/
theorem memRead_ok {s : State} {a : BusAddr} {n : Width} {route : Route} (h : classify s.params a n = .ok route) :
    ∃ v u, memRead s a n = .ok (v, u) ∧ ReadReturns s a n v route ∧ ReadEvents s u a n v route ∧
      u = { s with devLog := u.devLog, devReplies := u.devReplies } := by
  unfold memRead; rw [h]
  cases route with
  | ramAt k off =>
    exact ⟨_, _, rfl, toNat_readBytes _ _ _ (Width.bytes_le n), ⟨rfl, rfl⟩, rfl⟩
  | devAt d => exact ⟨_, _, rfl, rfl, ⟨rfl, rfl⟩, rfl⟩
  | unmapped => exact ⟨_, _, rfl, toNat_fillBytes _ _ (Width.bytes_le n), ⟨rfl, rfl⟩, rfl⟩

/-- All that a write can do by a route: it stores that route's bytes and adds that route's event. -/
theorem memWrite_ok {s : State} {a : BusAddr} {n : Width} (v : Word64) {route : Route}
    (h : classify s.params a n = .ok route) :
    ∃ t, memWrite s a n v = .ok t ∧ WrittenBytes s t a n v route ∧ WriteEvents s t a n v route ∧
      t = { s with mem := t.mem, devLog := t.devLog } := by
  unfold memWrite; rw [h]
  cases route with
  | ramAt k off =>
    refine ⟨_, rfl, ⟨fun i hi => ?_, fun x hx => ?_⟩, ⟨rfl, rfl⟩, rfl⟩
    · exact read_writeBytes s.mem a n.bytes v i hi (Nat.le_trans (Width.bytes_le n) (by decide))
    · exact read_writeBytes_of_ne s.mem a n.bytes v x hx
  | devAt d =>
    refine ⟨_, rfl, fun x => rfl, ⟨?_, rfl⟩, rfl⟩
    rw [deviceWrite_devLog, lowBytes_eq_and]
  | unmapped => exact ⟨_, rfl, fun x => rfl, ⟨rfl, rfl⟩, rfl⟩

/-- A read changes nothing but the device record. -/
theorem memRead_frame {s u : State} {a : BusAddr} {n : Width} {v : Word64} (h : memRead s a n = .ok (v, u)) :
    u = { s with devLog := u.devLog, devReplies := u.devReplies } := by
  unfold memRead at h
  split at h <;> cases h <;> rfl

/-- A write changes nothing but memory and the device record. -/
theorem memWrite_frame {s t : State} {a : BusAddr} {n : Width} {v : Word64} (h : memWrite s a n v = .ok t) :
    t = { s with mem := t.mem, devLog := t.devLog } := by
  unfold memWrite at h
  split at h <;> cases h <;> rfl

/-- A write leaves every byte outside its access as it was. -/
theorem memWrite_byteAt_of_ne {s t : State} {a : BusAddr} {n : Width} {v : Word64} (h : memWrite s a n v = .ok t)
    (x : BusAddr) (hx : ∀ i < n.bytes, x ≠ byteAddr a i) : t.byteAt x = s.byteAt x := by
  unfold memWrite at h
  split at h <;> cases h
  · exact read_writeBytes_of_ne s.mem a n.bytes v x hx
  · rfl
  · rfl

/-- A write keeps the memory's canonical form. -/
theorem wf_memWrite {s t : State} {a : BusAddr} {n : Width} {v : Word64} (h : memWrite s a n v = .ok t)
    (hm : Memory.wf s.mem) : Memory.wf t.mem := by
  unfold memWrite at h
  split at h <;> cases h
  · exact wf_writeBytes _ _ _ hm
  · exact hm
  · exact hm

/-- A write lists no byte outside RAM. -/
theorem memoryIsRam_memWrite {s t : State} {a : BusAddr} {n : Width} {v : Word64} (h : memWrite s a n v = .ok t)
    (hm : MemoryIsRam s) : MemoryIsRam t := by
  unfold memWrite at h
  split at h
  · cases h
  · rename_i k off hc
    cases h
    intro c hcm
    rcases mem_writeBytes hcm with hcm | ⟨i, hi, e⟩
    · exact hm c hcm
    · obtain ⟨hk, -, hs⟩ := classify_ramAt hc
      rw [e]
      refine ⟨(byteAddr a i).isLt, ?_⟩
      rw [BitVec.ofNat_toNat, BitVec.setWidth_eq, inRam_iff]
      exact ⟨k, hs i hi, hk⟩
  · cases h; exact hm
  · cases h; exact hm

/-! ### Byte after byte (43_loadstore.md R248) -/

/-- A byte write always completes. -/
theorem memWrite_byte (s : State) (a : BusAddr) (v : Word64) : ∃ t, memWrite s a .byte v = .ok t := by
  obtain ⟨t, h, -⟩ := memWrite_ok (s := s) v (classify_byte s.params a)
  exact ⟨t, h⟩

theorem storeBytes_frame (s : State) (l : List (BusAddr × Byte)) :
    storeBytes s l = { s with mem := (storeBytes s l).mem, devLog := (storeBytes s l).devLog } := by
  induction l generalizing s with
  | nil => rfl
  | cons c l ih =>
    obtain ⟨a, b⟩ := c
    obtain ⟨t, h⟩ := memWrite_byte s a (b.setWidth 64)
    simp only [storeBytes, h]
    rw [ih t, memWrite_frame h]

theorem wf_storeBytes {s : State} (l : List (BusAddr × Byte)) (hm : Memory.wf s.mem) :
    Memory.wf (storeBytes s l).mem := by
  induction l generalizing s with
  | nil => exact hm
  | cons c l ih =>
    obtain ⟨a, b⟩ := c
    obtain ⟨t, h⟩ := memWrite_byte s a (b.setWidth 64)
    simp only [storeBytes, h]
    exact ih (wf_memWrite h hm)

theorem memoryIsRam_storeBytes {s : State} (l : List (BusAddr × Byte)) (hm : MemoryIsRam s) :
    MemoryIsRam (storeBytes s l) := by
  induction l generalizing s with
  | nil => exact hm
  | cons c l ih =>
    obtain ⟨a, b⟩ := c
    obtain ⟨t, h⟩ := memWrite_byte s a (b.setWidth 64)
    simp only [storeBytes, h]
    exact ih (memoryIsRam_memWrite h hm)

/-- One byte write, by the place of its address. -/
theorem memWrite_byte_eq (s : State) (a : BusAddr) (b : Byte) :
    memWrite s a .byte (b.setWidth 64) = .ok
      { s with
        mem := if inRam s.params a = true then Memory.write s.mem a.toNat b else s.mem
        devLog := s.devLog ++ byteEvents s.params [(a, b)] } := by
  have hc := classify_byte s.params a
  cases hr : region s.params a with
  | none =>
    rw [hr] at hc
    have hn : inRam s.params a = false := by simp [inRam, hr]
    simp [memWrite, byteEvents, hc, routeOf, hn]
  | some r =>
    rw [hr] at hc
    cases hk : r.kind with
    | ram =>
      have hn : inRam s.params a = true := by simp [inRam, hr, hk]
      simp [memWrite, byteEvents, hc, routeOf, hk, hn, Width.bytes, writeBytes]
    | device d f =>
      have hn : inRam s.params a = false := by simp [inRam, hr, hk]
      simp [memWrite, byteEvents, hc, routeOf, hk, hn, deviceWrite, lowBytes, Width.bytes]

theorem storeBytes_devLog (s : State) (l : List (BusAddr × Byte)) :
    (storeBytes s l).devLog = s.devLog ++ byteEvents s.params l := by
  induction l generalizing s with
  | nil => simp [storeBytes, byteEvents]
  | cons c l ih =>
    obtain ⟨a, b⟩ := c
    simp only [storeBytes, memWrite_byte_eq]
    rw [ih, List.append_assoc]
    congr 1
    show byteEvents s.params [(a, b)] ++ byteEvents s.params l = byteEvents s.params ([(a, b)] ++ l)
    unfold byteEvents
    rw [List.filterMap_append]

/-- A byte that is not listed, or not RAM, is unchanged. -/
theorem storeBytes_byteAt_of_ne (s : State) (l : List (BusAddr × Byte)) (x : BusAddr)
    (h : (∀ c ∈ l, x ≠ c.1) ∨ inRam s.params x = false) : (storeBytes s l).byteAt x = s.byteAt x := by
  induction l generalizing s with
  | nil => rfl
  | cons c l ih =>
    obtain ⟨a, b⟩ := c
    simp only [storeBytes, memWrite_byte_eq]
    refine (ih _ ?_).trans ?_
    · exact h.imp (fun h c hc => h c (List.mem_cons_of_mem _ hc)) id
    show Memory.read (if inRam s.params a = true then Memory.write s.mem a.toNat b else s.mem) x.toNat = _
    split
    · rename_i hr
      rw [Memory.read_write, if_neg, State.byteAt]
      intro e
      have e := BitVec.eq_of_toNat_eq e
      rcases h with h | h
      · exact h _ List.mem_cons_self e
      · rw [e, hr] at h; cases h
    · rfl

/-- A listed RAM byte is stored, where the listed addresses are distinct. -/
theorem storeBytes_byteAt (s : State) (l : List (BusAddr × Byte)) (hl : l.Pairwise fun c d => c.1 ≠ d.1)
    (c : BusAddr × Byte) (hc : c ∈ l) (hr : inRam s.params c.1 = true) : (storeBytes s l).byteAt c.1 = c.2 := by
  induction l generalizing s with
  | nil => cases hc
  | cons d l ih =>
    obtain ⟨a, b⟩ := d
    obtain ⟨hd, hl⟩ := List.pairwise_cons.1 hl
    simp only [storeBytes, memWrite_byte_eq]
    rcases List.mem_cons.1 hc with rfl | hc
    · rw [storeBytes_byteAt_of_ne _ _ _ (.inl fun c hc => hd c hc)]
      simp [State.byteAt, hr, Memory.read_write]
    · exact ih _ hl hc hr

end Machine
end Sys2Proof
end

