-- ==== Sys2Proof/Laws/Exec.lean ====
section
/-! SUPPORT. One lemma for each operation the instructions share: all that it can do, in the terms of Safety.lean. -/

namespace Sys2Proof
namespace Machine

/-! ### Completing -/

theorem regWritten_setReg (s : State) (rd : Reg) (v : Word64) : RegWritten s (s.setReg rd v) rd v := by
  refine ⟨?_, fun r h => reg_setReg_ne s rd r v h⟩
  rw [reg_setReg_same]; rfl

/-- The sequencer's part, whatever the instruction wrote. -/
theorem sequenced_advance {s u : State} (br : Request) (hpc : u.pc = s.pc) (hpend : u.pend = s.pend)
    (hrun : u.run = s.run) (hparams : u.params = s.params) : Sequenced br s (u.advance br) := by
  refine ⟨by simp [hrun], by simp [hparams], ?_⟩
  rw [advance_pc, advance_pend, hpc, hpend]
  cases s.pend <;> cases br <;> exact ⟨rfl, rfl⟩

/-- `complete` on the state itself: nothing written. -/
theorem complete_spec (br : Request) (s : State) : ∃ t, complete br s = .next t ∧ WritesNothing br s t := by
  refine ⟨_, rfl, fun r => by simp, ⟨by simp, by simp, by simp⟩, fun a => by simp, ⟨by simp, by simp⟩, ?_⟩
  exact sequenced_advance br rfl rfl rfl rfl

/-- `complete` on a state with one register written. -/
theorem complete_setReg_spec (br : Request) (rd : Reg) (v : Word64) (s : State) :
    ∃ t, complete br (s.setReg rd v) = .next t ∧ WritesReg br s t rd v := by
  obtain ⟨h1, h2⟩ := regWritten_setReg s rd v
  refine ⟨_, rfl, ⟨by rw [advance_reg]; exact h1, fun r h => by rw [advance_reg]; exact h2 r h⟩,
    ⟨by simp, by simp, by simp⟩, fun a => by simp, ⟨by simp, by simp⟩, ?_⟩
  exact sequenced_advance br (by simp) (by simp) (by simp) (by simp)

theorem completeReg_spec (rd : Reg) (v : Word64) (s : State) :
    ∃ t, completeReg rd v s = .next t ∧ WritesReg .none s t rd v :=
  complete_setReg_spec .none rd v s

theorem completeLink_spec (rd : Reg) (br : Request) (s : State) :
    ∃ t, completeLink rd br s = .next t ∧ WritesReg br s t rd (s.pc + 8) :=
  complete_setReg_spec br rd (s.pc + 8) s

theorem completeHiLo_spec (hi lo : Word64) (s : State) :
    ∃ t, completeHiLo hi lo s = .next t ∧ WritesHiLo s t hi lo := by
  refine ⟨_, rfl, by simp, by simp, by simp, fun r => by simp, fun a => by simp, ⟨by simp, by simp⟩, ?_⟩
  exact sequenced_advance .none rfl rfl rfl rfl

/-! ### Division by zero (42_muldiv.md R210, R216) -/

@[simp] theorem low32_wordResult (v : Word32) : low32 (wordResult v) = v := by
  unfold low32 wordResult
  apply BitVec.eq_of_getLsbD_eq
  intro i hi
  rw [BitVec.getLsbD_setWidth, BitVec.getLsbD_signExtend, if_pos hi]
  simp [hi, Nat.lt_trans hi (show 32 < 64 by decide)]

/-- Division by zero completes with what DIV0 gives: the table of R216, or the free value. -/
theorem completeDivByZero_spec (op : DivOp) (dividend : Word64) (s : State) :
    ∃ t, completeDivByZero op dividend s = .next t ∧
      match s.params.div0 with
      | .standard => WritesHiLo s t (div0Standard op dividend).2 (div0Standard op dividend).1
      | .free => WritesHiLo s t (Config.divByZero op dividend).2 (Config.divByZero op dividend).1 := by
  obtain ⟨t, h, hw⟩ := completeHiLo_spec (div0 s.params.div0 op dividend).2 (div0 s.params.div0 op dividend).1 s
  refine ⟨t, h, ?_⟩
  cases hd : s.params.div0 <;> rw [hd] at hw <;> exact hw

/-- The default table of R216 for a word dividend: its pair is of sign-extended words already. -/
theorem div0Standard_word (op : DivOp) (h : op = .div ∨ op = .divu) (v : Word32) :
    wordResult (low32 (div0Standard op (wordResult v)).1) = (div0Standard op (wordResult v)).1 ∧
      (div0Standard op (wordResult v)).2 = wordResult v := by
  rcases h with rfl | rfl <;> simp only [div0Standard, low32_wordResult, and_true]
  · split <;> rfl
  · rfl

/-- Division by zero of a word completes with the table of R216, or with W of what the free value gives. -/
theorem completeWordDivByZero_spec (op : DivOp) (h : op = .div ∨ op = .divu) (v : Word32) (s : State) :
    ∃ t, completeWordDivByZero op v s = .next t ∧
      match s.params.div0 with
      | .standard => WritesHiLo s t (wordResult v) (div0Standard op (wordResult v)).1
      | .free => WritesHiLo s t (wordResult (low32 (Config.divByZero op (wordResult v)).2))
          (wordResult (low32 (Config.divByZero op (wordResult v)).1)) := by
  obtain ⟨h1, h2⟩ := div0Standard_word op h v
  obtain ⟨t, ht, hw⟩ := completeHiLo_spec (wordResult (low32 (div0 s.params.div0 op (wordResult v)).2))
    (wordResult (low32 (div0 s.params.div0 op (wordResult v)).1)) s
  refine ⟨t, ht, ?_⟩
  cases hd : s.params.div0 <;> rw [hd] at hw
  · simpa only [div0, h1, h2, low32_wordResult] using hw
  · exact hw

/-! ### Raising -/

theorem raiseInstr_eq (k : ExcKind) (i : Instr) (s : State) : raiseInstr k i s =
    .next { s with run := faultedIn s k ((encode i).setWidth 64) (some (encode i)) } := rfl

theorem raiseAddress_eq (sub : AddrSub) (acc : Access) (ea : Word64) (i : Instr) (s : State) :
    raiseAddress sub acc ea i s =
      .next { s with run := faultedIn s (.addressError sub acc) ea (some (encode i)) } := rfl

theorem execReserved_eq (w : Word32) (s : State) : execReserved w s =
    .next { s with run := faultedIn s .reservedInstruction (w.setWidth 64) (some w) } := rfl

theorem trapIf_true {c : Bool} (h : c = true) (i : Instr) (s : State) : trapIf c i s =
    .next { s with run := faultedIn s .trap ((encode i).setWidth 64) (some (encode i)) } := by
  unfold trapIf; rw [if_pos h]; rfl

theorem trapIf_false {c : Bool} (h : c = false) (i : Instr) (s : State) :
    ∃ t, trapIf c i s = .next t ∧ WritesNothing .none s t := by
  unfold trapIf; rw [if_neg (by simp [h])]; exact complete_spec .none s

/-! ### Exact results (41_alu.md R190) -/

theorem exact32_some {x : Int} (h : -2 ^ 31 ≤ x ∧ x ≤ 2 ^ 31 - 1) : exact32 x = some (BitVec.ofInt 32 x) := by
  unfold exact32; rw [if_neg]; omega

theorem exact32_none {x : Int} (h : x < -2 ^ 31 ∨ 2 ^ 31 - 1 < x) : exact32 x = none := by
  unfold exact32; rw [if_pos]; omega

theorem exact64_some {x : Int} (h : -2 ^ 63 ≤ x ∧ x ≤ 2 ^ 63 - 1) : exact64 x = some (BitVec.ofInt 64 x) := by
  unfold exact64; rw [if_neg]; omega

theorem exact64_none {x : Int} (h : x < -2 ^ 63 ∨ 2 ^ 63 - 1 < x) : exact64 x = none := by
  unfold exact64; rw [if_pos]; omega

theorem writeOrOverflow_some (i : Instr) (rd : Reg) (v : Word64) (s : State) :
    ∃ t, writeOrOverflow i rd (some v) s = .next t ∧ WritesReg .none s t rd v :=
  completeReg_spec rd v s

theorem writeOrOverflow_none (i : Instr) (rd : Reg) (s : State) : writeOrOverflow i rd none s =
    .next { s with run := faultedIn s .arithmeticOverflow ((encode i).setWidth 64) (some (encode i)) } := rfl

/-! ### Loads -/

theorem loadReg_ok (i : Instr) {n : Width} {a : BusAddr} (ea : Word64) (f : Word64 → Word64) (rt : Reg) {s : State}
    {route : Route} (h : classify s.params a n = .ok route) :
    ∃ t, loadReg i n a ea f rt s = .next t ∧ Loaded s t a n route rt f s.llbit := by
  obtain ⟨v, u, hr, hv, he, hu⟩ := memRead_ok h
  obtain ⟨t, ht, ⟨hrd, hrest⟩, ⟨hhi, hlo, hll⟩, hm, ⟨hd1, hd2⟩, hs⟩ := completeReg_spec rt (f v) u
  refine ⟨t, by unfold loadReg; rw [hr]; exact ht, v, hv, ?_, ⟨hrd, ?_⟩, ?_, ?_, ?_, ?_, ?_⟩
  · cases route <;> simp only [ReadEvents, SameDevices] at he ⊢ <;> rw [hd1, hd2] <;> exact he
  · intro r hne; rw [hrest r hne, hu]; rfl
  · rw [hhi, hu]
  · rw [hlo, hu]
  · rw [hll, hu]
  · intro x; rw [hm x, hu]; rfl
  · rw [hu] at hs; exact hs

theorem loadReg_error (i : Instr) {n : Width} {a : BusAddr} (ea : Word64) (f : Word64 → Word64) (rt : Reg) {s : State}
    {sub : AddrSub} (h : classify s.params a n = .error sub) : loadReg i n a ea f rt s =
      .next { s with run := faultedIn s (.addressError sub .load) ea (some (encode i)) } := by
  unfold loadReg; rw [memRead_error h]; rfl

theorem loadLinked_ok (i : Instr) {n : Width} (ea : Word64) (f : Word64 → Word64) (rt : Reg) {s : State}
    {route : Route} (h : classify s.params (busAddr ea) n = .ok route) :
    ∃ t, loadLinked i n ea f rt s = .next t ∧ Loaded s t (busAddr ea) n route rt f true := by
  obtain ⟨v, u, hr, hv, he, hu⟩ := memRead_ok h
  obtain ⟨t, ht, ⟨hrd, hrest⟩, ⟨hhi, hlo, hll⟩, hm, ⟨hd1, hd2⟩, hs⟩ := completeReg_spec rt (f v) { u with llbit := true }
  refine ⟨t, by unfold loadLinked; rw [hr]; exact ht, v, hv, ?_, ⟨hrd, ?_⟩, ?_, ?_, ?_, ?_, ?_⟩
  · cases route <;> simp only [ReadEvents, SameDevices] at he ⊢ <;> rw [hd1, hd2] <;> exact he
  · intro r hne; rw [hrest r hne, hu]; rfl
  · rw [hhi, hu]
  · rw [hlo, hu]
  · rw [hll]
  · intro x; rw [hm x, hu]; rfl
  · rw [hu] at hs; exact hs

theorem loadLinked_error (i : Instr) {n : Width} (ea : Word64) (f : Word64 → Word64) (rt : Reg) {s : State}
    {sub : AddrSub} (h : classify s.params (busAddr ea) n = .error sub) : loadLinked i n ea f rt s =
      .next { s with run := faultedIn s (.addressError sub .load) ea (some (encode i)) } := by
  unfold loadLinked; rw [memRead_error h]; rfl

/-! ### Stores -/

/-- What a write stored survives the completion. -/
theorem writtenBytes_of_same {s u t : State} {a : BusAddr} {n : Width} {v : Word64} {route : Route}
    (h : WrittenBytes s u a n v route) (hm : SameMemory u t) : WrittenBytes s t a n v route := by
  cases route with
  | ramAt k off => exact ⟨fun i hi => (hm _).trans (h.1 i hi), fun x hx => (hm x).trans (h.2 x hx)⟩
  | devAt d => exact fun x => (hm x).trans (h x)
  | unmapped => exact fun x => (hm x).trans (h x)

theorem writeEvents_of_same {s u t : State} {a : BusAddr} {n : Width} {v : Word64} {route : Route}
    (h : WriteEvents s u a n v route) (hd : SameDevices u t) : WriteEvents s t a n v route := by
  obtain ⟨h1, h2⟩ := hd
  cases route <;> simp only [WriteEvents, SameDevices] at h ⊢ <;> rw [h1, h2] <;> exact h

theorem storeReg_ok (i : Instr) {n : Width} {ea : Word64} (v : Word64) {s : State} {route : Route}
    (h : classify s.params (busAddr ea) n = .ok route) :
    ∃ t, storeReg i n ea v s = .next t ∧ Stored s t (busAddr ea) n v route := by
  obtain ⟨u, hw, hb, he, hu⟩ := memWrite_ok v h
  obtain ⟨t, ht, hr, ⟨hhi, hlo, hll⟩, hm, hd, hs⟩ := complete_spec .none u
  refine ⟨t, by unfold storeReg; rw [hw]; exact ht, writtenBytes_of_same hb hm, writeEvents_of_same he hd,
    fun r => ?_, ⟨?_, ?_, ?_⟩, ?_⟩
  · rw [hr r, hu]; rfl
  · rw [hhi, hu]
  · rw [hlo, hu]
  · rw [hll, hu]
  · rw [hu] at hs; exact hs

theorem storeReg_error (i : Instr) {n : Width} {ea : Word64} (v : Word64) {s : State} {sub : AddrSub}
    (h : classify s.params (busAddr ea) n = .error sub) : storeReg i n ea v s =
      .next { s with run := faultedIn s (.addressError sub .store) ea (some (encode i)) } := by
  unfold storeReg; rw [memWrite_error h]; rfl

theorem storeConditional_error (i : Instr) {n : Width} {ea : Word64} (rt : Reg) {s : State} {sub : AddrSub}
    (h : classify s.params (busAddr ea) n = .error sub) : storeConditional i n ea rt s =
      .next { s with run := faultedIn s (.addressError sub .store) ea (some (encode i)) } := by
  unfold storeConditional; rw [h]; rfl

theorem storeConditional_clear (i : Instr) {n : Width} {ea : Word64} (rt : Reg) {s : State} {route : Route}
    (h : classify s.params (busAddr ea) n = .ok route) (hl : s.llbit = false) :
    ∃ t, storeConditional i n ea rt s = .next t ∧ WritesReg .none s t rt 0 := by
  unfold storeConditional; rw [h]; simp only [hl]
  exact completeReg_spec rt 0 s

theorem storeConditional_set (i : Instr) {n : Width} {ea : Word64} (rt : Reg) {s : State} {route : Route}
    (h : classify s.params (busAddr ea) n = .ok route) (hl : s.llbit = true) :
    ∃ t, storeConditional i n ea rt s = .next t ∧ WrittenBytes s t (busAddr ea) n (s.reg rt) route ∧
      WriteEvents s t (busAddr ea) n (s.reg rt) route ∧ RegWritten s t rt 1 ∧ SameControl s t ∧ Sequenced .none s t := by
  obtain ⟨u, hw, hb, he, hu⟩ := memWrite_ok (s.reg rt) h
  obtain ⟨t, ht, ⟨hrd, hrest⟩, ⟨hhi, hlo, hll⟩, hm, hd, hs⟩ := completeReg_spec rt 1 u
  refine ⟨t, ?_, writtenBytes_of_same hb hm, writeEvents_of_same he hd, ⟨hrd, ?_⟩, ⟨?_, ?_, ?_⟩, ?_⟩
  · unfold storeConditional; rw [h]; simp only [hl, if_true, hw]; exact ht
  · intro r hne; rw [hrest r hne, hu]; rfl
  · rw [hhi, hu]
  · rw [hlo, hu]
  · rw [hll, hu]
  · rw [hu] at hs; exact hs

/-- The unaligned-part stores, where the listed addresses are distinct. -/
theorem storeEach_spec (s : State) (l : List (BusAddr × Byte)) (hl : l.Pairwise fun c d => c.1 ≠ d.1) :
    ∃ t, complete .none (storeBytes s l) = .next t ∧ StoredEach s t l := by
  obtain ⟨t, ht, hr, ⟨hhi, hlo, hll⟩, hm, ⟨hd1, hd2⟩, hs⟩ := complete_spec .none (storeBytes s l)
  have hf := storeBytes_frame s l
  refine ⟨t, ht, fun c hc hram => (hm _).trans (storeBytes_byteAt s l hl c hc hram),
    fun x hx => (hm x).trans (storeBytes_byteAt_of_ne s l x hx), hd1.trans (storeBytes_devLog s l), ?_, fun r => ?_,
    ⟨?_, ?_, ?_⟩, ?_⟩
  · rw [hd2, hf]
  · rw [hr r, hf]; rfl
  · rw [hhi, hf]
  · rw [hlo, hf]
  · rw [hll, hf]
  · rw [hf] at hs; exact hs

/-- The bytes of an unaligned-part store have distinct addresses. -/
theorem pairwise_byteAddr (a : BusAddr) (n : Nat) (hn : n ≤ 8) (f : Nat → Byte) :
    ((List.range n).map fun i => (byteAddr a i, f i)).Pairwise fun c d => c.1 ≠ d.1 := by
  rw [List.pairwise_map]
  refine List.Pairwise.imp_of_mem ?_ List.nodup_range
  intro i j hi hj hne e
  have hi := List.mem_range.1 hi
  have hj := List.mem_range.1 hj
  exact hne (byteAddr_inj (by omega) (by omega) e)

end Machine
end Sys2Proof
end

