-- ==== Sys2Proof/Laws/Decode.lean ====
section
/-! SUPPORT. The fields of an encoded word, and a word put together from its fields (30_encoding.md R101 to R104). -/

namespace Sys2Proof

/-! ### A field of two parts put side by side -/

theorem extract_append_high {m n : Nat} (a : BitVec m) (b : BitVec n) {start len : Nat} (h : n ≤ start) :
    (a ++ b).extractLsb' start len = a.extractLsb' (start - n) len := by
  apply BitVec.eq_of_getLsbD_eq
  intro i hi
  rw [BitVec.getLsbD_extractLsb', BitVec.getLsbD_extractLsb', BitVec.getLsbD_append,
    if_neg (by omega), show start + i - n = start - n + i by omega]

theorem extract_append_low {m n : Nat} (a : BitVec m) (b : BitVec n) {start len : Nat} (h : start + len ≤ n) :
    (a ++ b).extractLsb' start len = b.extractLsb' start len := by
  apply BitVec.eq_of_getLsbD_eq
  intro i hi
  rw [BitVec.getLsbD_extractLsb', BitVec.getLsbD_extractLsb', BitVec.getLsbD_append, if_pos (by omega)]

theorem extract_whole {n : Nat} (a : BitVec n) : a.extractLsb' 0 n = a := by simp

/-- `x && y` field by field. -/
theorem and_append {m n : Nat} (a c : BitVec m) (b d : BitVec n) : (a ++ b) &&& (c ++ d) = (a &&& c) ++ (b &&& d) := by
  apply BitVec.eq_of_getLsbD_eq
  intro i hi
  simp only [BitVec.getLsbD_and, BitVec.getLsbD_append]
  split <;> rfl

/-! ### The R format -/

section RFormat
variable (rs rt rd sa : BitVec 5) (f : BitVec 6)

@[simp] theorem opOf_rWord : opOf (rWord rs rt rd sa f) = 0#6 := by
  unfold opOf rWord
  rw [extract_append_high _ _ (by decide), extract_append_high _ _ (by decide),
    extract_append_high _ _ (by decide), extract_append_high _ _ (by decide), extract_append_high _ _ (by decide)]
  exact extract_whole _
@[simp] theorem rsOf_rWord : rsOf (rWord rs rt rd sa f) = rs := by
  unfold rsOf rWord
  rw [extract_append_high _ _ (by decide), extract_append_high _ _ (by decide),
    extract_append_high _ _ (by decide), extract_append_high _ _ (by decide), extract_append_low _ _ (by decide)]
  exact extract_whole _
@[simp] theorem rtOf_rWord : rtOf (rWord rs rt rd sa f) = rt := by
  unfold rtOf rWord
  rw [extract_append_high _ _ (by decide), extract_append_high _ _ (by decide),
    extract_append_high _ _ (by decide), extract_append_low _ _ (by decide)]
  exact extract_whole _
@[simp] theorem rdOf_rWord : rdOf (rWord rs rt rd sa f) = rd := by
  unfold rdOf rWord
  rw [extract_append_high _ _ (by decide), extract_append_high _ _ (by decide),
    extract_append_low _ _ (by decide)]
  exact extract_whole _
@[simp] theorem saOf_rWord : saOf (rWord rs rt rd sa f) = sa := by
  unfold saOf rWord
  rw [extract_append_high _ _ (by decide), extract_append_low _ _ (by decide)]
  exact extract_whole _
@[simp] theorem functOf_rWord : functOf (rWord rs rt rd sa f) = f := by
  unfold functOf rWord
  rw [extract_append_low _ _ (by decide)]
  exact extract_whole _

end RFormat

/-! ### SYSCALL, BREAK and the register traps -/

section CodeFormats
variable (rs rt : BitVec 5) (code : BitVec 20) (code10 : BitVec 10) (f : BitVec 6)

@[simp] theorem opOf_codeWord : opOf (codeWord code f) = 0#6 := by
  unfold opOf codeWord
  rw [extract_append_high _ _ (by decide), extract_append_high _ _ (by decide)]
  exact extract_whole _
@[simp] theorem code20Of_codeWord : code20Of (codeWord code f) = code := by
  unfold code20Of codeWord
  rw [extract_append_high _ _ (by decide), extract_append_low _ _ (by decide)]
  exact extract_whole _
@[simp] theorem functOf_codeWord : functOf (codeWord code f) = f := by
  unfold functOf codeWord
  rw [extract_append_low _ _ (by decide)]
  exact extract_whole _
@[simp] theorem opOf_trapWord : opOf (trapWord rs rt code10 f) = 0#6 := by
  unfold opOf trapWord
  rw [extract_append_high _ _ (by decide), extract_append_high _ _ (by decide),
    extract_append_high _ _ (by decide), extract_append_high _ _ (by decide)]
  exact extract_whole _
@[simp] theorem rsOf_trapWord : rsOf (trapWord rs rt code10 f) = rs := by
  unfold rsOf trapWord
  rw [extract_append_high _ _ (by decide), extract_append_high _ _ (by decide),
    extract_append_high _ _ (by decide), extract_append_low _ _ (by decide)]
  exact extract_whole _
@[simp] theorem rtOf_trapWord : rtOf (trapWord rs rt code10 f) = rt := by
  unfold rtOf trapWord
  rw [extract_append_high _ _ (by decide), extract_append_high _ _ (by decide),
    extract_append_low _ _ (by decide)]
  exact extract_whole _
@[simp] theorem code10Of_trapWord : code10Of (trapWord rs rt code10 f) = code10 := by
  unfold code10Of trapWord
  rw [extract_append_high _ _ (by decide), extract_append_low _ _ (by decide)]
  exact extract_whole _
@[simp] theorem functOf_trapWord : functOf (trapWord rs rt code10 f) = f := by
  unfold functOf trapWord
  rw [extract_append_low _ _ (by decide)]
  exact extract_whole _

end CodeFormats

/-! ### The I and J formats -/

section IJFormats
variable (op : BitVec 6) (rs rt : BitVec 5) (imm : BitVec 16) (target : BitVec 26)

@[simp] theorem opOf_iWord : opOf (iWord op rs rt imm) = op := by
  unfold opOf iWord
  rw [extract_append_high _ _ (by decide), extract_append_high _ _ (by decide),
    extract_append_high _ _ (by decide)]
  exact extract_whole _
@[simp] theorem rsOf_iWord : rsOf (iWord op rs rt imm) = rs := by
  unfold rsOf iWord
  rw [extract_append_high _ _ (by decide), extract_append_high _ _ (by decide),
    extract_append_low _ _ (by decide)]
  exact extract_whole _
@[simp] theorem rtOf_iWord : rtOf (iWord op rs rt imm) = rt := by
  unfold rtOf iWord
  rw [extract_append_high _ _ (by decide), extract_append_low _ _ (by decide)]
  exact extract_whole _
@[simp] theorem immOf_iWord : immOf (iWord op rs rt imm) = imm := by
  unfold immOf iWord
  rw [extract_append_low _ _ (by decide)]
  exact extract_whole _
@[simp] theorem opOf_jWord : opOf (jWord op target) = op := by
  unfold opOf jWord
  rw [extract_append_high _ _ (by decide)]
  exact extract_whole _
@[simp] theorem targetOf_jWord : targetOf (jWord op target) = target := by
  unfold targetOf jWord
  rw [extract_append_low _ _ (by decide)]
  exact extract_whole _

end IJFormats

/-! ### A word from its fields -/

/-- Two neighbouring fields are one field. -/
theorem extract_join (w : Word32) {start mid len : Nat} (h : start + len = mid) (top : Nat) :
    w.extractLsb' mid top ++ w.extractLsb' start len = w.extractLsb' start (top + len) := by
  subst h
  apply BitVec.eq_of_getLsbD_eq
  intro i hi
  simp only [BitVec.getLsbD_append, BitVec.getLsbD_extractLsb']
  split
  · rw [decide_eq_true ‹_›, decide_eq_true hi]
  · rw [decide_eq_true (show i - len < top by omega), decide_eq_true hi,
      show start + len + (i - len) = start + i by omega]

theorem iWord_of_fields {w : Word32} {op : BitVec 6} {rs rt : BitVec 5} {imm : BitVec 16} (h1 : opOf w = op)
    (h2 : rsOf w = rs) (h3 : rtOf w = rt) (h4 : immOf w = imm) : iWord op rs rt imm = w := by
  subst h1 h2 h3 h4
  unfold iWord opOf rsOf rtOf immOf
  rw [extract_join w (by rfl), extract_join w (by rfl), extract_join w (by rfl)]
  exact extract_whole w

theorem jWord_of_fields {w : Word32} {op : BitVec 6} {target : BitVec 26} (h1 : opOf w = op)
    (h2 : targetOf w = target) : jWord op target = w := by
  subst h1 h2
  unfold jWord opOf targetOf
  rw [extract_join w (by rfl)]
  exact extract_whole w

theorem rWord_of_fields {w : Word32} {rs rt rd sa : BitVec 5} {f : BitVec 6} (h1 : opOf w = 0#6) (h2 : rsOf w = rs)
    (h3 : rtOf w = rt) (h4 : rdOf w = rd) (h5 : saOf w = sa) (h6 : functOf w = f) : rWord rs rt rd sa f = w := by
  subst h2 h3 h4 h5 h6
  unfold rWord
  rw [← h1]
  unfold opOf rsOf rtOf rdOf saOf functOf
  rw [extract_join w (by rfl), extract_join w (by rfl), extract_join w (by rfl), extract_join w (by rfl),
    extract_join w (by rfl)]
  exact extract_whole w

theorem codeWord_of_fields {w : Word32} {code : BitVec 20} {f : BitVec 6} (h1 : opOf w = 0#6) (h2 : code20Of w = code)
    (h3 : functOf w = f) : codeWord code f = w := by
  subst h2 h3
  unfold codeWord
  rw [← h1]
  unfold opOf code20Of functOf
  rw [extract_join w (by rfl), extract_join w (by rfl)]
  exact extract_whole w

theorem trapWord_of_fields {w : Word32} {rs rt : BitVec 5} {code : BitVec 10} {f : BitVec 6} (h1 : opOf w = 0#6)
    (h2 : rsOf w = rs) (h3 : rtOf w = rt) (h4 : code10Of w = code) (h5 : functOf w = f) :
    trapWord rs rt code f = w := by
  subst h2 h3 h4 h5
  unfold trapWord
  rw [← h1]
  unfold opOf rsOf rtOf code10Of functOf
  rw [extract_join w (by rfl), extract_join w (by rfl), extract_join w (by rfl), extract_join w (by rfl)]
  exact extract_whole w

/-- The code field is the four fields of the R format side by side: SYNC's must-be-zero field. -/
theorem code20Of_fields (w : Word32) : code20Of w = rsOf w ++ rtOf w ++ rdOf w ++ saOf w := by
  unfold code20Of rsOf rtOf rdOf saOf
  rw [extract_join w (by rfl), extract_join w (by rfl), extract_join w (by rfl)]

theorem code20Of_eq_zero (w : Word32) : code20Of w = 0 ↔ rsOf w = 0 ∧ rtOf w = 0 ∧ rdOf w = 0 ∧ saOf w = 0 := by
  rw [code20Of_fields]
  constructor
  · intro h
    have hf : ∀ k, (rsOf w ++ rtOf w ++ rdOf w ++ saOf w).extractLsb' k 5 = 0 := fun k => by rw [h]; simp
    refine ⟨(hf 15) ▸ ?_, (hf 10) ▸ ?_, (hf 5) ▸ ?_, (hf 0) ▸ ?_⟩
    · rw [extract_append_high _ _ (by decide), extract_append_high _ _ (by decide),
        extract_append_high _ _ (by decide)]; exact (extract_whole _).symm
    · rw [extract_append_high _ _ (by decide), extract_append_high _ _ (by decide),
        extract_append_low _ _ (by decide)]; exact (extract_whole _).symm
    · rw [extract_append_high _ _ (by decide), extract_append_low _ _ (by decide)]; exact (extract_whole _).symm
    · rw [extract_append_low _ _ (by decide)]; exact (extract_whole _).symm
  · rintro ⟨h1, h2, h3, h4⟩
    rw [h1, h2, h3, h4]; rfl

/-- A field whose number is known. -/
theorem eq_of_toNat {n : Nat} {x : BitVec n} {k : Nat} (h : x.toNat = k) : x = BitVec.ofNat n k := by
  subst h; simp

/-! ### The maps (30_encoding.md R108) -/

theorem decode_special {w : Word32} (h : opOf w = 0#6) : decode w = decodeSpecial w := by
  unfold decode; rw [h]; rfl

theorem decode_regimm {w : Word32} (h : opOf w = 1#6) : decode w = decodeRegimm w := by
  unfold decode; rw [h]; rfl

/-- Where the must-be-zero fields are zero the word is the instruction. -/
theorem mustBeZero_instr {ok : Bool} {i j : Instr} {w : Word32} :
    mustBeZero ok i w = .instr j ↔ ok = true ∧ i = j := by
  cases ok <;> simp [mustBeZero]

/-- Where one of them is not, the word is reserved. -/
theorem mustBeZero_reserved {ok : Bool} {i : Instr} {w x : Word32} {why : ReservedWhy} :
    mustBeZero ok i w = .reserved x why ↔ ok = false ∧ w = x ∧ .mustBeZero = why := by
  cases ok <;> simp [mustBeZero]

end Sys2Proof
end

