-- ==== Sys2Proof/Laws/Cases.lean ====
section
/-! SUPPORT. What an instruction can do, said once: it raises an exception of its own kind and changes nothing but the
run state, or it completes, its writes made (`Executed`) and its request passed to the sequencer. A statement about
every instruction starts from `exec_cases`. -/

namespace Sys2Proof
namespace Machine

/-- The state `u` holds the writes of the instruction `i`, run in `s`, before the sequencer's part. -/
structure Executed (s u : State) (i : Instr) : Prop where
  pc : u.pc = s.pc
  pend : u.pend = s.pend
  run : u.run = s.run
  params : u.params = s.params
  regs : ∀ r : Reg, destination i ≠ some r → u.reg r = s.reg r
  link : ∀ target rd, requestOf s i = .branch target → destination i = some rd →
    u.reg rd = if rd = 0 then 0 else s.pc + 8
  target : ∀ target, requestOf s i = .branch target → Aligned4 s.pc → Aligned4 target
  hi : writesHi i = false → u.hi = s.hi
  lo : writesLo i = false → u.lo = s.lo
  llbit : u.llbit = (setsLink i || s.llbit)
  bus : ∃ evs, u.devLog = s.devLog ++ evs ∧ AllowedBus s u evs (busUse i)
  stores : ∀ x, x ∉ storedAt s i → u.byteAt x = s.byteAt x
  canonical : Memory.wf s.mem → Memory.wf u.mem
  inRam : MemoryIsRam s → MemoryIsRam u

/-- All that an instruction can do. -/
def ExecCases (i : Instr) (s : State) : Prop :=
  (∃ kind info, exec i s = .next { s with run := faultedIn s kind info (some (encode i)) } ∧
      (s.params.wf → mayRaise s i kind)) ∨
    ∃ u, exec i s = .next (u.advance (requestOf s i)) ∧ Executed s u i

/-! ### Aligned targets (44_branch_jump.md R270) -/

theorem aligned4_add (a b : Word64) (ha : Aligned4 a) (hb : Aligned4 b) : Aligned4 (a + b) := by
  unfold Aligned4 at *; rw [BitVec.toNat_add]; omega

theorem aligned4_branchTarget (s : State) (imm : BitVec 16) (h : Aligned4 s.pc) : Aligned4 (branchTargetOf s imm) := by
  refine aligned4_add _ _ (aligned4_add _ _ h (show (4#64).toNat % 4 = 0 from rfl)) ?_
  have h0 : ∀ i < 2, ((imm ++ 0#2).signExtend 64).getLsbD i = false := by
    intro i hi
    rw [BitVec.getLsbD_signExtend, BitVec.getLsbD_append, if_pos (by omega), if_pos hi]
    simp
  have e : ((imm ++ 0#2).signExtend 64).setWidth 2 = 0#2 := by
    apply BitVec.eq_of_getLsbD_eq
    intro i hi
    rw [BitVec.getLsbD_setWidth, h0 i hi]; simp
  have := congrArg BitVec.toNat e
  rw [BitVec.toNat_setWidth] at this
  exact this

theorem aligned4_append (a : BitVec 62) : Aligned4 (a ++ 0#2) := by
  have : (a ++ 0#2).toNat = a.toNat * 4 := by
    rw [BitVec.toNat_append, BitVec.toNat_ofNat, Nat.shiftLeft_eq]; simp
  unfold Aligned4; omega

theorem wordAligned_iff (a : Word64) : wordAligned a = true ↔ Aligned4 a := by
  unfold wordAligned Aligned4
  rw [beq_iff_eq, BitVec.toNat_eq, BitVec.toNat_setWidth]; rfl

/-! ### One lemma for each shape -/

/-- The instruction writes nothing. -/
theorem executed_self {s : State} {i : Instr} (h1 : setsLink i = false) (h2 : busUse i = .none)
    (h3 : destination i = none)
    (h4 : ∀ target, requestOf s i = .branch target → Aligned4 s.pc → Aligned4 target) : Executed s s i where
  pc := rfl
  pend := rfl
  run := rfl
  params := rfl
  regs _ _ := rfl
  link _ _ _ h := by rw [h3] at h; cases h
  target := h4
  hi _ := rfl
  lo _ := rfl
  llbit := by rw [h1]; rfl
  bus := ⟨[], by simp, by rw [h2]; exact ⟨rfl, fun _ => rfl⟩⟩
  stores _ _ := rfl
  canonical := id
  inRam := id

/-- The instruction writes one register and does nothing else. -/
theorem executed_setReg {s : State} {i : Instr} {rd : Reg} (v : Word64) (h1 : setsLink i = false)
    (h2 : busUse i = .none) (h3 : destination i = some rd)
    (h4 : ∀ target, requestOf s i = .branch target → v = s.pc + 8 ∧ (Aligned4 s.pc → Aligned4 target)) :
    Executed s (s.setReg rd v) i where
  pc := by simp
  pend := by simp
  run := by simp
  params := by simp
  regs r h := reg_setReg_ne s rd r v fun e => h (by rw [h3, e])
  link target r hb h := by
    rw [h3] at h; cases h
    rw [reg_setReg_same, (h4 target hb).1]; rfl
  target target hb := (h4 target hb).2
  hi _ := by simp
  lo _ := by simp
  llbit := by rw [h1]; simp
  bus := ⟨[], by simp, by rw [h2]; exact ⟨rfl, fun _ => by simp⟩⟩
  stores _ _ := by simp
  canonical h := by simpa using h
  inRam h := by unfold MemoryIsRam; rw [setReg_mem, setReg_params]; exact h

/-- The instruction writes HI and LO, or one of them. -/
theorem executed_setHiLo {s : State} {i : Instr} (hi lo : Word64) (h1 : setsLink i = false) (h2 : busUse i = .none)
    (h3 : destination i = none) (h4 : requestOf s i = .none) (h5 : writesHi i = false → hi = s.hi)
    (h6 : writesLo i = false → lo = s.lo) : Executed s (s.setHiLo hi lo) i where
  pc := rfl
  pend := rfl
  run := rfl
  params := rfl
  regs _ _ := rfl
  link _ _ _ h := by rw [h3] at h; cases h
  target _ h := by rw [h4] at h; cases h
  hi := h5
  lo := h6
  llbit := by rw [h1]; rfl
  bus := ⟨[], by simp, by rw [h2]; exact ⟨rfl, fun _ => rfl⟩⟩
  stores _ _ := rfl
  canonical := id
  inRam := id

/-- A read's callbacks: none, or the one of its width. -/
theorem memRead_bus {s t : State} {a : BusAddr} {n : Width} {v : Word64} (h : memRead s a n = .ok (v, t)) :
    ∃ evs, t.devLog = s.devLog ++ evs ∧ (evs = [] ∨ ∃ d b x, evs = [.read d b n x]) := by
  unfold memRead at h
  split at h
  · cases h
  · cases h; exact ⟨[], by simp, .inl rfl⟩
  · cases h; exact ⟨_, rfl, .inr ⟨_, _, _, rfl⟩⟩
  · cases h; exact ⟨[], by simp, .inl rfl⟩

/-- A write's callbacks: none, or the one of its width. -/
theorem memWrite_bus {s t : State} {a : BusAddr} {n : Width} {v : Word64} (h : memWrite s a n v = .ok t) :
    ∃ evs, t.devLog = s.devLog ++ evs ∧ (evs = [] ∨ ∃ d b x, evs = [.write d b n x]) := by
  unfold memWrite at h
  split at h
  · cases h
  · cases h; exact ⟨[], by simp, .inl rfl⟩
  · cases h; exact ⟨_, rfl, .inr ⟨_, _, _, rfl⟩⟩
  · cases h; exact ⟨[], by simp, .inl rfl⟩

/-- The instruction read the bus once and writes one register; `ll` says whether it sets LLbit. -/
theorem executed_load {s t : State} {i : Instr} {rt : Reg} {a : BusAddr} {n : Width} {v : Word64} (x : Word64)
    (ll : Bool) (h : memRead s a n = .ok (v, t)) (h1 : setsLink i = ll) (h2 : busUse i = .oneRead n)
    (h3 : destination i = some rt) (h4 : requestOf s i = .none) :
    Executed s ({ t with llbit := ll || t.llbit }.setReg rt x) i := by
  have hf := memRead_frame h
  obtain ⟨evs, he, hb⟩ := memRead_bus h
  exact
    { pc := by rw [setReg_pc, hf]
      pend := by rw [setReg_pend, hf]
      run := by rw [setReg_run, hf]
      params := by rw [setReg_params, hf]
      regs := fun r hr => by
        rw [reg_setReg_ne _ _ _ _ fun e => hr (by rw [h3, e]), hf]; rfl
      link := fun _ _ hb => by rw [h4] at hb; cases hb
      target := fun _ hb => by rw [h4] at hb; cases hb
      hi := fun _ => by rw [setReg_hi, hf]
      lo := fun _ => by rw [setReg_lo, hf]
      llbit := by rw [setReg_llbit, hf, h1]
      bus := ⟨evs, by rw [setReg_devLog]; exact he, by
        rw [h2]; exact ⟨hb, fun b => by rw [setReg_byteAt, hf]; rfl⟩⟩
      stores := fun b _ => by rw [setReg_byteAt, hf]; rfl
      canonical := fun hm => by rw [setReg_mem, hf]; exact hm
      inRam := fun hm => by unfold MemoryIsRam; rw [setReg_mem, setReg_params, hf]; exact hm }

/-- The instruction wrote the bus once. -/
theorem executed_store {s t : State} {i : Instr} {a : BusAddr} {n : Width} {v : Word64}
    (h : memWrite s a n v = .ok t) (h1 : setsLink i = false) (h2 : busUse i = .oneWrite n)
    (h4 : requestOf s i = .none) (h6 : bytesFrom a n.bytes = storedAt s i) : Executed s t i := by
  have hf := memWrite_frame h
  obtain ⟨evs, he, hb⟩ := memWrite_bus h
  exact
    { pc := by rw [hf]
      pend := by rw [hf]
      run := by rw [hf]
      params := by rw [hf]
      regs := fun r _ => by rw [hf]; rfl
      link := fun _ _ hb => by rw [h4] at hb; cases hb
      target := fun _ hb => by rw [h4] at hb; cases hb
      hi := fun _ => by rw [hf]
      lo := fun _ => by rw [hf]
      llbit := by rw [hf, h1]; rfl
      bus := ⟨evs, he, by rw [h2]; exact hb⟩
      stores := fun x hx => memWrite_byteAt_of_ne h x fun i hi e => hx (h6 ▸ mem_bytesFrom.2 ⟨i, hi, e⟩)
      canonical := wf_memWrite h
      inRam := memoryIsRam_memWrite h }

/-- A conditional store wrote the bus once and its register. -/
theorem executed_storeConditional {s t : State} {i : Instr} {rt : Reg} {a : BusAddr} {n : Width} {v : Word64}
    (x : Word64) (h : memWrite s a n v = .ok t) (h1 : setsLink i = false) (h2 : busUse i = .oneWrite n)
    (h3 : destination i = some rt) (h4 : requestOf s i = .none) (h6 : bytesFrom a n.bytes = storedAt s i) :
    Executed s (t.setReg rt x) i := by
  have hf := memWrite_frame h
  obtain ⟨evs, he, hb⟩ := memWrite_bus h
  exact
    { pc := by rw [setReg_pc, hf]
      pend := by rw [setReg_pend, hf]
      run := by rw [setReg_run, hf]
      params := by rw [setReg_params, hf]
      regs := fun r hr => by
        rw [reg_setReg_ne _ _ _ _ fun e => hr (by rw [h3, e]), hf]; rfl
      link := fun _ _ hb => by rw [h4] at hb; cases hb
      target := fun _ hb => by rw [h4] at hb; cases hb
      hi := fun _ => by rw [setReg_hi, hf]
      lo := fun _ => by rw [setReg_lo, hf]
      llbit := by rw [setReg_llbit, hf, h1]; rfl
      bus := ⟨evs, by rw [setReg_devLog]; exact he, by rw [h2]; exact hb⟩
      stores := fun x hx => by
        rw [setReg_byteAt]
        exact memWrite_byteAt_of_ne h x fun i hi e => hx (h6 ▸ mem_bytesFrom.2 ⟨i, hi, e⟩)
      canonical := fun hm => by rw [setReg_mem]; exact wf_memWrite h hm
      inRam := fun hm => by unfold MemoryIsRam; rw [setReg_mem, setReg_params]; exact memoryIsRam_memWrite h hm }

/-- A conditional store with LLbit clear writes its register only. -/
theorem executed_noStore {s : State} {i : Instr} {rt : Reg} {n : Width} (x : Word64)
    (h1 : setsLink i = false) (h2 : busUse i = .oneWrite n)
    (h3 : destination i = some rt) (h4 : requestOf s i = .none) : Executed s (s.setReg rt x) i where
  pc := by simp
  pend := by simp
  run := by simp
  params := by simp
  regs r h := reg_setReg_ne s rt r x fun e => h (by rw [h3, e])
  link _ _ hb := by rw [h4] at hb; cases hb
  target _ hb := by rw [h4] at hb; cases hb
  hi _ := by simp
  lo _ := by simp
  llbit := by rw [h1]; simp
  bus := ⟨[], by simp, by rw [h2]; exact .inl rfl⟩
  stores _ _ := by simp
  canonical h := by simpa using h
  inRam h := by unfold MemoryIsRam; rw [setReg_mem, setReg_params]; exact h

theorem byteEvents_length (p : Params) (l : List (BusAddr × Byte)) : (byteEvents p l).length ≤ l.length :=
  List.length_filterMap_le _ _

theorem byteEvents_mem {p : Params} {l : List (BusAddr × Byte)} {e : DevEvent} (h : e ∈ byteEvents p l) :
    ∃ d a v, e = .write d a .byte v := by
  obtain ⟨c, -, hc⟩ := List.mem_filterMap.1 h
  split at hc
  · cases hc; exact ⟨_, _, _, rfl⟩
  · cases hc

/-! ### The addresses of the unaligned-part stores (43_loadstore.md R248 to R252) -/

theorem partOf_busAddr4 (ea : Word64) : partOf (busAddr ea) 4 = ea.toNat % 4 := by
  unfold partOf busAddr; rw [BitVec.toNat_setWidth]; omega
theorem partOf_busAddr8 (ea : Word64) : partOf (busAddr ea) 8 = ea.toNat % 8 := by
  unfold partOf busAddr; rw [BitVec.toNat_setWidth]; omega

theorem wordLeftBytes_map_fst (ea : Word64) (v : Word32) : (wordLeftBytes (busAddr ea) v).map Prod.fst =
    bytesFrom (ea.setWidth 32) (4 - ea.toNat % 4) := by
  unfold wordLeftBytes; rw [partOf_busAddr4, List.map_map]; rfl
theorem wordRightBytes_map_fst (ea : Word64) (v : Word32) : (wordRightBytes (busAddr ea) v).map Prod.fst =
    bytesFrom (ea.setWidth 32 - BitVec.ofNat 32 (ea.toNat % 4)) (ea.toNat % 4 + 1) := by
  unfold wordRightBytes; rw [← partOf_busAddr4, List.map_map]; rfl
theorem dwordLeftBytes_map_fst (ea v : Word64) : (dwordLeftBytes (busAddr ea) v).map Prod.fst =
    bytesFrom (ea.setWidth 32) (8 - ea.toNat % 8) := by
  unfold dwordLeftBytes; rw [partOf_busAddr8, List.map_map]; rfl
theorem dwordRightBytes_map_fst (ea v : Word64) : (dwordRightBytes (busAddr ea) v).map Prod.fst =
    bytesFrom (ea.setWidth 32 - BitVec.ofNat 32 (ea.toNat % 8)) (ea.toNat % 8 + 1) := by
  unfold dwordRightBytes; rw [← partOf_busAddr8, List.map_map]; rfl

/-- The instruction wrote bytes, one after the other. -/
theorem executed_storeBytes {s : State} {i : Instr} {most : Nat} (l : List (BusAddr × Byte)) (hl : l.length ≤ most)
    (h1 : setsLink i = false) (h2 : busUse i = .byteWrites most)
    (h4 : requestOf s i = .none) (h6 : l.map Prod.fst = storedAt s i) : Executed s (storeBytes s l) i := by
  have hf := storeBytes_frame s l
  exact
    { pc := by rw [hf]
      pend := by rw [hf]
      run := by rw [hf]
      params := by rw [hf]
      regs := fun r _ => by rw [hf]; rfl
      link := fun _ _ hb => by rw [h4] at hb; cases hb
      target := fun _ hb => by rw [h4] at hb; cases hb
      hi := fun _ => by rw [hf]
      lo := fun _ => by rw [hf]
      llbit := by rw [hf, h1]; rfl
      bus := ⟨_, storeBytes_devLog s l, by
        rw [h2]
        exact ⟨Nat.le_trans (byteEvents_length _ _) hl, fun e he => byteEvents_mem he⟩⟩
      stores := fun x hx => storeBytes_byteAt_of_ne s l x (.inl fun c hc e =>
        hx (h6 ▸ e ▸ List.mem_map_of_mem hc))
      canonical := wf_storeBytes l
      inRam := memoryIsRam_storeBytes l }

/-! ### The shared operations, as cases -/

theorem cases_completeReg {i : Instr} {s : State} (rd : Reg) (v : Word64) (he : exec i s = completeReg rd v s)
    (h1 : setsLink i = false) (h2 : busUse i = .none) (h3 : destination i = some rd) (h4 : requestOf s i = .none) :
    ExecCases i s :=
  .inr ⟨_, by rw [he, h4]; rfl, executed_setReg v h1 h2 h3 fun _ h => by rw [h4] at h; cases h⟩

theorem cases_writeOrOverflow {i : Instr} {s : State} (rd : Reg) (r : Option Word64)
    (he : exec i s = writeOrOverflow i rd r s) (h1 : setsLink i = false) (h2 : busUse i = .none)
    (h3 : destination i = some rd) (h4 : requestOf s i = .none) (h5 : mayRaise s i .arithmeticOverflow) :
    ExecCases i s := by
  cases r with
  | none => exact .inl ⟨_, _, by rw [he]; rfl, fun _ => h5⟩
  | some v => exact cases_completeReg rd v he h1 h2 h3 h4

theorem cases_completeHiLo {i : Instr} {s : State} (hi lo : Word64) (he : exec i s = completeHiLo hi lo s)
    (h1 : setsLink i = false) (h2 : busUse i = .none) (h3 : destination i = none) (h4 : requestOf s i = .none)
    (h5 : writesHi i = false → hi = s.hi) (h6 : writesLo i = false → lo = s.lo) : ExecCases i s :=
  .inr ⟨_, by rw [he, h4]; rfl, executed_setHiLo hi lo h1 h2 h3 h4 h5 h6⟩

theorem cases_complete {i : Instr} {s : State} (br : Request) (he : exec i s = complete br s)
    (h1 : setsLink i = false) (h2 : busUse i = .none) (h3 : destination i = none) (h4 : requestOf s i = br)
    (h5 : ∀ target, br = .branch target → Aligned4 s.pc → Aligned4 target) : ExecCases i s :=
  .inr ⟨s, by rw [he, h4]; rfl, executed_self h1 h2 h3 fun t h => h5 t (h4 ▸ h)⟩

theorem cases_completeLink {i : Instr} {s : State} (rd : Reg) (br : Request) (he : exec i s = completeLink rd br s)
    (h1 : setsLink i = false) (h2 : busUse i = .none) (h3 : destination i = some rd) (h4 : requestOf s i = br)
    (h5 : ∀ target, br = .branch target → Aligned4 s.pc → Aligned4 target) : ExecCases i s :=
  .inr ⟨_, by rw [he, h4]; rfl, executed_setReg _ h1 h2 h3 fun t h => ⟨rfl, h5 t (h4 ▸ h)⟩⟩

theorem cases_trapIf {i : Instr} {s : State} (c : Bool) (he : exec i s = trapIf c i s) (h1 : setsLink i = false)
    (h2 : busUse i = .none) (h3 : destination i = none) (h4 : requestOf s i = .none)
    (h5 : c = true → mayRaise s i .trap) : ExecCases i s := by
  cases c with
  | true => exact .inl ⟨_, _, he, fun _ => h5 rfl⟩
  | false => exact cases_complete .none he h1 h2 h3 h4 fun _ h => by cases h

theorem cases_loadReg {i : Instr} {s : State} (n : Width) (a : BusAddr) (ea : Word64) (f : Word64 → Word64) (rt : Reg)
    (he : exec i s = loadReg i n a ea f rt s) (h1 : setsLink i = false) (h2 : busUse i = .oneRead n)
    (h3 : destination i = some rt) (h4 : requestOf s i = .none)
    (h5 : ∀ sub, s.params.wf → memRead s a n = .error sub → mayRaise s i (.addressError sub .load)) :
    ExecCases i s := by
  cases h : memRead s a n with
  | error sub => exact .inl ⟨_, _, by rw [he, loadReg, h]; rfl, fun hp => h5 sub hp h⟩
  | ok q =>
    obtain ⟨v, t⟩ := q
    exact .inr ⟨_, by rw [he, loadReg, h, h4]; rfl, executed_load (f v) false h h1 h2 h3 h4⟩

theorem cases_loadLinked {i : Instr} {s : State} (n : Width) (ea : Word64) (f : Word64 → Word64) (rt : Reg)
    (he : exec i s = loadLinked i n ea f rt s) (h1 : setsLink i = true) (h2 : busUse i = .oneRead n)
    (h3 : destination i = some rt) (h4 : requestOf s i = .none)
    (h5 : ∀ sub, mayRaise s i (.addressError sub .load)) : ExecCases i s := by
  cases h : memRead s (busAddr ea) n with
  | error sub => exact .inl ⟨_, _, by rw [he, loadLinked, h]; rfl, fun _ => h5 sub⟩
  | ok q =>
    obtain ⟨v, t⟩ := q
    exact .inr ⟨_, by rw [he, loadLinked, h, h4]; rfl, executed_load (f v) true h h1 h2 h3 h4⟩

theorem cases_storeReg {i : Instr} {s : State} (n : Width) (ea v : Word64) (he : exec i s = storeReg i n ea v s)
    (h1 : setsLink i = false) (h2 : busUse i = .oneWrite n) (h4 : requestOf s i = .none)
    (h6 : bytesFrom (busAddr ea) n.bytes = storedAt s i)
    (h5 : ∀ sub, memWrite s (busAddr ea) n v = .error sub → mayRaise s i (.addressError sub .store)) :
    ExecCases i s := by
  cases h : memWrite s (busAddr ea) n v with
  | error sub => exact .inl ⟨_, _, by rw [he, storeReg, h]; rfl, fun _ => h5 sub h⟩
  | ok t => exact .inr ⟨_, by rw [he, storeReg, h, h4]; rfl, executed_store h h1 h2 h4 h6⟩

theorem cases_storeConditional {i : Instr} {s : State} (n : Width) (ea : Word64) (rt : Reg)
    (he : exec i s = storeConditional i n ea rt s) (h1 : setsLink i = false) (h2 : busUse i = .oneWrite n)
    (h3 : destination i = some rt) (h4 : requestOf s i = .none) (h6 : bytesFrom (busAddr ea) n.bytes = storedAt s i)
    (h5 : ∀ sub, mayRaise s i (.addressError sub .store)) : ExecCases i s := by
  cases hc : classify s.params (busAddr ea) n with
  | error sub => exact .inl ⟨_, _, by rw [he, storeConditional, hc]; rfl, fun _ => h5 sub⟩
  | ok route =>
    cases hl : s.llbit with
    | false =>
      exact .inr ⟨_, by rw [he, storeConditional, hc, hl, h4]; rfl, executed_noStore 0 h1 h2 h3 h4⟩
    | true =>
      obtain ⟨t, hw, -⟩ := memWrite_ok (s.reg rt) hc
      refine .inr ⟨_, ?_, executed_storeConditional 1 hw h1 h2 h3 h4 h6⟩
      rw [he, storeConditional, hc, h4]
      simp only [hl, if_true, hw]
      rfl

theorem cases_storeBytes {i : Instr} {s : State} (most : Nat) (l : List (BusAddr × Byte)) (hl : l.length ≤ most)
    (he : exec i s = complete .none (storeBytes s l)) (h1 : setsLink i = false) (h2 : busUse i = .byteWrites most)
    (h4 : requestOf s i = .none) (h6 : l.map Prod.fst = storedAt s i) : ExecCases i s :=
  .inr ⟨_, by rw [he, h4]; rfl, executed_storeBytes l hl h1 h2 h4 h6⟩

/-- A byte read has no address error (20_memory.md R65). -/
theorem memRead_byte_ne_error (s : State) (a : BusAddr) (sub : AddrSub) : memRead s a .byte ≠ .error sub := by
  obtain ⟨v, u, h, -⟩ := memRead_ok (s := s) (classify_byte s.params a)
  rw [h]; intro e; cases e

theorem memWrite_byte_ne_error (s : State) (a : BusAddr) (v : Word64) (sub : AddrSub) :
    memWrite s a .byte v ≠ .error sub := by
  obtain ⟨t, h⟩ := memWrite_byte s a v
  rw [h]; intro e; cases e

theorem alignDown_aligned (a : BusAddr) (n : Width) : (alignDown a n.bytes).toNat % n.bytes = 0 := by
  have := a.isLt
  have hm : a.toNat % n.bytes ≤ a.toNat := Nat.mod_le _ _
  have e : (alignDown a n.bytes).toNat = a.toNat - a.toNat % n.bytes := by
    unfold alignDown
    rw [BitVec.toNat_sub, BitVec.toNat_ofNat, Nat.mod_eq_of_lt (a := a.toNat % n.bytes) (by omega)]
    omega
  rw [e]
  cases n <;> simp only [Width.bytes] <;> omega

/-- The read of an unaligned-part load has no address error in an admissible table (20_memory.md R65). -/
theorem memRead_alignDown_ne_error {s : State} (hp : s.params.wf) (a : BusAddr) (n : Width) (sub : AddrSub) :
    memRead s (alignDown a n.bytes) n ≠ .error sub := by
  obtain ⟨v, u, h, -⟩ := memRead_ok (s := s) (classify_aligned hp (alignDown_aligned a n))
  rw [h]; intro e; cases e

theorem noBranch (s : State) (target : Word64) (h : Request.none = .branch target) (_ : Aligned4 s.pc) :
    Aligned4 target := by cases h

/-- The targets of a conditional branch and of a jump are aligned where the pc is (44_branch_jump.md R270). -/
theorem branchIf_aligned (s : State) (c : Bool) (imm : BitVec 16) (target : Word64)
    (h : branchIf c (branchTargetOf s imm) = .branch target) (hp : Aligned4 s.pc) : Aligned4 target := by
  cases c <;> cases h
  exact aligned4_branchTarget s imm hp

theorem branchLikely_aligned (s : State) (c : Bool) (imm : BitVec 16) (target : Word64)
    (h : branchLikely c (branchTargetOf s imm) = .branch target) (hp : Aligned4 s.pc) : Aligned4 target := by
  cases c <;> cases h
  exact aligned4_branchTarget s imm hp

theorem jumpTarget_aligned (s : State) (t : BitVec 26) (target : Word64)
    (h : Request.branch (s.jumpTarget t) = .branch target) (_ : Aligned4 s.pc) : Aligned4 target := by
  cases h
  exact aligned4_append _

/-! ### Every instruction -/

/-- All that an instruction can do, for every instruction and every state. -/
theorem exec_cases (i : Instr) (s : State) : ExecCases i s := by
  cases i with
  | sll rd rt sa => exact cases_completeReg rd _ rfl rfl rfl rfl rfl
  | srl rd rt sa => exact cases_completeReg rd _ rfl rfl rfl rfl rfl
  | sra rd rt sa => exact cases_completeReg rd _ rfl rfl rfl rfl rfl
  | sllv rd rt rs => exact cases_completeReg rd _ rfl rfl rfl rfl rfl
  | srlv rd rt rs => exact cases_completeReg rd _ rfl rfl rfl rfl rfl
  | srav rd rt rs => exact cases_completeReg rd _ rfl rfl rfl rfl rfl
  | jr rs =>
    by_cases h : wordAligned (s.reg rs) = true
    · exact cases_complete _ (if_pos h) rfl rfl rfl rfl fun t e _ => by cases e; exact (wordAligned_iff _).1 h
    · exact .inl ⟨_, _, if_neg h, fun _ => fun e => h ((wordAligned_iff _).2 e)⟩
  | jalr rd rs =>
    by_cases h : wordAligned (s.reg rs) = true
    · exact cases_completeLink _ _ (if_pos h) rfl rfl rfl rfl fun t e _ => by cases e; exact (wordAligned_iff _).1 h
    · exact .inl ⟨_, _, if_neg h, fun _ => fun e => h ((wordAligned_iff _).2 e)⟩
  | syscall code => exact .inl ⟨_, _, rfl, fun _ => trivial⟩
  | brk code => exact .inl ⟨_, _, rfl, fun _ => trivial⟩
  | sync => exact cases_complete .none rfl rfl rfl rfl rfl (noBranch s)
  | mfhi rd => exact cases_completeReg rd _ rfl rfl rfl rfl rfl
  | mthi rs => exact cases_completeHiLo _ _ rfl rfl rfl rfl rfl (by simp [writesHi]) (fun _ => rfl)
  | mflo rd => exact cases_completeReg rd _ rfl rfl rfl rfl rfl
  | mtlo rs => exact cases_completeHiLo _ _ rfl rfl rfl rfl rfl (fun _ => rfl) (by simp [writesLo])
  | dsllv rd rt rs => exact cases_completeReg rd _ rfl rfl rfl rfl rfl
  | dsrlv rd rt rs => exact cases_completeReg rd _ rfl rfl rfl rfl rfl
  | dsrav rd rt rs => exact cases_completeReg rd _ rfl rfl rfl rfl rfl
  | mult rs rt => exact cases_completeHiLo _ _ rfl rfl rfl rfl rfl (by simp [writesHi]) (by simp [writesLo])
  | multu rs rt => exact cases_completeHiLo _ _ rfl rfl rfl rfl rfl (by simp [writesHi]) (by simp [writesLo])
  | div rs rt =>
    by_cases h : (low32 (s.reg rt)).toInt = 0
    · exact cases_completeHiLo _ _ (if_pos h) rfl rfl rfl rfl (by simp [writesHi]) (by simp [writesLo])
    · exact cases_completeHiLo _ _ (if_neg h) rfl rfl rfl rfl (by simp [writesHi]) (by simp [writesLo])
  | divu rs rt =>
    by_cases h : (low32 (s.reg rt)).toNat = 0
    · exact cases_completeHiLo _ _ (if_pos h) rfl rfl rfl rfl (by simp [writesHi]) (by simp [writesLo])
    · exact cases_completeHiLo _ _ (if_neg h) rfl rfl rfl rfl (by simp [writesHi]) (by simp [writesLo])
  | dmult rs rt => exact cases_completeHiLo _ _ rfl rfl rfl rfl rfl (by simp [writesHi]) (by simp [writesLo])
  | dmultu rs rt => exact cases_completeHiLo _ _ rfl rfl rfl rfl rfl (by simp [writesHi]) (by simp [writesLo])
  | ddiv rs rt =>
    by_cases h : (s.reg rt).toInt = 0
    · exact cases_completeHiLo _ _ (if_pos h) rfl rfl rfl rfl (by simp [writesHi]) (by simp [writesLo])
    · exact cases_completeHiLo _ _ (if_neg h) rfl rfl rfl rfl (by simp [writesHi]) (by simp [writesLo])
  | ddivu rs rt =>
    by_cases h : (s.reg rt).toNat = 0
    · exact cases_completeHiLo _ _ (if_pos h) rfl rfl rfl rfl (by simp [writesHi]) (by simp [writesLo])
    · exact cases_completeHiLo _ _ (if_neg h) rfl rfl rfl rfl (by simp [writesHi]) (by simp [writesLo])
  | add rd rs rt => exact cases_writeOrOverflow rd _ rfl rfl rfl rfl rfl trivial
  | addu rd rs rt => exact cases_completeReg rd _ rfl rfl rfl rfl rfl
  | sub rd rs rt => exact cases_writeOrOverflow rd _ rfl rfl rfl rfl rfl trivial
  | subu rd rs rt => exact cases_completeReg rd _ rfl rfl rfl rfl rfl
  | and rd rs rt => exact cases_completeReg rd _ rfl rfl rfl rfl rfl
  | or rd rs rt => exact cases_completeReg rd _ rfl rfl rfl rfl rfl
  | xor rd rs rt => exact cases_completeReg rd _ rfl rfl rfl rfl rfl
  | nor rd rs rt => exact cases_completeReg rd _ rfl rfl rfl rfl rfl
  | slt rd rs rt => exact cases_completeReg rd _ rfl rfl rfl rfl rfl
  | sltu rd rs rt => exact cases_completeReg rd _ rfl rfl rfl rfl rfl
  | dadd rd rs rt => exact cases_writeOrOverflow rd _ rfl rfl rfl rfl rfl trivial
  | daddu rd rs rt => exact cases_completeReg rd _ rfl rfl rfl rfl rfl
  | dsub rd rs rt => exact cases_writeOrOverflow rd _ rfl rfl rfl rfl rfl trivial
  | dsubu rd rs rt => exact cases_completeReg rd _ rfl rfl rfl rfl rfl
  | tge rs rt code => exact cases_trapIf _ rfl rfl rfl rfl rfl of_decide_eq_true
  | tgeu rs rt code => exact cases_trapIf _ rfl rfl rfl rfl rfl of_decide_eq_true
  | tlt rs rt code => exact cases_trapIf _ rfl rfl rfl rfl rfl of_decide_eq_true
  | tltu rs rt code => exact cases_trapIf _ rfl rfl rfl rfl rfl of_decide_eq_true
  | teq rs rt code => exact cases_trapIf _ rfl rfl rfl rfl rfl eq_of_beq
  | tne rs rt code => exact cases_trapIf _ rfl rfl rfl rfl rfl bne_iff_ne.1
  | dsll rd rt sa => exact cases_completeReg rd _ rfl rfl rfl rfl rfl
  | dsrl rd rt sa => exact cases_completeReg rd _ rfl rfl rfl rfl rfl
  | dsra rd rt sa => exact cases_completeReg rd _ rfl rfl rfl rfl rfl
  | dsll32 rd rt sa => exact cases_completeReg rd _ rfl rfl rfl rfl rfl
  | dsrl32 rd rt sa => exact cases_completeReg rd _ rfl rfl rfl rfl rfl
  | dsra32 rd rt sa => exact cases_completeReg rd _ rfl rfl rfl rfl rfl
  | bltz rs imm =>
    exact cases_complete _ rfl rfl rfl rfl (by simp [requestOf, branchIf, ltZero]; rfl)
      (branchIf_aligned s _ _)
  | bgez rs imm =>
    exact cases_complete _ rfl rfl rfl rfl (by simp [requestOf, branchIf, geZero]; rfl)
      (branchIf_aligned s _ _)
  | bltzl rs imm =>
    exact cases_complete _ rfl rfl rfl rfl (by simp [requestOf, branchLikely, ltZero]; rfl)
      (branchLikely_aligned s _ _)
  | bgezl rs imm =>
    exact cases_complete _ rfl rfl rfl rfl (by simp [requestOf, branchLikely, geZero]; rfl)
      (branchLikely_aligned s _ _)
  | tgei rs imm => exact cases_trapIf _ rfl rfl rfl rfl rfl of_decide_eq_true
  | tgeiu rs imm => exact cases_trapIf _ rfl rfl rfl rfl rfl of_decide_eq_true
  | tlti rs imm => exact cases_trapIf _ rfl rfl rfl rfl rfl of_decide_eq_true
  | tltiu rs imm => exact cases_trapIf _ rfl rfl rfl rfl rfl of_decide_eq_true
  | teqi rs imm => exact cases_trapIf _ rfl rfl rfl rfl rfl eq_of_beq
  | tnei rs imm => exact cases_trapIf _ rfl rfl rfl rfl rfl bne_iff_ne.1
  | bltzal rs imm =>
    exact cases_completeLink _ _ rfl rfl rfl rfl (by simp [requestOf, branchIf, ltZero]; rfl)
      (branchIf_aligned s _ _)
  | bgezal rs imm =>
    exact cases_completeLink _ _ rfl rfl rfl rfl (by simp [requestOf, branchIf, geZero]; rfl)
      (branchIf_aligned s _ _)
  | bltzall rs imm =>
    exact cases_completeLink _ _ rfl rfl rfl rfl (by simp [requestOf, branchLikely, ltZero]; rfl)
      (branchLikely_aligned s _ _)
  | bgezall rs imm =>
    exact cases_completeLink _ _ rfl rfl rfl rfl (by simp [requestOf, branchLikely, geZero]; rfl)
      (branchLikely_aligned s _ _)
  | j target => exact cases_complete _ rfl rfl rfl rfl rfl (jumpTarget_aligned s _)
  | jal target => exact cases_completeLink _ _ rfl rfl rfl rfl rfl (jumpTarget_aligned s _)
  | beq rs rt imm =>
    exact cases_complete _ rfl rfl rfl rfl (by simp [requestOf, branchIf]; rfl)
      (branchIf_aligned s _ _)
  | bne rs rt imm =>
    exact cases_complete _ rfl rfl rfl rfl (by simp [requestOf, branchIf]; rfl)
      (branchIf_aligned s _ _)
  | blez rs imm =>
    exact cases_complete _ rfl rfl rfl rfl (by simp [requestOf, branchIf, leZero]; rfl)
      (branchIf_aligned s _ _)
  | bgtz rs imm =>
    exact cases_complete _ rfl rfl rfl rfl (by simp [requestOf, branchIf, gtZero]; rfl)
      (branchIf_aligned s _ _)
  | addi rt rs imm => exact cases_writeOrOverflow rt _ rfl rfl rfl rfl rfl trivial
  | addiu rt rs imm => exact cases_completeReg rt _ rfl rfl rfl rfl rfl
  | slti rt rs imm => exact cases_completeReg rt _ rfl rfl rfl rfl rfl
  | sltiu rt rs imm => exact cases_completeReg rt _ rfl rfl rfl rfl rfl
  | andi rt rs imm => exact cases_completeReg rt _ rfl rfl rfl rfl rfl
  | ori rt rs imm => exact cases_completeReg rt _ rfl rfl rfl rfl rfl
  | xori rt rs imm => exact cases_completeReg rt _ rfl rfl rfl rfl rfl
  | lui rt imm => exact cases_completeReg rt _ rfl rfl rfl rfl rfl
  | beql rs rt imm =>
    exact cases_complete _ rfl rfl rfl rfl (by simp [requestOf, branchLikely]; rfl)
      (branchLikely_aligned s _ _)
  | bnel rs rt imm =>
    exact cases_complete _ rfl rfl rfl rfl (by simp [requestOf, branchLikely]; rfl)
      (branchLikely_aligned s _ _)
  | blezl rs imm =>
    exact cases_complete _ rfl rfl rfl rfl (by simp [requestOf, branchLikely, leZero]; rfl)
      (branchLikely_aligned s _ _)
  | bgtzl rs imm =>
    exact cases_complete _ rfl rfl rfl rfl (by simp [requestOf, branchLikely, gtZero]; rfl)
      (branchLikely_aligned s _ _)
  | daddi rt rs imm => exact cases_writeOrOverflow rt _ rfl rfl rfl rfl rfl trivial
  | daddiu rt rs imm => exact cases_completeReg rt _ rfl rfl rfl rfl rfl
  | ldl rt offset base =>
    exact cases_loadReg _ _ _ _ _ rfl rfl rfl rfl rfl (fun _ hp h => (memRead_alignDown_ne_error hp _ .dword _ h).elim)
  | ldr rt offset base =>
    exact cases_loadReg _ _ _ _ _ rfl rfl rfl rfl rfl (fun _ hp h => (memRead_alignDown_ne_error hp _ .dword _ h).elim)
  | lb rt offset base =>
    exact cases_loadReg _ _ _ _ _ rfl rfl rfl rfl rfl (fun _ _ h => (memRead_byte_ne_error _ _ _ h).elim)
  | lh rt offset base => exact cases_loadReg _ _ _ _ _ rfl rfl rfl rfl rfl (fun sub _ _ => by cases sub <;> trivial)
  | lwl rt offset base =>
    exact cases_loadReg _ _ _ _ _ rfl rfl rfl rfl rfl (fun _ hp h => (memRead_alignDown_ne_error hp _ .word _ h).elim)
  | lw rt offset base => exact cases_loadReg _ _ _ _ _ rfl rfl rfl rfl rfl (fun sub _ _ => by cases sub <;> trivial)
  | lbu rt offset base =>
    exact cases_loadReg _ _ _ _ _ rfl rfl rfl rfl rfl (fun _ _ h => (memRead_byte_ne_error _ _ _ h).elim)
  | lhu rt offset base => exact cases_loadReg _ _ _ _ _ rfl rfl rfl rfl rfl (fun sub _ _ => by cases sub <;> trivial)
  | lwr rt offset base =>
    exact cases_loadReg _ _ _ _ _ rfl rfl rfl rfl rfl (fun _ hp h => (memRead_alignDown_ne_error hp _ .word _ h).elim)
  | lwu rt offset base => exact cases_loadReg _ _ _ _ _ rfl rfl rfl rfl rfl (fun sub _ _ => by cases sub <;> trivial)
  | sb rt offset base =>
    exact cases_storeReg _ _ _ rfl rfl rfl rfl rfl (fun _ h => (memWrite_byte_ne_error _ _ _ _ h).elim)
  | sh rt offset base => exact cases_storeReg _ _ _ rfl rfl rfl rfl rfl (fun sub _ => by cases sub <;> trivial)
  | swl rt offset base =>
    exact cases_storeBytes 4 _ (by simp [wordLeftBytes, partOf]) rfl rfl rfl rfl (wordLeftBytes_map_fst _ _)
  | sw rt offset base => exact cases_storeReg _ _ _ rfl rfl rfl rfl rfl (fun sub _ => by cases sub <;> trivial)
  | sdl rt offset base =>
    exact cases_storeBytes 8 _ (by simp [dwordLeftBytes, partOf]) rfl rfl rfl rfl (dwordLeftBytes_map_fst _ _)
  | sdr rt offset base =>
    exact cases_storeBytes 8 _ (by simp [dwordRightBytes, partOf]; omega) rfl rfl rfl rfl (dwordRightBytes_map_fst _ _)
  | swr rt offset base =>
    exact cases_storeBytes 4 _ (by simp [wordRightBytes, partOf]; omega) rfl rfl rfl rfl (wordRightBytes_map_fst _ _)
  | ll rt offset base => exact cases_loadLinked _ _ _ _ rfl rfl rfl rfl rfl (fun sub => by cases sub <;> trivial)
  | lld rt offset base => exact cases_loadLinked _ _ _ _ rfl rfl rfl rfl rfl (fun sub => by cases sub <;> trivial)
  | ld rt offset base => exact cases_loadReg _ _ _ _ _ rfl rfl rfl rfl rfl (fun sub _ _ => by cases sub <;> trivial)
  | sc rt offset base => exact cases_storeConditional _ _ _ rfl rfl rfl rfl rfl rfl (fun sub => by cases sub <;> trivial)
  | scd rt offset base => exact cases_storeConditional _ _ _ rfl rfl rfl rfl rfl rfl (fun sub => by cases sub <;> trivial)
  | sd rt offset base => exact cases_storeReg _ _ _ rfl rfl rfl rfl rfl (fun sub _ => by cases sub <;> trivial)

end Machine
end Sys2Proof
end

