-- ==== Sys2Proof/Laws/PerInstr.lean ====
section
/-! SUPPORT. Every instruction's word matches its row of spec/opcode_table.json: under the row's mask it is the row's
match value. One lemma for each constructor of `Instr`. -/

namespace Sys2Proof
namespace Laws

/-- The mask and the match value of an instruction's row of spec/opcode_table.json. -/
def tableRow : Instr → Word32 × Word32
  | .sll .. => (0xFFE0003F#32, 0x00000000#32)
  | .srl .. => (0xFFE0003F#32, 0x00000002#32)
  | .sra .. => (0xFFE0003F#32, 0x00000003#32)
  | .sllv .. => (0xFC0007FF#32, 0x00000004#32)
  | .srlv .. => (0xFC0007FF#32, 0x00000006#32)
  | .srav .. => (0xFC0007FF#32, 0x00000007#32)
  | .jr _ => (0xFC1FFFFF#32, 0x00000008#32)
  | .jalr .. => (0xFC1F07FF#32, 0x00000009#32)
  | .syscall _ => (0xFC00003F#32, 0x0000000C#32)
  | .brk _ => (0xFC00003F#32, 0x0000000D#32)
  | .sync => (0xFFFFFFFF#32, 0x0000000F#32)
  | .mfhi _ => (0xFFFF07FF#32, 0x00000010#32)
  | .mthi _ => (0xFC1FFFFF#32, 0x00000011#32)
  | .mflo _ => (0xFFFF07FF#32, 0x00000012#32)
  | .mtlo _ => (0xFC1FFFFF#32, 0x00000013#32)
  | .dsllv .. => (0xFC0007FF#32, 0x00000014#32)
  | .dsrlv .. => (0xFC0007FF#32, 0x00000016#32)
  | .dsrav .. => (0xFC0007FF#32, 0x00000017#32)
  | .mult .. => (0xFC00FFFF#32, 0x00000018#32)
  | .multu .. => (0xFC00FFFF#32, 0x00000019#32)
  | .div .. => (0xFC00FFFF#32, 0x0000001A#32)
  | .divu .. => (0xFC00FFFF#32, 0x0000001B#32)
  | .dmult .. => (0xFC00FFFF#32, 0x0000001C#32)
  | .dmultu .. => (0xFC00FFFF#32, 0x0000001D#32)
  | .ddiv .. => (0xFC00FFFF#32, 0x0000001E#32)
  | .ddivu .. => (0xFC00FFFF#32, 0x0000001F#32)
  | .add .. => (0xFC0007FF#32, 0x00000020#32)
  | .addu .. => (0xFC0007FF#32, 0x00000021#32)
  | .sub .. => (0xFC0007FF#32, 0x00000022#32)
  | .subu .. => (0xFC0007FF#32, 0x00000023#32)
  | .and .. => (0xFC0007FF#32, 0x00000024#32)
  | .or .. => (0xFC0007FF#32, 0x00000025#32)
  | .xor .. => (0xFC0007FF#32, 0x00000026#32)
  | .nor .. => (0xFC0007FF#32, 0x00000027#32)
  | .slt .. => (0xFC0007FF#32, 0x0000002A#32)
  | .sltu .. => (0xFC0007FF#32, 0x0000002B#32)
  | .dadd .. => (0xFC0007FF#32, 0x0000002C#32)
  | .daddu .. => (0xFC0007FF#32, 0x0000002D#32)
  | .dsub .. => (0xFC0007FF#32, 0x0000002E#32)
  | .dsubu .. => (0xFC0007FF#32, 0x0000002F#32)
  | .tge .. => (0xFC00003F#32, 0x00000030#32)
  | .tgeu .. => (0xFC00003F#32, 0x00000031#32)
  | .tlt .. => (0xFC00003F#32, 0x00000032#32)
  | .tltu .. => (0xFC00003F#32, 0x00000033#32)
  | .teq .. => (0xFC00003F#32, 0x00000034#32)
  | .tne .. => (0xFC00003F#32, 0x00000036#32)
  | .dsll .. => (0xFFE0003F#32, 0x00000038#32)
  | .dsrl .. => (0xFFE0003F#32, 0x0000003A#32)
  | .dsra .. => (0xFFE0003F#32, 0x0000003B#32)
  | .dsll32 .. => (0xFFE0003F#32, 0x0000003C#32)
  | .dsrl32 .. => (0xFFE0003F#32, 0x0000003E#32)
  | .dsra32 .. => (0xFFE0003F#32, 0x0000003F#32)
  | .bltz .. => (0xFC1F0000#32, 0x04000000#32)
  | .bgez .. => (0xFC1F0000#32, 0x04010000#32)
  | .bltzl .. => (0xFC1F0000#32, 0x04020000#32)
  | .bgezl .. => (0xFC1F0000#32, 0x04030000#32)
  | .tgei .. => (0xFC1F0000#32, 0x04080000#32)
  | .tgeiu .. => (0xFC1F0000#32, 0x04090000#32)
  | .tlti .. => (0xFC1F0000#32, 0x040A0000#32)
  | .tltiu .. => (0xFC1F0000#32, 0x040B0000#32)
  | .teqi .. => (0xFC1F0000#32, 0x040C0000#32)
  | .tnei .. => (0xFC1F0000#32, 0x040E0000#32)
  | .bltzal .. => (0xFC1F0000#32, 0x04100000#32)
  | .bgezal .. => (0xFC1F0000#32, 0x04110000#32)
  | .bltzall .. => (0xFC1F0000#32, 0x04120000#32)
  | .bgezall .. => (0xFC1F0000#32, 0x04130000#32)
  | .j _ => (0xFC000000#32, 0x08000000#32)
  | .jal _ => (0xFC000000#32, 0x0C000000#32)
  | .beq .. => (0xFC000000#32, 0x10000000#32)
  | .bne .. => (0xFC000000#32, 0x14000000#32)
  | .blez .. => (0xFC1F0000#32, 0x18000000#32)
  | .bgtz .. => (0xFC1F0000#32, 0x1C000000#32)
  | .addi .. => (0xFC000000#32, 0x20000000#32)
  | .addiu .. => (0xFC000000#32, 0x24000000#32)
  | .slti .. => (0xFC000000#32, 0x28000000#32)
  | .sltiu .. => (0xFC000000#32, 0x2C000000#32)
  | .andi .. => (0xFC000000#32, 0x30000000#32)
  | .ori .. => (0xFC000000#32, 0x34000000#32)
  | .xori .. => (0xFC000000#32, 0x38000000#32)
  | .lui .. => (0xFFE00000#32, 0x3C000000#32)
  | .beql .. => (0xFC000000#32, 0x50000000#32)
  | .bnel .. => (0xFC000000#32, 0x54000000#32)
  | .blezl .. => (0xFC1F0000#32, 0x58000000#32)
  | .bgtzl .. => (0xFC1F0000#32, 0x5C000000#32)
  | .daddi .. => (0xFC000000#32, 0x60000000#32)
  | .daddiu .. => (0xFC000000#32, 0x64000000#32)
  | .ldl .. => (0xFC000000#32, 0x68000000#32)
  | .ldr .. => (0xFC000000#32, 0x6C000000#32)
  | .lb .. => (0xFC000000#32, 0x80000000#32)
  | .lh .. => (0xFC000000#32, 0x84000000#32)
  | .lwl .. => (0xFC000000#32, 0x88000000#32)
  | .lw .. => (0xFC000000#32, 0x8C000000#32)
  | .lbu .. => (0xFC000000#32, 0x90000000#32)
  | .lhu .. => (0xFC000000#32, 0x94000000#32)
  | .lwr .. => (0xFC000000#32, 0x98000000#32)
  | .lwu .. => (0xFC000000#32, 0x9C000000#32)
  | .sb .. => (0xFC000000#32, 0xA0000000#32)
  | .sh .. => (0xFC000000#32, 0xA4000000#32)
  | .swl .. => (0xFC000000#32, 0xA8000000#32)
  | .sw .. => (0xFC000000#32, 0xAC000000#32)
  | .sdl .. => (0xFC000000#32, 0xB0000000#32)
  | .sdr .. => (0xFC000000#32, 0xB4000000#32)
  | .swr .. => (0xFC000000#32, 0xB8000000#32)
  | .ll .. => (0xFC000000#32, 0xC0000000#32)
  | .lld .. => (0xFC000000#32, 0xD0000000#32)
  | .ld .. => (0xFC000000#32, 0xDC000000#32)
  | .sc .. => (0xFC000000#32, 0xE0000000#32)
  | .scd .. => (0xFC000000#32, 0xF0000000#32)
  | .sd .. => (0xFC000000#32, 0xFC000000#32)

namespace TableRow

/-- The word of `i`, under the mask of its row, is the match value of its row. -/
def Statement (i : Instr) : Prop := encode i &&& (tableRow i).1 = (tableRow i).2

/-! ### A mask, field by field -/

theorem rWord_and {rs rt rd sa a b c d : BitVec 5} {f : BitVec 6} {mask val : Word32}
    (hm : 0x3F#6 ++ a ++ b ++ c ++ d ++ 0x3F#6 = mask)
    (hv : rWord (rs &&& a) (rt &&& b) (rd &&& c) (sa &&& d) (f &&& 0x3F#6) = val) :
    rWord rs rt rd sa f &&& mask = val := by
  rw [← hm, ← hv]
  unfold rWord
  rw [and_append, and_append, and_append, and_append, and_append]; rfl

theorem codeWord_and {code : BitVec 20} {f : BitVec 6} {mask val : Word32}
    (hm : 0x3F#6 ++ 0#20 ++ 0x3F#6 = mask) (hv : codeWord (code &&& 0#20) (f &&& 0x3F#6) = val) :
    codeWord code f &&& mask = val := by
  rw [← hm, ← hv]
  unfold codeWord
  rw [and_append, and_append]; rfl

theorem trapWord_and {rs rt : BitVec 5} {code : BitVec 10} {f : BitVec 6} {mask val : Word32}
    (hm : 0x3F#6 ++ 0#5 ++ 0#5 ++ 0#10 ++ 0x3F#6 = mask)
    (hv : trapWord (rs &&& 0#5) (rt &&& 0#5) (code &&& 0#10) (f &&& 0x3F#6) = val) :
    trapWord rs rt code f &&& mask = val := by
  rw [← hm, ← hv]
  unfold trapWord
  rw [and_append, and_append, and_append, and_append]; rfl

theorem iWord_and {op : BitVec 6} {rs rt a b : BitVec 5} {imm : BitVec 16} {mask val : Word32}
    (hm : 0x3F#6 ++ a ++ b ++ 0#16 = mask) (hv : iWord (op &&& 0x3F#6) (rs &&& a) (rt &&& b) (imm &&& 0#16) = val) :
    iWord op rs rt imm &&& mask = val := by
  rw [← hm, ← hv]
  unfold iWord
  rw [and_append, and_append, and_append]

theorem jWord_and {op : BitVec 6} {target : BitVec 26} {mask val : Word32}
    (hm : 0x3F#6 ++ 0#26 = mask) (hv : jWord (op &&& 0x3F#6) (target &&& 0#26) = val) :
    jWord op target &&& mask = val := by
  rw [← hm, ← hv]
  unfold jWord
  rw [and_append]

/-! ### One lemma for each constructor -/

theorem sll (rd rt : Reg) (sa : BitVec 5) : Statement (.sll rd rt sa) :=
  rWord_and (a := 0x1F#5) (b := 0#5) (c := 0#5) (d := 0#5) rfl (by simp only [BitVec.and_zero]; rfl)

theorem srl (rd rt : Reg) (sa : BitVec 5) : Statement (.srl rd rt sa) :=
  rWord_and (a := 0x1F#5) (b := 0#5) (c := 0#5) (d := 0#5) rfl (by simp only [BitVec.and_zero]; rfl)

theorem sra (rd rt : Reg) (sa : BitVec 5) : Statement (.sra rd rt sa) :=
  rWord_and (a := 0x1F#5) (b := 0#5) (c := 0#5) (d := 0#5) rfl (by simp only [BitVec.and_zero]; rfl)

theorem sllv (rd rt rs : Reg) : Statement (.sllv rd rt rs) :=
  rWord_and (a := 0#5) (b := 0#5) (c := 0#5) (d := 0x1F#5) rfl (by simp only [BitVec.and_zero]; rfl)

theorem srlv (rd rt rs : Reg) : Statement (.srlv rd rt rs) :=
  rWord_and (a := 0#5) (b := 0#5) (c := 0#5) (d := 0x1F#5) rfl (by simp only [BitVec.and_zero]; rfl)

theorem srav (rd rt rs : Reg) : Statement (.srav rd rt rs) :=
  rWord_and (a := 0#5) (b := 0#5) (c := 0#5) (d := 0x1F#5) rfl (by simp only [BitVec.and_zero]; rfl)

theorem jr (rs : Reg) : Statement (.jr rs) :=
  rWord_and (a := 0#5) (b := 0x1F#5) (c := 0x1F#5) (d := 0x1F#5) rfl (by simp only [BitVec.and_zero]; rfl)

theorem jalr (rd rs : Reg) : Statement (.jalr rd rs) :=
  rWord_and (a := 0#5) (b := 0x1F#5) (c := 0#5) (d := 0x1F#5) rfl (by simp only [BitVec.and_zero]; rfl)

theorem syscall (code : BitVec 20) : Statement (.syscall code) :=
  codeWord_and rfl (by simp only [BitVec.and_zero]; rfl)

theorem brk (code : BitVec 20) : Statement (.brk code) :=
  codeWord_and rfl (by simp only [BitVec.and_zero]; rfl)

theorem sync : Statement .sync :=
  rfl

theorem mfhi (rd : Reg) : Statement (.mfhi rd) :=
  rWord_and (a := 0x1F#5) (b := 0x1F#5) (c := 0#5) (d := 0x1F#5) rfl (by simp only [BitVec.and_zero]; rfl)

theorem mthi (rs : Reg) : Statement (.mthi rs) :=
  rWord_and (a := 0#5) (b := 0x1F#5) (c := 0x1F#5) (d := 0x1F#5) rfl (by simp only [BitVec.and_zero]; rfl)

theorem mflo (rd : Reg) : Statement (.mflo rd) :=
  rWord_and (a := 0x1F#5) (b := 0x1F#5) (c := 0#5) (d := 0x1F#5) rfl (by simp only [BitVec.and_zero]; rfl)

theorem mtlo (rs : Reg) : Statement (.mtlo rs) :=
  rWord_and (a := 0#5) (b := 0x1F#5) (c := 0x1F#5) (d := 0x1F#5) rfl (by simp only [BitVec.and_zero]; rfl)

theorem dsllv (rd rt rs : Reg) : Statement (.dsllv rd rt rs) :=
  rWord_and (a := 0#5) (b := 0#5) (c := 0#5) (d := 0x1F#5) rfl (by simp only [BitVec.and_zero]; rfl)

theorem dsrlv (rd rt rs : Reg) : Statement (.dsrlv rd rt rs) :=
  rWord_and (a := 0#5) (b := 0#5) (c := 0#5) (d := 0x1F#5) rfl (by simp only [BitVec.and_zero]; rfl)

theorem dsrav (rd rt rs : Reg) : Statement (.dsrav rd rt rs) :=
  rWord_and (a := 0#5) (b := 0#5) (c := 0#5) (d := 0x1F#5) rfl (by simp only [BitVec.and_zero]; rfl)

theorem mult (rs rt : Reg) : Statement (.mult rs rt) :=
  rWord_and (a := 0#5) (b := 0#5) (c := 0x1F#5) (d := 0x1F#5) rfl (by simp only [BitVec.and_zero]; rfl)

theorem multu (rs rt : Reg) : Statement (.multu rs rt) :=
  rWord_and (a := 0#5) (b := 0#5) (c := 0x1F#5) (d := 0x1F#5) rfl (by simp only [BitVec.and_zero]; rfl)

theorem div (rs rt : Reg) : Statement (.div rs rt) :=
  rWord_and (a := 0#5) (b := 0#5) (c := 0x1F#5) (d := 0x1F#5) rfl (by simp only [BitVec.and_zero]; rfl)

theorem divu (rs rt : Reg) : Statement (.divu rs rt) :=
  rWord_and (a := 0#5) (b := 0#5) (c := 0x1F#5) (d := 0x1F#5) rfl (by simp only [BitVec.and_zero]; rfl)

theorem dmult (rs rt : Reg) : Statement (.dmult rs rt) :=
  rWord_and (a := 0#5) (b := 0#5) (c := 0x1F#5) (d := 0x1F#5) rfl (by simp only [BitVec.and_zero]; rfl)

theorem dmultu (rs rt : Reg) : Statement (.dmultu rs rt) :=
  rWord_and (a := 0#5) (b := 0#5) (c := 0x1F#5) (d := 0x1F#5) rfl (by simp only [BitVec.and_zero]; rfl)

theorem ddiv (rs rt : Reg) : Statement (.ddiv rs rt) :=
  rWord_and (a := 0#5) (b := 0#5) (c := 0x1F#5) (d := 0x1F#5) rfl (by simp only [BitVec.and_zero]; rfl)

theorem ddivu (rs rt : Reg) : Statement (.ddivu rs rt) :=
  rWord_and (a := 0#5) (b := 0#5) (c := 0x1F#5) (d := 0x1F#5) rfl (by simp only [BitVec.and_zero]; rfl)

theorem add (rd rs rt : Reg) : Statement (.add rd rs rt) :=
  rWord_and (a := 0#5) (b := 0#5) (c := 0#5) (d := 0x1F#5) rfl (by simp only [BitVec.and_zero]; rfl)

theorem addu (rd rs rt : Reg) : Statement (.addu rd rs rt) :=
  rWord_and (a := 0#5) (b := 0#5) (c := 0#5) (d := 0x1F#5) rfl (by simp only [BitVec.and_zero]; rfl)

theorem sub (rd rs rt : Reg) : Statement (.sub rd rs rt) :=
  rWord_and (a := 0#5) (b := 0#5) (c := 0#5) (d := 0x1F#5) rfl (by simp only [BitVec.and_zero]; rfl)

theorem subu (rd rs rt : Reg) : Statement (.subu rd rs rt) :=
  rWord_and (a := 0#5) (b := 0#5) (c := 0#5) (d := 0x1F#5) rfl (by simp only [BitVec.and_zero]; rfl)

theorem and (rd rs rt : Reg) : Statement (.and rd rs rt) :=
  rWord_and (a := 0#5) (b := 0#5) (c := 0#5) (d := 0x1F#5) rfl (by simp only [BitVec.and_zero]; rfl)

theorem or (rd rs rt : Reg) : Statement (.or rd rs rt) :=
  rWord_and (a := 0#5) (b := 0#5) (c := 0#5) (d := 0x1F#5) rfl (by simp only [BitVec.and_zero]; rfl)

theorem xor (rd rs rt : Reg) : Statement (.xor rd rs rt) :=
  rWord_and (a := 0#5) (b := 0#5) (c := 0#5) (d := 0x1F#5) rfl (by simp only [BitVec.and_zero]; rfl)

theorem nor (rd rs rt : Reg) : Statement (.nor rd rs rt) :=
  rWord_and (a := 0#5) (b := 0#5) (c := 0#5) (d := 0x1F#5) rfl (by simp only [BitVec.and_zero]; rfl)

theorem slt (rd rs rt : Reg) : Statement (.slt rd rs rt) :=
  rWord_and (a := 0#5) (b := 0#5) (c := 0#5) (d := 0x1F#5) rfl (by simp only [BitVec.and_zero]; rfl)

theorem sltu (rd rs rt : Reg) : Statement (.sltu rd rs rt) :=
  rWord_and (a := 0#5) (b := 0#5) (c := 0#5) (d := 0x1F#5) rfl (by simp only [BitVec.and_zero]; rfl)

theorem dadd (rd rs rt : Reg) : Statement (.dadd rd rs rt) :=
  rWord_and (a := 0#5) (b := 0#5) (c := 0#5) (d := 0x1F#5) rfl (by simp only [BitVec.and_zero]; rfl)

theorem daddu (rd rs rt : Reg) : Statement (.daddu rd rs rt) :=
  rWord_and (a := 0#5) (b := 0#5) (c := 0#5) (d := 0x1F#5) rfl (by simp only [BitVec.and_zero]; rfl)

theorem dsub (rd rs rt : Reg) : Statement (.dsub rd rs rt) :=
  rWord_and (a := 0#5) (b := 0#5) (c := 0#5) (d := 0x1F#5) rfl (by simp only [BitVec.and_zero]; rfl)

theorem dsubu (rd rs rt : Reg) : Statement (.dsubu rd rs rt) :=
  rWord_and (a := 0#5) (b := 0#5) (c := 0#5) (d := 0x1F#5) rfl (by simp only [BitVec.and_zero]; rfl)

theorem tge (rs rt : Reg) (code : BitVec 10) : Statement (.tge rs rt code) :=
  trapWord_and rfl (by simp only [BitVec.and_zero]; rfl)

theorem tgeu (rs rt : Reg) (code : BitVec 10) : Statement (.tgeu rs rt code) :=
  trapWord_and rfl (by simp only [BitVec.and_zero]; rfl)

theorem tlt (rs rt : Reg) (code : BitVec 10) : Statement (.tlt rs rt code) :=
  trapWord_and rfl (by simp only [BitVec.and_zero]; rfl)

theorem tltu (rs rt : Reg) (code : BitVec 10) : Statement (.tltu rs rt code) :=
  trapWord_and rfl (by simp only [BitVec.and_zero]; rfl)

theorem teq (rs rt : Reg) (code : BitVec 10) : Statement (.teq rs rt code) :=
  trapWord_and rfl (by simp only [BitVec.and_zero]; rfl)

theorem tne (rs rt : Reg) (code : BitVec 10) : Statement (.tne rs rt code) :=
  trapWord_and rfl (by simp only [BitVec.and_zero]; rfl)

theorem dsll (rd rt : Reg) (sa : BitVec 5) : Statement (.dsll rd rt sa) :=
  rWord_and (a := 0x1F#5) (b := 0#5) (c := 0#5) (d := 0#5) rfl (by simp only [BitVec.and_zero]; rfl)

theorem dsrl (rd rt : Reg) (sa : BitVec 5) : Statement (.dsrl rd rt sa) :=
  rWord_and (a := 0x1F#5) (b := 0#5) (c := 0#5) (d := 0#5) rfl (by simp only [BitVec.and_zero]; rfl)

theorem dsra (rd rt : Reg) (sa : BitVec 5) : Statement (.dsra rd rt sa) :=
  rWord_and (a := 0x1F#5) (b := 0#5) (c := 0#5) (d := 0#5) rfl (by simp only [BitVec.and_zero]; rfl)

theorem dsll32 (rd rt : Reg) (sa : BitVec 5) : Statement (.dsll32 rd rt sa) :=
  rWord_and (a := 0x1F#5) (b := 0#5) (c := 0#5) (d := 0#5) rfl (by simp only [BitVec.and_zero]; rfl)

theorem dsrl32 (rd rt : Reg) (sa : BitVec 5) : Statement (.dsrl32 rd rt sa) :=
  rWord_and (a := 0x1F#5) (b := 0#5) (c := 0#5) (d := 0#5) rfl (by simp only [BitVec.and_zero]; rfl)

theorem dsra32 (rd rt : Reg) (sa : BitVec 5) : Statement (.dsra32 rd rt sa) :=
  rWord_and (a := 0x1F#5) (b := 0#5) (c := 0#5) (d := 0#5) rfl (by simp only [BitVec.and_zero]; rfl)

theorem bltz (rs : Reg) (imm : BitVec 16) : Statement (.bltz rs imm) :=
  iWord_and (a := 0#5) (b := 0x1F#5) rfl (by simp only [BitVec.and_zero]; rfl)

theorem bgez (rs : Reg) (imm : BitVec 16) : Statement (.bgez rs imm) :=
  iWord_and (a := 0#5) (b := 0x1F#5) rfl (by simp only [BitVec.and_zero]; rfl)

theorem bltzl (rs : Reg) (imm : BitVec 16) : Statement (.bltzl rs imm) :=
  iWord_and (a := 0#5) (b := 0x1F#5) rfl (by simp only [BitVec.and_zero]; rfl)

theorem bgezl (rs : Reg) (imm : BitVec 16) : Statement (.bgezl rs imm) :=
  iWord_and (a := 0#5) (b := 0x1F#5) rfl (by simp only [BitVec.and_zero]; rfl)

theorem tgei (rs : Reg) (imm : BitVec 16) : Statement (.tgei rs imm) :=
  iWord_and (a := 0#5) (b := 0x1F#5) rfl (by simp only [BitVec.and_zero]; rfl)

theorem tgeiu (rs : Reg) (imm : BitVec 16) : Statement (.tgeiu rs imm) :=
  iWord_and (a := 0#5) (b := 0x1F#5) rfl (by simp only [BitVec.and_zero]; rfl)

theorem tlti (rs : Reg) (imm : BitVec 16) : Statement (.tlti rs imm) :=
  iWord_and (a := 0#5) (b := 0x1F#5) rfl (by simp only [BitVec.and_zero]; rfl)

theorem tltiu (rs : Reg) (imm : BitVec 16) : Statement (.tltiu rs imm) :=
  iWord_and (a := 0#5) (b := 0x1F#5) rfl (by simp only [BitVec.and_zero]; rfl)

theorem teqi (rs : Reg) (imm : BitVec 16) : Statement (.teqi rs imm) :=
  iWord_and (a := 0#5) (b := 0x1F#5) rfl (by simp only [BitVec.and_zero]; rfl)

theorem tnei (rs : Reg) (imm : BitVec 16) : Statement (.tnei rs imm) :=
  iWord_and (a := 0#5) (b := 0x1F#5) rfl (by simp only [BitVec.and_zero]; rfl)

theorem bltzal (rs : Reg) (imm : BitVec 16) : Statement (.bltzal rs imm) :=
  iWord_and (a := 0#5) (b := 0x1F#5) rfl (by simp only [BitVec.and_zero]; rfl)

theorem bgezal (rs : Reg) (imm : BitVec 16) : Statement (.bgezal rs imm) :=
  iWord_and (a := 0#5) (b := 0x1F#5) rfl (by simp only [BitVec.and_zero]; rfl)

theorem bltzall (rs : Reg) (imm : BitVec 16) : Statement (.bltzall rs imm) :=
  iWord_and (a := 0#5) (b := 0x1F#5) rfl (by simp only [BitVec.and_zero]; rfl)

theorem bgezall (rs : Reg) (imm : BitVec 16) : Statement (.bgezall rs imm) :=
  iWord_and (a := 0#5) (b := 0x1F#5) rfl (by simp only [BitVec.and_zero]; rfl)

theorem j (target : BitVec 26) : Statement (.j target) :=
  jWord_and rfl (by simp only [BitVec.and_zero]; rfl)

theorem jal (target : BitVec 26) : Statement (.jal target) :=
  jWord_and rfl (by simp only [BitVec.and_zero]; rfl)

theorem beq (rs rt : Reg) (imm : BitVec 16) : Statement (.beq rs rt imm) :=
  iWord_and (a := 0#5) (b := 0#5) rfl (by simp only [BitVec.and_zero]; rfl)

theorem bne (rs rt : Reg) (imm : BitVec 16) : Statement (.bne rs rt imm) :=
  iWord_and (a := 0#5) (b := 0#5) rfl (by simp only [BitVec.and_zero]; rfl)

theorem blez (rs : Reg) (imm : BitVec 16) : Statement (.blez rs imm) :=
  iWord_and (a := 0#5) (b := 0x1F#5) rfl (by simp only [BitVec.and_zero]; rfl)

theorem bgtz (rs : Reg) (imm : BitVec 16) : Statement (.bgtz rs imm) :=
  iWord_and (a := 0#5) (b := 0x1F#5) rfl (by simp only [BitVec.and_zero]; rfl)

theorem addi (rt rs : Reg) (imm : BitVec 16) : Statement (.addi rt rs imm) :=
  iWord_and (a := 0#5) (b := 0#5) rfl (by simp only [BitVec.and_zero]; rfl)

theorem addiu (rt rs : Reg) (imm : BitVec 16) : Statement (.addiu rt rs imm) :=
  iWord_and (a := 0#5) (b := 0#5) rfl (by simp only [BitVec.and_zero]; rfl)

theorem slti (rt rs : Reg) (imm : BitVec 16) : Statement (.slti rt rs imm) :=
  iWord_and (a := 0#5) (b := 0#5) rfl (by simp only [BitVec.and_zero]; rfl)

theorem sltiu (rt rs : Reg) (imm : BitVec 16) : Statement (.sltiu rt rs imm) :=
  iWord_and (a := 0#5) (b := 0#5) rfl (by simp only [BitVec.and_zero]; rfl)

theorem andi (rt rs : Reg) (imm : BitVec 16) : Statement (.andi rt rs imm) :=
  iWord_and (a := 0#5) (b := 0#5) rfl (by simp only [BitVec.and_zero]; rfl)

theorem ori (rt rs : Reg) (imm : BitVec 16) : Statement (.ori rt rs imm) :=
  iWord_and (a := 0#5) (b := 0#5) rfl (by simp only [BitVec.and_zero]; rfl)

theorem xori (rt rs : Reg) (imm : BitVec 16) : Statement (.xori rt rs imm) :=
  iWord_and (a := 0#5) (b := 0#5) rfl (by simp only [BitVec.and_zero]; rfl)

theorem lui (rt : Reg) (imm : BitVec 16) : Statement (.lui rt imm) :=
  iWord_and (a := 0x1F#5) (b := 0#5) rfl (by simp only [BitVec.and_zero]; rfl)

theorem beql (rs rt : Reg) (imm : BitVec 16) : Statement (.beql rs rt imm) :=
  iWord_and (a := 0#5) (b := 0#5) rfl (by simp only [BitVec.and_zero]; rfl)

theorem bnel (rs rt : Reg) (imm : BitVec 16) : Statement (.bnel rs rt imm) :=
  iWord_and (a := 0#5) (b := 0#5) rfl (by simp only [BitVec.and_zero]; rfl)

theorem blezl (rs : Reg) (imm : BitVec 16) : Statement (.blezl rs imm) :=
  iWord_and (a := 0#5) (b := 0x1F#5) rfl (by simp only [BitVec.and_zero]; rfl)

theorem bgtzl (rs : Reg) (imm : BitVec 16) : Statement (.bgtzl rs imm) :=
  iWord_and (a := 0#5) (b := 0x1F#5) rfl (by simp only [BitVec.and_zero]; rfl)

theorem daddi (rt rs : Reg) (imm : BitVec 16) : Statement (.daddi rt rs imm) :=
  iWord_and (a := 0#5) (b := 0#5) rfl (by simp only [BitVec.and_zero]; rfl)

theorem daddiu (rt rs : Reg) (imm : BitVec 16) : Statement (.daddiu rt rs imm) :=
  iWord_and (a := 0#5) (b := 0#5) rfl (by simp only [BitVec.and_zero]; rfl)

theorem ldl (rt : Reg) (offset : BitVec 16) (base : Reg) : Statement (.ldl rt offset base) :=
  iWord_and (a := 0#5) (b := 0#5) rfl (by simp only [BitVec.and_zero]; rfl)

theorem ldr (rt : Reg) (offset : BitVec 16) (base : Reg) : Statement (.ldr rt offset base) :=
  iWord_and (a := 0#5) (b := 0#5) rfl (by simp only [BitVec.and_zero]; rfl)

theorem lb (rt : Reg) (offset : BitVec 16) (base : Reg) : Statement (.lb rt offset base) :=
  iWord_and (a := 0#5) (b := 0#5) rfl (by simp only [BitVec.and_zero]; rfl)

theorem lh (rt : Reg) (offset : BitVec 16) (base : Reg) : Statement (.lh rt offset base) :=
  iWord_and (a := 0#5) (b := 0#5) rfl (by simp only [BitVec.and_zero]; rfl)

theorem lwl (rt : Reg) (offset : BitVec 16) (base : Reg) : Statement (.lwl rt offset base) :=
  iWord_and (a := 0#5) (b := 0#5) rfl (by simp only [BitVec.and_zero]; rfl)

theorem lw (rt : Reg) (offset : BitVec 16) (base : Reg) : Statement (.lw rt offset base) :=
  iWord_and (a := 0#5) (b := 0#5) rfl (by simp only [BitVec.and_zero]; rfl)

theorem lbu (rt : Reg) (offset : BitVec 16) (base : Reg) : Statement (.lbu rt offset base) :=
  iWord_and (a := 0#5) (b := 0#5) rfl (by simp only [BitVec.and_zero]; rfl)

theorem lhu (rt : Reg) (offset : BitVec 16) (base : Reg) : Statement (.lhu rt offset base) :=
  iWord_and (a := 0#5) (b := 0#5) rfl (by simp only [BitVec.and_zero]; rfl)

theorem lwr (rt : Reg) (offset : BitVec 16) (base : Reg) : Statement (.lwr rt offset base) :=
  iWord_and (a := 0#5) (b := 0#5) rfl (by simp only [BitVec.and_zero]; rfl)

theorem lwu (rt : Reg) (offset : BitVec 16) (base : Reg) : Statement (.lwu rt offset base) :=
  iWord_and (a := 0#5) (b := 0#5) rfl (by simp only [BitVec.and_zero]; rfl)

theorem sb (rt : Reg) (offset : BitVec 16) (base : Reg) : Statement (.sb rt offset base) :=
  iWord_and (a := 0#5) (b := 0#5) rfl (by simp only [BitVec.and_zero]; rfl)

theorem sh (rt : Reg) (offset : BitVec 16) (base : Reg) : Statement (.sh rt offset base) :=
  iWord_and (a := 0#5) (b := 0#5) rfl (by simp only [BitVec.and_zero]; rfl)

theorem swl (rt : Reg) (offset : BitVec 16) (base : Reg) : Statement (.swl rt offset base) :=
  iWord_and (a := 0#5) (b := 0#5) rfl (by simp only [BitVec.and_zero]; rfl)

theorem sw (rt : Reg) (offset : BitVec 16) (base : Reg) : Statement (.sw rt offset base) :=
  iWord_and (a := 0#5) (b := 0#5) rfl (by simp only [BitVec.and_zero]; rfl)

theorem sdl (rt : Reg) (offset : BitVec 16) (base : Reg) : Statement (.sdl rt offset base) :=
  iWord_and (a := 0#5) (b := 0#5) rfl (by simp only [BitVec.and_zero]; rfl)

theorem sdr (rt : Reg) (offset : BitVec 16) (base : Reg) : Statement (.sdr rt offset base) :=
  iWord_and (a := 0#5) (b := 0#5) rfl (by simp only [BitVec.and_zero]; rfl)

theorem swr (rt : Reg) (offset : BitVec 16) (base : Reg) : Statement (.swr rt offset base) :=
  iWord_and (a := 0#5) (b := 0#5) rfl (by simp only [BitVec.and_zero]; rfl)

theorem ll (rt : Reg) (offset : BitVec 16) (base : Reg) : Statement (.ll rt offset base) :=
  iWord_and (a := 0#5) (b := 0#5) rfl (by simp only [BitVec.and_zero]; rfl)

theorem lld (rt : Reg) (offset : BitVec 16) (base : Reg) : Statement (.lld rt offset base) :=
  iWord_and (a := 0#5) (b := 0#5) rfl (by simp only [BitVec.and_zero]; rfl)

theorem ld (rt : Reg) (offset : BitVec 16) (base : Reg) : Statement (.ld rt offset base) :=
  iWord_and (a := 0#5) (b := 0#5) rfl (by simp only [BitVec.and_zero]; rfl)

theorem sc (rt : Reg) (offset : BitVec 16) (base : Reg) : Statement (.sc rt offset base) :=
  iWord_and (a := 0#5) (b := 0#5) rfl (by simp only [BitVec.and_zero]; rfl)

theorem scd (rt : Reg) (offset : BitVec 16) (base : Reg) : Statement (.scd rt offset base) :=
  iWord_and (a := 0#5) (b := 0#5) rfl (by simp only [BitVec.and_zero]; rfl)

theorem sd (rt : Reg) (offset : BitVec 16) (base : Reg) : Statement (.sd rt offset base) :=
  iWord_and (a := 0#5) (b := 0#5) rfl (by simp only [BitVec.and_zero]; rfl)

end TableRow
end Laws
end Sys2Proof
end

