-- ==== Sys2Proof/Tests/Slice0.lean ====
section
/-! SUPPORT. The model's own tests. Expected values come from the spec: the words from the encoding fields of
spec/opcode_table.json, the results from 95_test_vectors.md (each test names its vector). The last part shows, for each
statement with hypotheses, states and operands that meet them. -/

namespace Sys2Proof
namespace Tests

open Machine

/-! ### Small states -/

/-- The state an outcome goes on with. -/
def after : Result → State
  | .next t => t
  | .fault _ => State.reset
  | .refused _ => State.reset

/-- The instruction word `w` run in the state `s`: placed where the step fetches, one step. -/
def ran (w : Word32) (s : State) : State := after (step (placeWord w s))

/-- Environment A of 95_test_vectors.md: two RAM ranges side by side and two devices side by side. -/
def envA : Params :=
  { resetParams with
    ranges := [⟨0x0#32, 0x1000, .ram⟩, ⟨0x1000#32, 0x1000, .ram⟩, ⟨0x10000000#32, 8, .device 0 false⟩,
      ⟨0x10000008#32, 8, .device 1 true⟩] }

/-- The 16 bytes at 0x100 of environment A: 00 11 22 ... FF. -/
def bytesA : List Byte := (List.range 16).map fun i => BitVec.ofNat 8 (0x11 * i)

/-- Environment A before its one step: the pc at 0x1000, the next device reply 0x80818283. -/
def start : State :=
  { State.reset with params := envA, mem := copyImage [] 0x100 bytesA, pc := 0x1000#64, devReplies := [0x80818283#64] }

/-- Environment A with x1 and x2. -/
def two (x1 x2 : Word64) : State := (start.setReg 1 x1).setReg 2 x2

/-- Environment A with x1 = 0x100 and x2. -/
def based (x2 : Word64) : State := two 0x100#64 x2

/-- The `n` bytes of memory from `a` on. -/
def bytesAt (s : State) (a n : Nat) : List Byte := (List.range n).map fun i => s.byteAt (BitVec.ofNat 32 (a + i))

/-- The exception of environment A's one instruction. -/
def faultA (kind : ExcKind) (info : Word64) (w : Word32) : Run := .faulted ⟨kind, info, 0x1000#64, false, some w⟩

/-! ### Decoding: for each instruction a word written out field by field, as in the opcode table -/

theorem test_decode_sll : decode 0b00000000000_01010_00111_11001_000000#32 = .instr (.sll 0x7 0xA 0x19) := by decide
theorem test_decode_srl : decode 0b00000000000_01010_00111_11001_000010#32 = .instr (.srl 0x7 0xA 0x19) := by decide
theorem test_decode_sra : decode 0b00000000000_01010_00111_11001_000011#32 = .instr (.sra 0x7 0xA 0x19) := by decide
theorem test_decode_sllv : decode 0b000000_10001_01010_00111_00000000100#32 = .instr (.sllv 0x7 0xA 0x11) := by decide
theorem test_decode_srlv : decode 0b000000_10001_01010_00111_00000000110#32 = .instr (.srlv 0x7 0xA 0x11) := by decide
theorem test_decode_srav : decode 0b000000_10001_01010_00111_00000000111#32 = .instr (.srav 0x7 0xA 0x11) := by decide
theorem test_decode_jr : decode 0b000000_10001_000000000000000001000#32 = .instr (.jr 0x11) := by decide
theorem test_decode_jalr : decode 0b000000_10001_00000_00111_00000001001#32 = .instr (.jalr 0x7 0x11) := by decide
theorem test_decode_syscall : decode 0b000000_10000000000000000101_001100#32 = .instr (.syscall 0x80005) := by decide
theorem test_decode_brk : decode 0b000000_10000000000000000101_001101#32 = .instr (.brk 0x80005) := by decide
theorem test_decode_sync : decode 0b00000000000000000000000000001111#32 = .instr (.sync) := by decide
theorem test_decode_mfhi : decode 0b0000000000000000_00111_00000010000#32 = .instr (.mfhi 0x7) := by decide
theorem test_decode_mthi : decode 0b000000_10001_000000000000000010001#32 = .instr (.mthi 0x11) := by decide
theorem test_decode_mflo : decode 0b0000000000000000_00111_00000010010#32 = .instr (.mflo 0x7) := by decide
theorem test_decode_mtlo : decode 0b000000_10001_000000000000000010011#32 = .instr (.mtlo 0x11) := by decide
theorem test_decode_dsllv : decode 0b000000_10001_01010_00111_00000010100#32 = .instr (.dsllv 0x7 0xA 0x11) := by decide
theorem test_decode_dsrlv : decode 0b000000_10001_01010_00111_00000010110#32 = .instr (.dsrlv 0x7 0xA 0x11) := by decide
theorem test_decode_dsrav : decode 0b000000_10001_01010_00111_00000010111#32 = .instr (.dsrav 0x7 0xA 0x11) := by decide
theorem test_decode_mult : decode 0b000000_10001_01010_0000000000011000#32 = .instr (.mult 0x11 0xA) := by decide
theorem test_decode_multu : decode 0b000000_10001_01010_0000000000011001#32 = .instr (.multu 0x11 0xA) := by decide
theorem test_decode_div : decode 0b000000_10001_01010_0000000000011010#32 = .instr (.div 0x11 0xA) := by decide
theorem test_decode_divu : decode 0b000000_10001_01010_0000000000011011#32 = .instr (.divu 0x11 0xA) := by decide
theorem test_decode_dmult : decode 0b000000_10001_01010_0000000000011100#32 = .instr (.dmult 0x11 0xA) := by decide
theorem test_decode_dmultu : decode 0b000000_10001_01010_0000000000011101#32 = .instr (.dmultu 0x11 0xA) := by decide
theorem test_decode_ddiv : decode 0b000000_10001_01010_0000000000011110#32 = .instr (.ddiv 0x11 0xA) := by decide
theorem test_decode_ddivu : decode 0b000000_10001_01010_0000000000011111#32 = .instr (.ddivu 0x11 0xA) := by decide
theorem test_decode_add : decode 0b000000_10001_01010_00111_00000100000#32 = .instr (.add 0x7 0x11 0xA) := by decide
theorem test_decode_addu : decode 0b000000_10001_01010_00111_00000100001#32 = .instr (.addu 0x7 0x11 0xA) := by decide
theorem test_decode_sub : decode 0b000000_10001_01010_00111_00000100010#32 = .instr (.sub 0x7 0x11 0xA) := by decide
theorem test_decode_subu : decode 0b000000_10001_01010_00111_00000100011#32 = .instr (.subu 0x7 0x11 0xA) := by decide
theorem test_decode_and : decode 0b000000_10001_01010_00111_00000100100#32 = .instr (.and 0x7 0x11 0xA) := by decide
theorem test_decode_or : decode 0b000000_10001_01010_00111_00000100101#32 = .instr (.or 0x7 0x11 0xA) := by decide
theorem test_decode_xor : decode 0b000000_10001_01010_00111_00000100110#32 = .instr (.xor 0x7 0x11 0xA) := by decide
theorem test_decode_nor : decode 0b000000_10001_01010_00111_00000100111#32 = .instr (.nor 0x7 0x11 0xA) := by decide
theorem test_decode_slt : decode 0b000000_10001_01010_00111_00000101010#32 = .instr (.slt 0x7 0x11 0xA) := by decide
theorem test_decode_sltu : decode 0b000000_10001_01010_00111_00000101011#32 = .instr (.sltu 0x7 0x11 0xA) := by decide
theorem test_decode_dadd : decode 0b000000_10001_01010_00111_00000101100#32 = .instr (.dadd 0x7 0x11 0xA) := by decide
theorem test_decode_daddu : decode 0b000000_10001_01010_00111_00000101101#32 = .instr (.daddu 0x7 0x11 0xA) := by decide
theorem test_decode_dsub : decode 0b000000_10001_01010_00111_00000101110#32 = .instr (.dsub 0x7 0x11 0xA) := by decide
theorem test_decode_dsubu : decode 0b000000_10001_01010_00111_00000101111#32 = .instr (.dsubu 0x7 0x11 0xA) := by decide
theorem test_decode_tge : decode 0b000000_10001_01010_1000000101_110000#32 = .instr (.tge 0x11 0xA 0x205) := by decide
theorem test_decode_tgeu : decode 0b000000_10001_01010_1000000101_110001#32 = .instr (.tgeu 0x11 0xA 0x205) := by decide
theorem test_decode_tlt : decode 0b000000_10001_01010_1000000101_110010#32 = .instr (.tlt 0x11 0xA 0x205) := by decide
theorem test_decode_tltu : decode 0b000000_10001_01010_1000000101_110011#32 = .instr (.tltu 0x11 0xA 0x205) := by decide
theorem test_decode_teq : decode 0b000000_10001_01010_1000000101_110100#32 = .instr (.teq 0x11 0xA 0x205) := by decide
theorem test_decode_tne : decode 0b000000_10001_01010_1000000101_110110#32 = .instr (.tne 0x11 0xA 0x205) := by decide
theorem test_decode_dsll : decode 0b00000000000_01010_00111_11001_111000#32 = .instr (.dsll 0x7 0xA 0x19) := by decide
theorem test_decode_dsrl : decode 0b00000000000_01010_00111_11001_111010#32 = .instr (.dsrl 0x7 0xA 0x19) := by decide
theorem test_decode_dsra : decode 0b00000000000_01010_00111_11001_111011#32 = .instr (.dsra 0x7 0xA 0x19) := by decide
theorem test_decode_dsll32 : decode 0b00000000000_01010_00111_11001_111100#32 = .instr (.dsll32 0x7 0xA 0x19) := by decide
theorem test_decode_dsrl32 : decode 0b00000000000_01010_00111_11001_111110#32 = .instr (.dsrl32 0x7 0xA 0x19) := by decide
theorem test_decode_dsra32 : decode 0b00000000000_01010_00111_11001_111111#32 = .instr (.dsra32 0x7 0xA 0x19) := by decide
theorem test_decode_bltz : decode 0b000001_10001_00000_1000000000000101#32 = .instr (.bltz 0x11 0x8005) := by decide
theorem test_decode_bgez : decode 0b000001_10001_00001_1000000000000101#32 = .instr (.bgez 0x11 0x8005) := by decide
theorem test_decode_bltzl : decode 0b000001_10001_00010_1000000000000101#32 = .instr (.bltzl 0x11 0x8005) := by decide
theorem test_decode_bgezl : decode 0b000001_10001_00011_1000000000000101#32 = .instr (.bgezl 0x11 0x8005) := by decide
theorem test_decode_tgei : decode 0b000001_10001_01000_1000000000000101#32 = .instr (.tgei 0x11 0x8005) := by decide
theorem test_decode_tgeiu : decode 0b000001_10001_01001_1000000000000101#32 = .instr (.tgeiu 0x11 0x8005) := by decide
theorem test_decode_tlti : decode 0b000001_10001_01010_1000000000000101#32 = .instr (.tlti 0x11 0x8005) := by decide
theorem test_decode_tltiu : decode 0b000001_10001_01011_1000000000000101#32 = .instr (.tltiu 0x11 0x8005) := by decide
theorem test_decode_teqi : decode 0b000001_10001_01100_1000000000000101#32 = .instr (.teqi 0x11 0x8005) := by decide
theorem test_decode_tnei : decode 0b000001_10001_01110_1000000000000101#32 = .instr (.tnei 0x11 0x8005) := by decide
theorem test_decode_bltzal : decode 0b000001_10001_10000_1000000000000101#32 = .instr (.bltzal 0x11 0x8005) := by decide
theorem test_decode_bgezal : decode 0b000001_10001_10001_1000000000000101#32 = .instr (.bgezal 0x11 0x8005) := by decide
theorem test_decode_bltzall : decode 0b000001_10001_10010_1000000000000101#32 = .instr (.bltzall 0x11 0x8005) := by decide
theorem test_decode_bgezall : decode 0b000001_10001_10011_1000000000000101#32 = .instr (.bgezall 0x11 0x8005) := by decide
theorem test_decode_j : decode 0b000010_10000000000000000000000011#32 = .instr (.j 0x2000003) := by decide
theorem test_decode_jal : decode 0b000011_10000000000000000000000011#32 = .instr (.jal 0x2000003) := by decide
theorem test_decode_beq : decode 0b000100_10001_01010_1000000000000101#32 = .instr (.beq 0x11 0xA 0x8005) := by decide
theorem test_decode_bne : decode 0b000101_10001_01010_1000000000000101#32 = .instr (.bne 0x11 0xA 0x8005) := by decide
theorem test_decode_blez : decode 0b000110_10001_00000_1000000000000101#32 = .instr (.blez 0x11 0x8005) := by decide
theorem test_decode_bgtz : decode 0b000111_10001_00000_1000000000000101#32 = .instr (.bgtz 0x11 0x8005) := by decide
theorem test_decode_addi : decode 0b001000_10001_01010_1000000000000101#32 = .instr (.addi 0xA 0x11 0x8005) := by decide
theorem test_decode_addiu : decode 0b001001_10001_01010_1000000000000101#32 = .instr (.addiu 0xA 0x11 0x8005) := by decide
theorem test_decode_slti : decode 0b001010_10001_01010_1000000000000101#32 = .instr (.slti 0xA 0x11 0x8005) := by decide
theorem test_decode_sltiu : decode 0b001011_10001_01010_1000000000000101#32 = .instr (.sltiu 0xA 0x11 0x8005) := by decide
theorem test_decode_andi : decode 0b001100_10001_01010_1000000000000101#32 = .instr (.andi 0xA 0x11 0x8005) := by decide
theorem test_decode_ori : decode 0b001101_10001_01010_1000000000000101#32 = .instr (.ori 0xA 0x11 0x8005) := by decide
theorem test_decode_xori : decode 0b001110_10001_01010_1000000000000101#32 = .instr (.xori 0xA 0x11 0x8005) := by decide
theorem test_decode_lui : decode 0b00111100000_01010_1000000000000101#32 = .instr (.lui 0xA 0x8005) := by decide
theorem test_decode_beql : decode 0b010100_10001_01010_1000000000000101#32 = .instr (.beql 0x11 0xA 0x8005) := by decide
theorem test_decode_bnel : decode 0b010101_10001_01010_1000000000000101#32 = .instr (.bnel 0x11 0xA 0x8005) := by decide
theorem test_decode_blezl : decode 0b010110_10001_00000_1000000000000101#32 = .instr (.blezl 0x11 0x8005) := by decide
theorem test_decode_bgtzl : decode 0b010111_10001_00000_1000000000000101#32 = .instr (.bgtzl 0x11 0x8005) := by decide
theorem test_decode_daddi : decode 0b011000_10001_01010_1000000000000101#32 = .instr (.daddi 0xA 0x11 0x8005) := by decide
theorem test_decode_daddiu : decode 0b011001_10001_01010_1000000000000101#32 = .instr (.daddiu 0xA 0x11 0x8005) := by decide
theorem test_decode_ldl : decode 0b011010_10001_01010_1000000000000101#32 = .instr (.ldl 0xA 0x8005 0x11) := by decide
theorem test_decode_ldr : decode 0b011011_10001_01010_1000000000000101#32 = .instr (.ldr 0xA 0x8005 0x11) := by decide
theorem test_decode_lb : decode 0b100000_10001_01010_1000000000000101#32 = .instr (.lb 0xA 0x8005 0x11) := by decide
theorem test_decode_lh : decode 0b100001_10001_01010_1000000000000101#32 = .instr (.lh 0xA 0x8005 0x11) := by decide
theorem test_decode_lwl : decode 0b100010_10001_01010_1000000000000101#32 = .instr (.lwl 0xA 0x8005 0x11) := by decide
theorem test_decode_lw : decode 0b100011_10001_01010_1000000000000101#32 = .instr (.lw 0xA 0x8005 0x11) := by decide
theorem test_decode_lbu : decode 0b100100_10001_01010_1000000000000101#32 = .instr (.lbu 0xA 0x8005 0x11) := by decide
theorem test_decode_lhu : decode 0b100101_10001_01010_1000000000000101#32 = .instr (.lhu 0xA 0x8005 0x11) := by decide
theorem test_decode_lwr : decode 0b100110_10001_01010_1000000000000101#32 = .instr (.lwr 0xA 0x8005 0x11) := by decide
theorem test_decode_lwu : decode 0b100111_10001_01010_1000000000000101#32 = .instr (.lwu 0xA 0x8005 0x11) := by decide
theorem test_decode_sb : decode 0b101000_10001_01010_1000000000000101#32 = .instr (.sb 0xA 0x8005 0x11) := by decide
theorem test_decode_sh : decode 0b101001_10001_01010_1000000000000101#32 = .instr (.sh 0xA 0x8005 0x11) := by decide
theorem test_decode_swl : decode 0b101010_10001_01010_1000000000000101#32 = .instr (.swl 0xA 0x8005 0x11) := by decide
theorem test_decode_sw : decode 0b101011_10001_01010_1000000000000101#32 = .instr (.sw 0xA 0x8005 0x11) := by decide
theorem test_decode_sdl : decode 0b101100_10001_01010_1000000000000101#32 = .instr (.sdl 0xA 0x8005 0x11) := by decide
theorem test_decode_sdr : decode 0b101101_10001_01010_1000000000000101#32 = .instr (.sdr 0xA 0x8005 0x11) := by decide
theorem test_decode_swr : decode 0b101110_10001_01010_1000000000000101#32 = .instr (.swr 0xA 0x8005 0x11) := by decide
theorem test_decode_ll : decode 0b110000_10001_01010_1000000000000101#32 = .instr (.ll 0xA 0x8005 0x11) := by decide
theorem test_decode_lld : decode 0b110100_10001_01010_1000000000000101#32 = .instr (.lld 0xA 0x8005 0x11) := by decide
theorem test_decode_ld : decode 0b110111_10001_01010_1000000000000101#32 = .instr (.ld 0xA 0x8005 0x11) := by decide
theorem test_decode_sc : decode 0b111000_10001_01010_1000000000000101#32 = .instr (.sc 0xA 0x8005 0x11) := by decide
theorem test_decode_scd : decode 0b111100_10001_01010_1000000000000101#32 = .instr (.scd 0xA 0x8005 0x11) := by decide
theorem test_decode_sd : decode 0b111111_10001_01010_1000000000000101#32 = .instr (.sd 0xA 0x8005 0x11) := by decide

/-! ### Reserved words (30_encoding.md R113; vectors VA48, VA49, VB19, VB28, VS5, VS18 to VS24) -/

theorem test_reserved_mbz_rs_of_sll : decode 0x00221800#32 = .reserved 0x00221800#32 .mustBeZero := by decide
theorem test_reserved_mbz_sa_of_add : decode 0x00221860#32 = .reserved 0x00221860#32 .mustBeZero := by decide
theorem test_reserved_mbz_rt_of_blez : decode 0x18220004#32 = .reserved 0x18220004#32 .mustBeZero := by decide
theorem test_reserved_mbz_rd_of_jr : decode 0x03E00808#32 = .reserved 0x03E00808#32 .mustBeZero := by decide
theorem test_reserved_mbz_code_of_sync : decode 0x0000004F#32 = .reserved 0x0000004F#32 .mustBeZero := by decide
theorem test_reserved_primary_13 : decode 0x4C000000#32 = .reserved 0x4C000000#32 .primary := by decide
theorem test_reserved_primary_1c : decode 0x70000000#32 = .reserved 0x70000000#32 .primary := by decide
theorem test_reserved_special_01 : decode 0x00000001#32 = .reserved 0x00000001#32 .special := by decide
theorem test_reserved_regimm_04 : decode 0x04040000#32 = .reserved 0x04040000#32 .regimm := by decide
theorem test_reserved_mfc0 : decode 0x40086000#32 = .reserved 0x40086000#32 .coprocessor := by decide
theorem test_reserved_ldc1 : decode 0xD4000000#32 = .reserved 0xD4000000#32 .coprocessor := by decide
theorem test_reserved_cache : decode 0xBC200000#32 = .reserved 0xBC200000#32 .cache := by decide

/-- The decoder reads the four bytes of a word most significant first (30_encoding.md R100). -/
theorem test_decode_bytes : decodeBytes 0x00#8 0x22#8 0x18#8 0x20#8 = .instr (.add 3 1 2) := by decide

theorem test_decode_table_word : decodeTableWord 32 0x00221820 = some (.add 3 1 2) := by decide

/-! ### Ill-formed range tables (20_memory.md R61; vectors VT1 to VT4) -/

theorem test_wellformed_envA : envA.wf := by decide
theorem test_wellformed_reset : resetParams.wf := by decide
theorem test_refuses_size_not_multiple_of_8 : ¬ wellFormedRanges [⟨0x0#32, 0x1004, .ram⟩] := by decide
theorem test_refuses_base_not_multiple_of_8 : ¬ wellFormedRanges [⟨0x4#32, 0x1000, .ram⟩] := by decide
theorem test_refuses_overlap : ¬ wellFormedRanges [⟨0x0#32, 0x1000, .ram⟩, ⟨0x800#32, 0x1000, .ram⟩] := by decide
theorem test_refuses_no_ram : ¬ wellFormedRanges [⟨0x10000000#32, 8, .device 0 false⟩] := by decide
theorem test_refuses_empty_range : ¬ wellFormedRanges [⟨0x0#32, 0x1000, .ram⟩, ⟨0x2000#32, 0, .ram⟩] := by decide
theorem test_refuses_range_past_the_bus : ¬ wellFormedRanges [⟨0xFFFFFFF8#32, 16, .ram⟩] := by decide
theorem test_accepts_range_up_to_the_bus : wellFormedRanges [⟨0xFFFFFFF8#32, 8, .ram⟩] := by decide

/-! ### One step of each instruction, in environment A -/

/-- VA1: add $3,$1,$2. -/
theorem test_add :
    (ran 0x00221820#32 (two 0x7FFFFFFF#64 0x1#64)).run = faultA .arithmeticOverflow 0x221820#64 0x00221820#32 := by
  decide
/-- VA4: addu $3,$1,$2. -/
theorem test_addu : (ran 0x00221821#32 (two 0x123456789#64 0x0#64)).reg 3 = 0x23456789#64 := by decide
/-- VA5: sub $3,$1,$2. -/
theorem test_sub :
    (ran 0x00221822#32 (two 0xFFFFFFFF80000000#64 0x1#64)).run = faultA .arithmeticOverflow 0x221822#64 0x00221822#32 := by
  decide
/-- VA6: subu $3,$1,$2. -/
theorem test_subu : (ran 0x00221823#32 (two 0x0#64 0x1#64)).reg 3 = 0xFFFFFFFFFFFFFFFF#64 := by decide
/-- VA7: dadd $3,$1,$2. -/
theorem test_dadd :
    (ran 0x0022182C#32 (two 0x7FFFFFFFFFFFFFFF#64 0x1#64)).run = faultA .arithmeticOverflow 0x22182C#64 0x0022182C#32 := by
  decide
/-- VA8: daddu $3,$1,$2. -/
theorem test_daddu : (ran 0x0022182D#32 (two 0x7FFFFFFFFFFFFFFF#64 0x1#64)).reg 3 = 0x8000000000000000#64 := by decide
/-- VA9: dsub $3,$1,$2. -/
theorem test_dsub :
    (ran 0x0022182E#32 (two 0x8000000000000000#64 0x1#64)).run = faultA .arithmeticOverflow 0x22182E#64 0x0022182E#32 := by
  decide
/-- VA10: dsubu $3,$1,$2. -/
theorem test_dsubu : (ran 0x0022182F#32 (two 0x0#64 0x1#64)).reg 3 = 0xFFFFFFFFFFFFFFFF#64 := by decide
/-- VA12: addi $2,$1,-1. -/
theorem test_addi : (ran 0x2022FFFF#32 (two 0x0#64 0x0#64)).reg 2 = 0xFFFFFFFFFFFFFFFF#64 := by decide
/-- VA13: addiu $2,$1,1. -/
theorem test_addiu : (ran 0x24220001#32 (two 0x7FFFFFFF#64 0x0#64)).reg 2 = 0xFFFFFFFF80000000#64 := by decide
/-- VA14: daddi $2,$1,1. -/
theorem test_daddi :
    (ran 0x60220001#32 (two 0x7FFFFFFFFFFFFFFF#64 0x0#64)).run = faultA .arithmeticOverflow 0x60220001#64 0x60220001#32 := by
  decide
/-- VA15: daddiu $2,$1,-1. -/
theorem test_daddiu : (ran 0x6422FFFF#32 (two 0x0#64 0x0#64)).reg 2 = 0xFFFFFFFFFFFFFFFF#64 := by decide
/-- VA18: slt $3,$1,$2. -/
theorem test_slt : (ran 0x0022182A#32 (two 0xFFFFFFFFFFFFFFFF#64 0x1#64)).reg 3 = 0x1#64 := by decide
/-- VA19: sltu $3,$1,$2. -/
theorem test_sltu : (ran 0x0022182B#32 (two 0xFFFFFFFFFFFFFFFF#64 0x1#64)).reg 3 = 0x0#64 := by decide
/-- VA20: slti $2,$1,-1. -/
theorem test_slti : (ran 0x2822FFFF#32 (two 0xFFFFFFFFFFFFFFFE#64 0x0#64)).reg 2 = 0x1#64 := by decide
/-- VA21: sltiu $2,$1,0xFFFF. -/
theorem test_sltiu : (ran 0x2C22FFFF#32 (two 0xFFFF#64 0x0#64)).reg 2 = 0x1#64 := by decide
/-- VA23: and $3,$1,$2. -/
theorem test_and :
    (ran 0x00221824#32 (two 0xFF00FF00FF00FF00#64 0xFF00FF00FF00FF0#64)).reg 3 = 0xF000F000F000F00#64 := by
  decide
/-- VA24: or $3,$1,$2. -/
theorem test_or : (ran 0x00221825#32 (two 0xFF00#64 0xFF#64)).reg 3 = 0xFFFF#64 := by decide
/-- VA25: xor $3,$1,$2. -/
theorem test_xor : (ran 0x00221826#32 (two 0xFFFFFFFFFFFFFFFF#64 0xF0#64)).reg 3 = 0xFFFFFFFFFFFFFF0F#64 := by decide
/-- VA26: nor $3,$0,$0. -/
theorem test_nor : (ran 0x00001827#32 start).reg 3 = 0xFFFFFFFFFFFFFFFF#64 := by decide
/-- VA27: andi $2,$1,0xFFFF. -/
theorem test_andi : (ran 0x3022FFFF#32 (two 0xFFFFFFFFFFFFFFFF#64 0x0#64)).reg 2 = 0xFFFF#64 := by decide
/-- VA28: ori $2,$0,0x8000. -/
theorem test_ori : (ran 0x34028000#32 start).reg 2 = 0x8000#64 := by decide
/-- VA29: xori $2,$1,0xFFFF. -/
theorem test_xori : (ran 0x3822FFFF#32 (two 0xFF#64 0x0#64)).reg 2 = 0xFF00#64 := by decide
/-- VA30: lui $2,0x8000. -/
theorem test_lui : (ran 0x3C028000#32 start).reg 2 = 0xFFFFFFFF80000000#64 := by decide
/-- VA33: sll $3,$2,4. -/
theorem test_sll : (ran 0x00021900#32 (two 0x0#64 0xFFFFFFFF0FFFFFFF#64)).reg 3 = 0xFFFFFFFFFFFFFFF0#64 := by decide
/-- VA34: srl $3,$2,4. -/
theorem test_srl : (ran 0x00021902#32 (two 0x0#64 0xFFFFFFFFFFFFFFF0#64)).reg 3 = 0xFFFFFFF#64 := by decide
/-- VA35: sra $3,$2,4. -/
theorem test_sra : (ran 0x00021903#32 (two 0x0#64 0xFFFFFFFFFFFFFFF0#64)).reg 3 = 0xFFFFFFFFFFFFFFFF#64 := by decide
/-- VA36: sllv $3,$2,$1. -/
theorem test_sllv : (ran 0x00221804#32 (two 0x21#64 0x1#64)).reg 3 = 0x2#64 := by decide
/-- VA37: srlv $3,$2,$1. -/
theorem test_srlv : (ran 0x00221806#32 (two 0x1#64 0x80000000#64)).reg 3 = 0x40000000#64 := by decide
/-- VA38: srav $3,$2,$1. -/
theorem test_srav : (ran 0x00221807#32 (two 0x1F#64 0x80000000#64)).reg 3 = 0xFFFFFFFFFFFFFFFF#64 := by decide
/-- VA39: dsll $3,$2,4. -/
theorem test_dsll : (ran 0x00021938#32 (two 0x0#64 0xFFFFFFFFFFFFFFF#64)).reg 3 = 0xFFFFFFFFFFFFFFF0#64 := by decide
/-- VA40: dsrl $3,$2,4. -/
theorem test_dsrl : (ran 0x0002193A#32 (two 0x0#64 0xFFFFFFFFFFFFFFFF#64)).reg 3 = 0xFFFFFFFFFFFFFFF#64 := by decide
/-- VA41: dsra $3,$2,4. -/
theorem test_dsra : (ran 0x0002193B#32 (two 0x0#64 0xFFFFFFFFFFFFFF00#64)).reg 3 = 0xFFFFFFFFFFFFFFF0#64 := by decide
/-- VA42: dsll32 $3,$2,0. -/
theorem test_dsll32 : (ran 0x0002183C#32 (two 0x0#64 0x12345678#64)).reg 3 = 0x1234567800000000#64 := by decide
/-- VA43: dsrl32 $3,$2,31. -/
theorem test_dsrl32 : (ran 0x00021FFE#32 (two 0x0#64 0xFFFFFFFFFFFFFFFF#64)).reg 3 = 0x1#64 := by decide
/-- VA44: dsra32 $3,$2,0. -/
theorem test_dsra32 :
    (ran 0x0002183F#32 (two 0x0#64 0x8000000000000000#64)).reg 3 = 0xFFFFFFFF80000000#64 := by
  decide
/-- VA45: dsllv $3,$2,$1. -/
theorem test_dsllv : (ran 0x00221814#32 (two 0x41#64 0x1#64)).reg 3 = 0x2#64 := by decide
/-- VA46: dsrlv $3,$2,$1. -/
theorem test_dsrlv : (ran 0x00221816#32 (two 0x3F#64 0xFFFFFFFFFFFFFFFF#64)).reg 3 = 0x1#64 := by decide
/-- VA47: dsrav $3,$2,$1. -/
theorem test_dsrav :
    (ran 0x00221817#32 (two 0x3F#64 0x8000000000000000#64)).reg 3 = 0xFFFFFFFFFFFFFFFF#64 := by
  decide
/-- VM1: mult $1,$2. -/
theorem test_mult :
    (ran 0x00220018#32 (two 0xFFFFFFFFFFFFFFFE#64 0x3#64)).hi = 0xFFFFFFFFFFFFFFFF#64 ∧
      (ran 0x00220018#32 (two 0xFFFFFFFFFFFFFFFE#64 0x3#64)).lo = 0xFFFFFFFFFFFFFFFA#64 := by
  decide
/-- VM3: multu $1,$2. -/
theorem test_multu :
    (ran 0x00220019#32 (two 0xFFFFFFFF#64 0xFFFFFFFF#64)).hi = 0xFFFFFFFFFFFFFFFE#64 ∧
      (ran 0x00220019#32 (two 0xFFFFFFFF#64 0xFFFFFFFF#64)).lo = 0x1#64 := by
  decide
/-- VM5: dmult $1,$2. -/
theorem test_dmult :
    (ran 0x0022001C#32 (two 0x8000000000000000#64 0xFFFFFFFFFFFFFFFF#64)).hi = 0x0#64 ∧
      (ran 0x0022001C#32 (two 0x8000000000000000#64 0xFFFFFFFFFFFFFFFF#64)).lo = 0x8000000000000000#64 := by
  decide
/-- VM6: dmultu $1,$2. -/
theorem test_dmultu :
    (ran 0x0022001D#32 (two 0xFFFFFFFFFFFFFFFF#64 0xFFFFFFFFFFFFFFFF#64)).hi = 0xFFFFFFFFFFFFFFFE#64 ∧
      (ran 0x0022001D#32 (two 0xFFFFFFFFFFFFFFFF#64 0xFFFFFFFFFFFFFFFF#64)).lo = 0x1#64 := by
  decide
/-- VM8: div $1,$2. -/
theorem test_div :
    (ran 0x0022001A#32 (two 0xFFFFFFFFFFFFFFF9#64 0x2#64)).hi = 0xFFFFFFFFFFFFFFFF#64 ∧
      (ran 0x0022001A#32 (two 0xFFFFFFFFFFFFFFF9#64 0x2#64)).lo = 0xFFFFFFFFFFFFFFFD#64 := by
  decide
/-- VM12: divu $1,$2. -/
theorem test_divu :
    (ran 0x0022001B#32 (two 0xFFFFFFFF#64 0x2#64)).hi = 0x1#64 ∧
      (ran 0x0022001B#32 (two 0xFFFFFFFF#64 0x2#64)).lo = 0x7FFFFFFF#64 := by
  decide
/-- VM13: ddiv $1,$2. -/
theorem test_ddiv :
    (ran 0x0022001E#32 (two 0x8000000000000000#64 0xFFFFFFFFFFFFFFFF#64)).hi = 0x0#64 ∧
      (ran 0x0022001E#32 (two 0x8000000000000000#64 0xFFFFFFFFFFFFFFFF#64)).lo = 0x8000000000000000#64 := by
  decide
/-- VM15: ddivu $1,$2. -/
theorem test_ddivu :
    (ran 0x0022001F#32 (two 0xFFFFFFFFFFFFFFFF#64 0x10#64)).hi = 0xF#64 ∧
      (ran 0x0022001F#32 (two 0xFFFFFFFFFFFFFFFF#64 0x10#64)).lo = 0xFFFFFFFFFFFFFFF#64 := by
  decide
/-- VL21: lb $1,8($1). -/
theorem test_lb : (ran 0x80210008#32 (based 0x0#64)).reg 1 = 0xFFFFFFFFFFFFFF88#64 := by decide
/-- VL2: lbu $2,8($1). -/
theorem test_lbu : (ran 0x90220008#32 (based 0x0#64)).reg 2 = 0x88#64 := by decide
/-- VL3: lh $2,14($1). -/
theorem test_lh : (ran 0x8422000E#32 (based 0x0#64)).reg 2 = 0xFFFFFFFFFFFFEEFF#64 := by decide
/-- VL4: lhu $2,14($1). -/
theorem test_lhu : (ran 0x9422000E#32 (based 0x0#64)).reg 2 = 0xEEFF#64 := by decide
/-- VL11: lw $2,-4($1). -/
theorem test_lw : (ran 0x8C22FFFC#32 (two 0x104#64 0x0#64)).reg 2 = 0x112233#64 := by decide
/-- VL7: lwu $2,12($1). -/
theorem test_lwu : (ran 0x9C22000C#32 (based 0x0#64)).reg 2 = 0xCCDDEEFF#64 := by decide
/-- VL9: ld $2,8($1). -/
theorem test_ld : (ran 0xDC220008#32 (based 0x0#64)).reg 2 = 0x8899AABBCCDDEEFF#64 := by decide
/-- VL31: lwl $2,1($1). -/
theorem test_lwl : (ran 0x88220001#32 (based 0xAAAAAAAABBBBBBBB#64)).reg 2 = 0x112233BB#64 := by decide
/-- VL35: lwr $2,6($1). -/
theorem test_lwr : (ran 0x98220006#32 (based 0xAAAAAAAABBBBBBBB#64)).reg 2 = 0xFFFFFFFFBB445566#64 := by decide
/-- VL38: ldl $2,3($1). -/
theorem test_ldl : (ran 0x68220003#32 (based 0xAAAAAAAABBBBBBBB#64)).reg 2 = 0x3344556677BBBBBB#64 := by decide
/-- VL40: ldr $2,3($1). -/
theorem test_ldr : (ran 0x6C220003#32 (based 0xAAAAAAAABBBBBBBB#64)).reg 2 = 0xAAAAAAAA00112233#64 := by decide
/-- VL22: sb $2,1($1). -/
theorem test_sb :
    (ran 0xA0220001#32 (based 0x1234#64)).pc = 0x1004#64 ∧
      bytesAt (ran 0xA0220001#32 (based 0x1234#64)) 0x100 5 = [0x00, 0x34, 0x22, 0x33, 0x44] := by
  decide
/-- VL23: sh $2,2($1). -/
theorem test_sh :
    (ran 0xA4220002#32 (based 0x1234#64)).pc = 0x1004#64 ∧
      bytesAt (ran 0xA4220002#32 (based 0x1234#64)) 0x100 5 = [0x00, 0x11, 0x12, 0x34, 0x44] := by
  decide
/-- VL25: sw $2,4($1). -/
theorem test_sw :
    (ran 0xAC220004#32 (based 0xDEADBEEF#64)).pc = 0x1004#64 ∧
      bytesAt (ran 0xAC220004#32 (based 0xDEADBEEF#64)) 0x100 9 = [0x00, 0x11, 0x22, 0x33, 0xDE, 0xAD, 0xBE, 0xEF, 0x88] := by
  decide
/-- VL26: sd $2,8($1). -/
theorem test_sd :
    (ran 0xFC220008#32 (based 0x102030405060708#64)).pc = 0x1004#64 ∧
      bytesAt (ran 0xFC220008#32 (based 0x102030405060708#64)) 0x107 9 = [0x77, 0x01, 0x02, 0x03, 0x04, 0x05, 0x06, 0x07, 0x08] := by
  decide
/-- VL43: swl $2,1($1). -/
theorem test_swl :
    (ran 0xA8220001#32 (based 0xCAFEBABE#64)).pc = 0x1004#64 ∧
      bytesAt (ran 0xA8220001#32 (based 0xCAFEBABE#64)) 0x100 5 = [0x00, 0xCA, 0xFE, 0xBA, 0x44] := by
  decide
/-- VL46: swr $2,1($1). -/
theorem test_swr :
    (ran 0xB8220001#32 (based 0xCAFEBABE#64)).pc = 0x1004#64 ∧
      bytesAt (ran 0xB8220001#32 (based 0xCAFEBABE#64)) 0x100 5 = [0xBA, 0xBE, 0x22, 0x33, 0x44] := by
  decide
/-- VL48: sdl $2,5($1). -/
theorem test_sdl :
    (ran 0xB0220005#32 (based 0x102030405060708#64)).pc = 0x1004#64 ∧
      bytesAt (ran 0xB0220005#32 (based 0x102030405060708#64)) 0x105 3 = [0x01, 0x02, 0x03] := by
  decide
/-- VL49: sdr $2,5($1). -/
theorem test_sdr :
    (ran 0xB4220005#32 (based 0x102030405060708#64)).pc = 0x1004#64 ∧
      bytesAt (ran 0xB4220005#32 (based 0x102030405060708#64)) 0x100 6 = [0x03, 0x04, 0x05, 0x06, 0x07, 0x08] := by
  decide
/-- VL51: ll $2,8($1). -/
theorem test_ll :
    (ran 0xC0220008#32 (based 0x0#64)).reg 2 = 0xFFFFFFFF8899AABB#64 ∧
      (ran 0xC0220008#32 (based 0x0#64)).llbit = true := by
  decide
/-- VL52: lld $2,8($1). -/
theorem test_lld :
    (ran 0xD0220008#32 (based 0x0#64)).reg 2 = 0x8899AABBCCDDEEFF#64 ∧
      (ran 0xD0220008#32 (based 0x0#64)).llbit = true := by
  decide
/-- VL53: sc $2,0($1). -/
theorem test_sc :
    (ran 0xE0220000#32 { based 0x7#64 with llbit := true }).reg 2 = 0x1#64 ∧
      (ran 0xE0220000#32 { based 0x7#64 with llbit := true }).llbit = true ∧
      bytesAt (ran 0xE0220000#32 { based 0x7#64 with llbit := true }) 0x100 4 = [0x00, 0x00, 0x00, 0x07] := by
  decide
/-- VL56: scd $2,8($1). -/
theorem test_scd :
    (ran 0xF0220008#32 { based 0x5#64 with llbit := true }).reg 2 = 0x1#64 ∧
      bytesAt (ran 0xF0220008#32 { based 0x5#64 with llbit := true }) 0x108 8 = [0x00, 0x00, 0x00, 0x00, 0x00, 0x00, 0x00, 0x05] := by
  decide
/-- VB1: beq $1,$2,3. -/
theorem test_beq :
    (ran 0x10220003#32 (two 0x5#64 0x5#64)).pend = some 0x1010#64 ∧
      (ran 0x10220003#32 (two 0x5#64 0x5#64)).pc = 0x1004#64 := by
  decide
/-- VB3: bne $1,$2,-1. -/
theorem test_bne :
    (ran 0x1422FFFF#32 (two 0x5#64 0x6#64)).pend = some 0x1000#64 ∧
      (ran 0x1422FFFF#32 (two 0x5#64 0x6#64)).pc = 0x1004#64 := by
  decide
/-- VB4: blez $1,4. -/
theorem test_blez :
    (ran 0x18200004#32 (two 0x0#64 0x0#64)).pend = some 0x1014#64 ∧
      (ran 0x18200004#32 (two 0x0#64 0x0#64)).pc = 0x1004#64 := by
  decide
/-- VB5: bgtz $1,4. -/
theorem test_bgtz :
    (ran 0x1C200004#32 (two 0xFFFFFFFFFFFFFFFF#64 0x0#64)).pend = none ∧
      (ran 0x1C200004#32 (two 0xFFFFFFFFFFFFFFFF#64 0x0#64)).pc = 0x1004#64 := by
  decide
/-- VB6: bltz $1,4. -/
theorem test_bltz :
    (ran 0x04200004#32 (two 0x8000000000000000#64 0x0#64)).pend = some 0x1014#64 ∧
      (ran 0x04200004#32 (two 0x8000000000000000#64 0x0#64)).pc = 0x1004#64 := by
  decide
/-- VB7: bgez $1,-2. -/
theorem test_bgez :
    (ran 0x0421FFFE#32 (two 0x0#64 0x0#64)).pend = some 0xFFC#64 ∧
      (ran 0x0421FFFE#32 (two 0x0#64 0x0#64)).pc = 0x1004#64 := by
  decide
/-- VB9: bltzal $31,4. -/
theorem test_bltzal :
    (ran 0x07F00004#32 (start.setReg 31 0xFFFFFFFFFFFFFFFF#64)).reg 31 = 0x1008#64 ∧
      (ran 0x07F00004#32 (start.setReg 31 0xFFFFFFFFFFFFFFFF#64)).pend = some 0x1014#64 ∧
      (ran 0x07F00004#32 (start.setReg 31 0xFFFFFFFFFFFFFFFF#64)).pc = 0x1004#64 := by
  decide
/-- VB10: bgezal $0,0x10 (bal). -/
theorem test_bgezal :
    (ran 0x04110010#32 start).reg 31 = 0x1008#64 ∧
      (ran 0x04110010#32 start).pend = some 0x1044#64 ∧
      (ran 0x04110010#32 start).pc = 0x1004#64 := by
  decide
/-- VB11: beql $1,$2,3. -/
theorem test_beql :
    (ran 0x50220003#32 (two 0x1#64 0x2#64)).pend = none ∧
      (ran 0x50220003#32 (two 0x1#64 0x2#64)).pc = 0x1008#64 := by
  decide
/-- VB12: bnel $1,$2,3. -/
theorem test_bnel :
    (ran 0x54220003#32 (two 0x1#64 0x2#64)).pend = some 0x1010#64 ∧
      (ran 0x54220003#32 (two 0x1#64 0x2#64)).pc = 0x1004#64 := by
  decide
/-- VB13: blezl $1,4. -/
theorem test_blezl :
    (ran 0x58200004#32 (two 0x1#64 0x0#64)).pend = none ∧
      (ran 0x58200004#32 (two 0x1#64 0x0#64)).pc = 0x1008#64 := by
  decide
/-- VB14: bgtzl $1,4. -/
theorem test_bgtzl :
    (ran 0x5C200004#32 (two 0x1#64 0x0#64)).pend = some 0x1014#64 ∧
      (ran 0x5C200004#32 (two 0x1#64 0x0#64)).pc = 0x1004#64 := by
  decide
/-- VB15: bltzl $1,4. -/
theorem test_bltzl :
    (ran 0x04220004#32 (two 0x0#64 0x0#64)).pend = none ∧
      (ran 0x04220004#32 (two 0x0#64 0x0#64)).pc = 0x1008#64 := by
  decide
/-- VB16: bgezl $1,4. -/
theorem test_bgezl :
    (ran 0x04230004#32 (two 0x0#64 0x0#64)).pend = some 0x1014#64 ∧
      (ran 0x04230004#32 (two 0x0#64 0x0#64)).pc = 0x1004#64 := by
  decide
/-- VB17: bltzall $1,4. -/
theorem test_bltzall :
    (ran 0x04320004#32 (two 0x0#64 0x0#64)).reg 31 = 0x1008#64 ∧
      (ran 0x04320004#32 (two 0x0#64 0x0#64)).pend = none ∧
      (ran 0x04320004#32 (two 0x0#64 0x0#64)).pc = 0x1008#64 := by
  decide
/-- VB18: bgezall $1,4. -/
theorem test_bgezall :
    (ran 0x04330004#32 (two 0xFFFFFFFFFFFFFFFF#64 0x0#64)).reg 31 = 0x1008#64 ∧
      (ran 0x04330004#32 (two 0xFFFFFFFFFFFFFFFF#64 0x0#64)).pend = none ∧
      (ran 0x04330004#32 (two 0xFFFFFFFFFFFFFFFF#64 0x0#64)).pc = 0x1008#64 := by
  decide
/-- VB20: j 0x2000. -/
theorem test_j :
    (ran 0x08000800#32 start).pend = some 0x2000#64 ∧
      (ran 0x08000800#32 start).pc = 0x1004#64 := by
  decide
/-- VB23: jal 0x2000. -/
theorem test_jal :
    (ran 0x0C000800#32 start).reg 31 = 0x1008#64 ∧
      (ran 0x0C000800#32 start).pend = some 0x2000#64 ∧
      (ran 0x0C000800#32 start).pc = 0x1004#64 := by
  decide
/-- VB24: jr $31. -/
theorem test_jr :
    (ran 0x03E00008#32 (start.setReg 31 0x2008#64)).pend = some 0x2008#64 ∧
      (ran 0x03E00008#32 (start.setReg 31 0x2008#64)).pc = 0x1004#64 := by
  decide
/-- VB26: jalr $2,$2. -/
theorem test_jalr :
    (ran 0x00401009#32 (two 0x0#64 0x4000#64)).reg 2 = 0x1008#64 ∧
      (ran 0x00401009#32 (two 0x0#64 0x4000#64)).pend = some 0x4000#64 ∧
      (ran 0x00401009#32 (two 0x0#64 0x4000#64)).pc = 0x1004#64 := by
  decide
/-- VS2: syscall 0x12345. -/
theorem test_syscall : (ran 0x0048D14C#32 start).run = faultA .syscall 0x48D14C#64 0x0048D14C#32 := by decide
/-- VS3: break 7. -/
theorem test_brk : (ran 0x0007000D#32 start).run = faultA .breakpoint 0x7000D#64 0x0007000D#32 := by decide
/-- VS4: sync. -/
theorem test_sync : (ran 0x0000000F#32 start).pc = 0x1004#64 ∧ (ran 0x0000000F#32 start).run = .running := by decide
/-- VS6: tge $1,$2. -/
theorem test_tge : (ran 0x00220030#32 (two 0x2#64 0x2#64)).run = faultA .trap 0x220030#64 0x00220030#32 := by decide
/-- VS7: tgeu $1,$2. -/
theorem test_tgeu :
    (ran 0x00220031#32 (two 0x1#64 0xFFFFFFFFFFFFFFFF#64)).pc = 0x1004#64 ∧
      (ran 0x00220031#32 (two 0x1#64 0xFFFFFFFFFFFFFFFF#64)).run = .running := by
  decide
/-- VS8: tlt $1,$2. -/
theorem test_tlt :
    (ran 0x00220032#32 (two 0xFFFFFFFFFFFFFFFF#64 0x0#64)).run = faultA .trap 0x220032#64 0x00220032#32 := by
  decide
/-- VS9: tltu $1,$2. -/
theorem test_tltu :
    (ran 0x00220033#32 (two 0xFFFFFFFFFFFFFFFF#64 0x0#64)).pc = 0x1004#64 ∧
      (ran 0x00220033#32 (two 0xFFFFFFFFFFFFFFFF#64 0x0#64)).run = .running := by
  decide
/-- VS10: teq $1,$2. -/
theorem test_teq : (ran 0x00220034#32 (two 0x3#64 0x3#64)).run = faultA .trap 0x220034#64 0x00220034#32 := by decide
/-- VS11: tne $1,$2. -/
theorem test_tne :
    (ran 0x00220036#32 (two 0x3#64 0x3#64)).pc = 0x1004#64 ∧
      (ran 0x00220036#32 (two 0x3#64 0x3#64)).run = .running := by
  decide
/-- VS12: tgei $1,-1. -/
theorem test_tgei : (ran 0x0428FFFF#32 (two 0x0#64 0x0#64)).run = faultA .trap 0x428FFFF#64 0x0428FFFF#32 := by decide
/-- VS13: tgeiu $1,-1. -/
theorem test_tgeiu :
    (ran 0x0429FFFF#32 (two 0x10#64 0x0#64)).pc = 0x1004#64 ∧
      (ran 0x0429FFFF#32 (two 0x10#64 0x0#64)).run = .running := by
  decide
/-- VS14: tlti $1,0. -/
theorem test_tlti :
    (ran 0x042A0000#32 (two 0xFFFFFFFFFFFFFFFB#64 0x0#64)).run = faultA .trap 0x42A0000#64 0x042A0000#32 := by
  decide
/-- VS15: tltiu $1,-1. -/
theorem test_tltiu :
    (ran 0x042BFFFF#32 (two 0x5#64 0x0#64)).run = faultA .trap 0x42BFFFF#64 0x042BFFFF#32 := by
  decide
/-- VS16: teqi $1,-1. -/
theorem test_teqi :
    (ran 0x042CFFFF#32 (two 0xFFFFFFFFFFFFFFFF#64 0x0#64)).run = faultA .trap 0x42CFFFF#64 0x042CFFFF#32 := by
  decide
/-- VS17: tnei $1,5. -/
theorem test_tnei :
    (ran 0x042E0005#32 (two 0x5#64 0x0#64)).pc = 0x1004#64 ∧
      (ran 0x042E0005#32 (two 0x5#64 0x0#64)).run = .running := by
  decide
/-- VM17: mthi $1 with x1 = -3. -/
theorem test_mthi : (ran 0x00200011#32 (two 0xFFFFFFFFFFFFFFFD#64 0#64)).hi = 0xFFFFFFFFFFFFFFFD#64 := by decide
/-- VM17: mfhi $2. -/
theorem test_mfhi : (ran 0x00001010#32 (start.setHiLo 0xFFFFFFFFFFFFFFFD#64 0x7#64)).reg 2 = 0xFFFFFFFFFFFFFFFD#64 := by
  decide
/-- VM17: mtlo $0 leaves HI. -/
theorem test_mtlo : (ran 0x00000013#32 (start.setHiLo 0x5#64 0x7#64)).lo = 0#64 ∧
    (ran 0x00000013#32 (start.setHiLo 0x5#64 0x7#64)).hi = 0x5#64 := by decide
/-- VM17: mflo $3. -/
theorem test_mflo : (ran 0x00001812#32 (start.setHiLo 0x5#64 0x7#64)).reg 3 = 0x7#64 := by decide

/-! ### The bus, in environment A (95_test_vectors.md VK1 to VK12, VL16, VL19, VL29) -/

theorem test_classify_last_word_of_ram : classify envA 0xFFC#32 .word = .ok (.ramAt ⟨0#32, 0x1000, .ram⟩ 0xFFC) := by
  rfl
theorem test_classify_misaligned_ram : classify envA 0xFFE#32 .word = .error .unaligned := by rfl
theorem test_classify_last_dword_of_ram : classify envA 0xFF8#32 .dword = .ok (.ramAt ⟨0#32, 0x1000, .ram⟩ 0xFF8) := by
  rfl
theorem test_classify_misaligned_device : classify envA 0x10000002#32 .word = .ok (.devAt 0) := by rfl
theorem test_classify_span_of_devices : classify envA 0x10000006#32 .word = .error .span := by rfl
theorem test_classify_aligned_device : classify envA 0x1000000E#32 .word = .error .unaligned := by rfl
theorem test_classify_span_into_device : classify envA 0x0FFFFFFE#32 .word = .error .span := by rfl
theorem test_classify_open : classify envA 0x80000001#32 .word = .ok .unmapped := by rfl
theorem test_classify_wraps : classify envA 0xFFFFFFFE#32 .word = .error .span := by rfl
theorem test_classify_top : classify envA 0xFFFFFFFC#32 .word = .ok .unmapped := by rfl

/-- VL13: an unmapped word is four FILL bytes. -/
theorem test_load_unmapped : (ran 0x8C220000#32 (two 0x80000000#64 0#64)).reg 2 = 0xFFFFFFFFEEEEEEEE#64 := by decide
/-- VL20: a load into register 0 still calls the device. -/
theorem test_load_device : (ran 0x8C200000#32 (two 0x10000000#64 0#64)).devLog =
    [.read 0 0x10000000#32 .word 0x80818283#64] := by decide
/-- VL29. -/
theorem test_store_device : (ran 0xAC220000#32 (two 0x10000000#64 0xCAFEBABE#64)).devLog =
    [.write 0 0x10000000#32 .word 0xCAFEBABE#64] := by decide
/-- VL28: a store to unmapped space is dropped. -/
theorem test_store_unmapped : (ran 0xAC220000#32 (two 0x80000000#64 0x5#64)).mem = (placeWord 0xAC220000#32 start).mem := by
  decide

/-! ### The sequencer (95_test_vectors.md W4, VQ1 to VQ4, VQ6, VT8) -/

/-- Environment A in a delay slot, the branch's target 0x40. -/
def inSlot : State := { start with pend := some 0x40#64 }

/-- W4, step 2: the instruction in the delay slot completes, then the target takes effect. -/
theorem test_delay_slot : (ran 0x24020001#32 inSlot).pc = 0x40#64 ∧ (ran 0x24020001#32 inSlot).pend = none := by decide
/-- VQ1: a fault in a delay slot leaves the branch pending. -/
theorem test_fault_in_slot :
    (ran 0x8C020002#32 inSlot).run =
        .faulted ⟨.addressError .unaligned .load, 0x2#64, 0x1000#64, true, some 0x8C020002#32⟩ ∧
      (ran 0x8C020002#32 inSlot).pend = some 0x40#64 := by decide
/-- VQ2: jal 0x80 in a delay slot. -/
theorem test_branch_in_slot : (ran 0x0C000020#32 inSlot).pc = 0x80#64 ∧ (ran 0x0C000020#32 inSlot).reg 31 = 0x1008#64 := by
  decide
/-- VQ3: a not-taken branch-likely in a delay slot annuls nothing. -/
theorem test_skip_in_slot : (ran 0x50010000#32 (inSlot.setReg 1 0x5#64)).pc = 0x40#64 := by decide
/-- VQ6: the halt word halts before decoding. -/
theorem test_halt_word : (ran 0x70000000#32 { start with params := { envA with haltWord := some 0x70000000#32 } }).run =
    .halted := by decide
/-- VT8: from reset with nothing loaded, the unmapped fetch reads FILL bytes, a reserved word. -/
theorem test_step_from_reset : (after (step State.reset)).run =
    .faulted ⟨.reservedInstruction, 0xEEEEEEEE#64, 0xFFFFFFFFBFC00000#64, false, some 0xEEEEEEEE#32⟩ := by decide
/-- The state whose next step runs a table word (here ADDIU) from reset. -/
theorem test_withFetchWord : (after (step (State.reset.withFetchWord 32 0x24020005))).reg 2 = 0x5#64 := by decide

/-! ### The host (95_test_vectors.md VT5 to VT7; 60_exceptions.md R344, R345, R349) -/

theorem test_load_image : bytesAt (after (load [0x24, 0x02, 0x00, 0x05] 0x0#64 State.reset)) 0 5 =
    [0x24, 0x02, 0x00, 0x05, 0x00] := by decide
/-- VT6. -/
theorem test_load_image_outside_ram : load (List.replicate 0x20 0x1) 0xFFF0#64
    { State.reset with params := { resetParams with imageBase := 0xFFF0#32 } } = .fault .loadFailure := by rfl
/-- VT7. -/
theorem test_load_misaligned_entry : load [0x1] 0x2#64 State.reset = .fault .loadFailure := by rfl
/-- VT2. -/
theorem test_construct_refused : construct { resetParams with ranges := [⟨0x0#32, 0x1004, .ram⟩] }
    ⟨Vector.replicate 31 0, 0, 0, []⟩ = .fault .malformedRangeTable :=
  if_neg test_refuses_size_not_multiple_of_8
/-- R344: only bytes of PERIPH_WRITABLE are written. -/
theorem test_tick : bytesAt (tick [(0x200, 0xAB), (0x208, 0xCD)] []
    { start with params := { envA with periphWritable := [⟨0x200#32, 8⟩] } }) 0x200 9 =
      [0xAB, 0, 0, 0, 0, 0, 0, 0, 0] := by decide
/-- R345: the steps that returned Continue before the exception (none from reset with nothing loaded). -/
theorem test_count : (hostRun 3 State.reset).1 = 0 := by decide

/-! ### Witnesses: for each statement with hypotheses, states and operands that meet them

Named after the statement; one conjunct for each clause, at a boundary value where the clause has a range. -/

/-- Environment A is a state the invariant holds in. -/
theorem start_inv : Inv start where
  paramsOk := by decide
  memCanonical := by decide
  memIsRam := by unfold MemoryIsRam; decide
  pcAligned := by unfold Aligned4; decide
  pendAligned := fun _ h => by cases h
  recordAgrees := fun _ h => by cases h

/-- Environment A with the word `w` at the pc. -/
def fetching (w : Word32) : State := placeWord w start

theorem witness_DecodedWordIsItsEncoding :
    decode 0x00221820#32 = .instr (.add 3 1 2) ∧ decode 0x4C000000#32 = .reserved 0x4C000000#32 .primary := by decide

theorem witness_StepRunsDecodedInstruction :
    (fetching 0x24020005#32).run = .running ∧
      fetchWord (fetching 0x24020005#32) = .ok (0x24020005#32, fetching 0x24020005#32) ∧
      (fetching 0x24020005#32).params.haltWord ≠ some 0x24020005#32 ∧
      decode 0x24020005#32 = .instr (.addiu 2 0 5) :=
  ⟨rfl, rfl, by decide, by decide⟩

theorem witness_ReservedWordRaises :
    (fetching 0x4C000000#32).run = .running ∧
      fetchWord (fetching 0x4C000000#32) = .ok (0x4C000000#32, fetching 0x4C000000#32) ∧
      (fetching 0x4C000000#32).params.haltWord ≠ some 0x4C000000#32 ∧
      decode 0x4C000000#32 = .reserved 0x4C000000#32 .primary :=
  ⟨rfl, rfl, by decide, by decide⟩

/-- Environment A with a halt word, standing at the pc. -/
def halting : State := { fetching 0x70000000#32 with params := { envA with haltWord := some 0x70000000#32 } }

theorem witness_HaltWordHalts :
    (halting.run = .running ∧ fetchWord halting = .ok (0x70000000#32, halting) ∧
        halting.params.haltWord = some 0x70000000#32) ∧
      (fetching 0x24020005#32).run = .running ∧ (fetching 0x24020005#32).params.haltWord = none ∧
      ∃ t, step (fetching 0x24020005#32) = .next t :=
  ⟨⟨rfl, rfl, rfl⟩, rfl, rfl, _, rfl⟩

theorem witness_TerminalStatesStay :
    (∃ e, (ran 0x0000000C#32 start).run = .faulted e) ∧ { start with run := .halted }.run = .halted :=
  ⟨⟨_, rfl⟩, rfl⟩

/-- A misaligned pc: a state no run reaches, in which the fetch is in error. -/
def misaligned : State := { start with pc := 0x1002#64 }

theorem witness_FetchReadsTheBus :
    (memRead misaligned (misaligned.pc.setWidth 32) .word = .error .unaligned ∧ misaligned.run = .running) ∧
      (∃ v u, memRead start (start.pc.setWidth 32) .word = .ok (v, u)) ∧ Inv start :=
  ⟨⟨rfl, rfl⟩, ⟨_, _, rfl⟩, start_inv⟩

/-- Environment A with `beq $0,$0,3` at the pc and `addiu $2,$0,1` behind it. -/
def branching : State := { fetching 0x10000003#32 with mem := writeBytes (fetching 0x10000003#32).mem 0x1004 4 0x24020001 }

theorem witness_DelaySlotLaw :
    branching.run = .running ∧ branching.pend = none ∧ fetchWord branching = .ok (0x10000003#32, branching) ∧
      branching.params.haltWord ≠ some 0x10000003#32 ∧ decode 0x10000003#32 = .instr (.beq 0 0 3) ∧
      requestOf branching (.beq 0 0 3) = .branch 0x1010#64 ∧
      ∃ t r, step branching = .next t ∧ t.run = .running ∧ fetchWord t = .ok (0x24020001#32, t) ∧
        t.params.haltWord ≠ some 0x24020001#32 ∧ decode 0x24020001#32 = .instr (.addiu 2 0 1) ∧
        (∀ other, requestOf t (.addiu 2 0 1) ≠ .branch other) ∧ step t = .next r ∧ r.run = .running :=
  ⟨rfl, rfl, rfl, by decide, by decide, by decide, _, _, rfl, rfl, rfl, by decide, by decide,
    (fun _ h => by cases h), rfl, rfl⟩

theorem witness_BranchInDelaySlot :
    inSlot.run = .running ∧ inSlot.pend = some 0x40#64 ∧
      (∃ t, exec (.jal 0x20) inSlot = .next t ∧ t.run = .running ∧ requestOf inSlot (.jal 0x20) = .branch 0x80#64 ∧
        destination (.jal 0x20) = some 31) ∧
      ∃ t, exec (.bnel 0 0 0) inSlot = .next t ∧ t.run = .running ∧ requestOf inSlot (.bnel 0 0 0) = .skip :=
  ⟨rfl, rfl, ⟨_, rfl, rfl, rfl, rfl⟩, _, rfl, rfl, rfl⟩

theorem witness_CompletedInstructionIsSequenced :
    start.run = .running ∧ (∃ t, exec .sync start = .next t ∧ t.run = .running) ∧
      ∃ t, exec (.syscall 0) start = .next t ∧ t.run ≠ .running :=
  ⟨rfl, ⟨_, rfl, rfl⟩, _, rfl, fun h => by cases h⟩

theorem witness_ExceptionChangesOnlyRun :
    (misaligned.run = .running ∧ ∃ t e, step misaligned = .next t ∧ t.run = .faulted e) ∧
      (fetching 0x0000000C#32).run = .running ∧
      ∃ t e, step (fetching 0x0000000C#32) = .next t ∧ t.run = .faulted e :=
  ⟨⟨rfl, _, _, rfl, rfl⟩, rfl, _, _, rfl, rfl⟩

theorem witness_ExceptionKinds :
    (misaligned.params.wf ∧ misaligned.run = .running ∧ ∃ t e, step misaligned = .next t ∧ t.run = .faulted e) ∧
      ∃ t e, step (fetching 0x4C000000#32) = .next t ∧ t.run = .faulted e ∧ (fetching 0x4C000000#32).params.wf :=
  ⟨⟨by decide, rfl, _, _, rfl, rfl⟩, _, _, rfl, rfl, by decide⟩

theorem witness_ConfigurationNeverChanges :
    (∃ t, step start = .next t) ∧ ∃ t, load [0x1] 0x4#64 start = .next t :=
  ⟨⟨_, rfl⟩, _, rfl⟩

theorem witness_InvariantKeptByStep : Inv start ∧ ∃ t, step start = .next t :=
  ⟨start_inv, _, rfl⟩

/-- The draws that are all zero. -/
def zeroDraws : Draws := ⟨Vector.replicate 31 0, 0, 0, []⟩

theorem construct_envA : ∃ s, construct envA zeroDraws = .next s :=
  ⟨_, if_pos test_wellformed_envA⟩

theorem witness_HostActionsKeepInvariant :
    (∃ s, construct envA zeroDraws = .next s) ∧ Inv start ∧ start.run = .running ∧
      ∃ t, load [0x1] 0x4#64 start = .next t :=
  ⟨construct_envA, start_inv, rfl, _, rfl⟩

theorem witness_PcAlwaysAligned :
    (∃ s, construct envA zeroDraws = .next s) ∧ (0x2#64 : Word64).toNat % 4 ≠ 0 ∧
      (∃ t, load [0x1] 0x4#64 start = .next t) ∧ (Inv start ∧ ∃ t, step start = .next t) ∧
      (start.pend = none ∧ ∃ t, step (fetching 0x24020005#32) = .next t ∧ t.run = .running ∧
        (fetching 0x24020005#32).pend = none) ∧
      (∃ t, step (fetching 0x54000003#32) = .next t ∧ t.run = .running ∧ t.pc = (fetching 0x54000003#32).pc + 8) ∧
      (Aligned4 start.pc ∧ requestOf start (.j 1) = .branch 0x4#64) ∧
      requestOf (two 0x2009#64 0#64) (.jr 1) = .branch 0x2009#64 :=
  ⟨construct_envA, by decide, ⟨_, rfl⟩, ⟨start_inv, _, rfl⟩, ⟨rfl, _, rfl, rfl, rfl⟩, ⟨_, rfl, rfl, rfl⟩,
    ⟨start_inv.pcAligned, rfl⟩, by decide⟩

/-- Environment A with LLbit set. -/
def linked : State := { start with llbit := true }

theorem witness_LinkBit :
    (∃ t, exec (.ll 2 0x100 0) start = .next t ∧ setsLink (.ll 2 0x100 0) = true ∧ start.run = .running ∧
        t.run = .running) ∧
      (linked.llbit = true ∧ ∃ t, step linked = .next t) ∧ (∃ s, construct envA zeroDraws = .next s) ∧
      readsLink (.lw 2 0x100 0) = false ∧ ∃ t, exec (.lw 2 0x100 0) start = .next t :=
  ⟨⟨_, rfl, rfl, rfl, rfl⟩, ⟨rfl, _, rfl⟩, construct_envA, rfl, _, rfl⟩

theorem witness_HiLoWrittenAndRead :
    (∃ t, exec (.mult 1 2) start = .next t) ∧ writesHi (.mult 1 2) = true ∧
      (∃ t, exec (.mtlo 1) start = .next t) ∧ writesHi (.mtlo 1) = false ∧ writesLo (.mthi 1) = false ∧
      (∀ rd, Instr.mtlo 1 ≠ .mfhi rd) ∧ ∀ rd, Instr.mthi 1 ≠ .mflo rd :=
  ⟨⟨_, rfl⟩, rfl, ⟨_, rfl⟩, rfl, rfl, (fun _ h => by cases h), fun _ h => by cases h⟩

theorem witness_OnlyTheDestinationIsWritten :
    (∃ t, exec (.add 3 1 2) start = .next t) ∧ destination (.add 3 1 2) ≠ some 2 ∧
      (∃ t, exec (.sw 2 0x100 0) start = .next t) ∧ destination (.sw 2 0x100 0) ≠ some 2 :=
  ⟨⟨_, rfl⟩, by decide, ⟨_, rfl⟩, by decide⟩

theorem witness_GeneralRegisters : (31 : Reg) ≠ 0 ∧ (1 : Reg) ≠ 31 := by decide

theorem witness_BusUseOfInstructions :
    (∃ t, exec (.add 3 1 2) start = .next t) ∧ (∃ t, exec (.lw 2 0 1) (two 0x10000000 0) = .next t) ∧
      (∃ t, exec (.sw 2 0 1) (two 0x10000000 0) = .next t) ∧ ∃ t, exec (.sdl 2 0 1) (two 0x10000000 0) = .next t :=
  ⟨⟨_, rfl⟩, ⟨_, rfl⟩, ⟨_, rfl⟩, _, rfl⟩

/-- The bytes beside a store's own, for a word (R246), the upper part of a word (R249) and the lower part of a doubleword
(R252). -/
theorem witness_BusUseOfInstructions_bytes :
    (let a := storedAt (two 0x104 0) (.sw 2 0 1); 0x103#32 ∉ a ∧ 0x104#32 ∈ a ∧ 0x107#32 ∈ a ∧ 0x108#32 ∉ a) ∧
      (let a := storedAt (two 0x105 0) (.swl 2 0 1); 0x104#32 ∉ a ∧ 0x105#32 ∈ a ∧ 0x107#32 ∈ a ∧ 0x108#32 ∉ a) ∧
      (let a := storedAt (two 0x105 0) (.sdr 2 0 1); 0xFF#32 ∉ a ∧ 0x100#32 ∈ a ∧ 0x105#32 ∈ a ∧ 0x106#32 ∉ a) ∧
      0x0#32 ∉ storedAt start (.add 3 1 2) := by decide

/-! ### Witnesses: the bus -/

theorem witness_RegionIsUnique : envA.wf := by decide

theorem witness_Classification : envA.wf ∧ classify envA 0xFFE#32 .word = .error .unaligned ∧
    classify envA 0x10000006#32 .word = .error .span ∧
    classify envA 0xFFC#32 .word = .ok (.ramAt ⟨0#32, 0x1000, .ram⟩ 0xFFC) ∧
    classify envA 0x10000002#32 .word = .ok (.devAt 0) ∧ classify envA 0x80000001#32 .word = .ok .unmapped :=
  ⟨by decide, rfl, rfl, rfl, rfl, rfl⟩

theorem witness_ClassificationConsequences : envA.wf ∧ (0xFFC#32 : BusAddr).toNat % Width.word.bytes = 0 ∧
    (∀ i < Width.word.bytes, region envA (0x0FFFFFFC#32 + BitVec.ofNat 32 i) = none) ∧
    1 < Width.half.bytes ∧ (0xFFF#32 : BusAddr).toNat % Width.half.bytes ≠ 0 ∧ inRam envA 0xFFF#32 = true := by decide

theorem witness_MemReadReturns : classify start.params 0xFFE#32 .word = .error .unaligned ∧ start.params.wf ∧
    classify start.params 0xFF8#32 .dword = .ok (.ramAt ⟨0#32, 0x1000, .ram⟩ 0xFF8) ∧
    classify start.params 0x10000002#32 .word = .ok (.devAt 0) ∧
    classify start.params 0x80000001#32 .word = .ok .unmapped :=
  ⟨rfl, by decide, rfl, rfl, rfl⟩

theorem witness_MemWriteStores : classify start.params 0x1000000B#32 .half = .error .unaligned ∧
    classify start.params 0xFFF#32 .byte = .ok (.ramAt ⟨0#32, 0x1000, .ram⟩ 0xFFF) ∧
    classify start.params 0x10000000#32 .dword = .ok (.devAt 0) ∧
    classify start.params 0xFFFFFFFC#32 .word = .ok .unmapped :=
  ⟨rfl, rfl, rfl, rfl⟩

/-- Two words side by side, across the border of two RAM ranges. -/
theorem witness_ReadAfterWrite : classify start.params 0xFFC#32 .word = .ok (.ramAt ⟨0#32, 0x1000, .ram⟩ 0xFFC) ∧
    (∃ t, memWrite start 0xFFC#32 .word 0x11223344#64 = .ok t) ∧
    classify start.params 0x1000#32 .word = .ok (.ramAt ⟨0x1000#32, 0x1000, .ram⟩ 0) ∧
    ∀ i < Width.word.bytes, ∀ j < Width.word.bytes,
      (0xFFC#32 : BusAddr) + BitVec.ofNat 32 i ≠ 0x1000#32 + BitVec.ofNat 32 j :=
  ⟨rfl, ⟨_, rfl⟩, rfl, by decide⟩

theorem witness_BigEndianMixedWidths : start.params.wf ∧ (0x1000#32 : BusAddr).toNat % 4 = 0 ∧
    inRam start.params 0x1000#32 = true ∧
    ∃ t, memWrite start 0x1000#32 .word ((0x11223344#32 : Word32).setWidth 64) = .ok t ∧
      t.pc.setWidth 32 = 0x1000#32 :=
  ⟨by decide, by decide, by decide, _, rfl, by decide⟩

/-- The last doubleword of a RAM range: its last halfword, and the doubleword of its two words. -/
theorem witness_BigEndianMixedWidths_dword : (0xFF8#32 : BusAddr).toNat % Width.dword.bytes = 0 ∧
    inRam start.params 0xFF8#32 = true ∧ Width.half.bytes * (3 + 1) ≤ Width.dword.bytes ∧
    (∃ t, memWrite start 0xFF8#32 .dword 0x1122334455667788#64 = .ok t ∧
      memRead t 0xFFE#32 .half = .ok (0x7788#64, t) ∧ memRead t 0xFF8#32 .word = .ok (0x11223344#64, t)) ∧
    Width.dword.bytes = 2 * Width.word.bytes ∧
    ∃ t u, memWrite start 0xFF8#32 .word 0x11223344#64 = .ok t ∧ memWrite t 0xFFC#32 .word 0x55667788#64 = .ok u ∧
      memRead u 0xFF8#32 .dword = .ok (0x1122334455667788#64, u) :=
  ⟨by decide, by decide, by decide, ⟨_, rfl, rfl, rfl⟩, by decide, _, _, rfl, rfl, rfl⟩

/-- SW to the word behind the store itself. -/
theorem witness_StoreIsSeenByNextFetch : start.params.wf ∧ (effectiveAddress start 0 0x1004).toNat % 4 = 0 ∧
    inRam start.params ((effectiveAddress start 0 0x1004).setWidth 32) = true ∧
    (∃ t, exec (.sw 2 0x1004 0) start = .next t ∧
      t.pc.setWidth 32 = (effectiveAddress start 0 0x1004).setWidth 32) ∧
    start.pc.toNat % 4 = 0 ∧ inRam start.params (start.pc.setWidth 32) = true :=
  ⟨by decide, by decide, by decide, ⟨_, rfl, by decide⟩, by decide, by decide⟩

/-! ### Witnesses: the trapping adds, at the bounds -/

theorem witness_TrappingAddSubtract_fits :
    (let s := two 0x7FFFFFFE 1; ((s.reg 1).setWidth 32).toInt + ((s.reg 2).setWidth 32).toInt = 2 ^ 31 - 1) ∧
      (let s := two 0x80000001 1; ((s.reg 1).setWidth 32).toInt - ((s.reg 2).setWidth 32).toInt = -2 ^ 31) ∧
      (let s := two 0x7FFFFFFFFFFFFFFE 1; (s.reg 1).toInt + (s.reg 2).toInt = 2 ^ 63 - 1) ∧
      (let s := two 0x8000000000000001 1; (s.reg 1).toInt - (s.reg 2).toInt = -2 ^ 63) ∧
      (let s := two 0x80000001 0; ((s.reg 1).setWidth 32).toInt + (0xFFFF#16).toInt = -2 ^ 31) ∧
      (let s := two 0x7FFFFFFFFFFFFFFE 0; (s.reg 1).toInt + (0x1#16).toInt = 2 ^ 63 - 1) := by decide

theorem witness_TrappingAddSubtract_overflows :
    (let s := two 0x7FFFFFFF 1; 2 ^ 31 - 1 < ((s.reg 1).setWidth 32).toInt + ((s.reg 2).setWidth 32).toInt) ∧
      (let s := two 0x80000000 1; ((s.reg 1).setWidth 32).toInt - ((s.reg 2).setWidth 32).toInt < -2 ^ 31) ∧
      (let s := two 0x7FFFFFFFFFFFFFFF 1; 2 ^ 63 - 1 < (s.reg 1).toInt + (s.reg 2).toInt) ∧
      (let s := two 0x8000000000000000 1; (s.reg 1).toInt - (s.reg 2).toInt < -2 ^ 63) ∧
      (let s := two 0x80000000 0; ((s.reg 1).setWidth 32).toInt + (0xFFFF#16).toInt < -2 ^ 31) ∧
      (let s := two 0x7FFFFFFFFFFFFFFF 0; 2 ^ 63 - 1 < (s.reg 1).toInt + (0x1#16).toInt) := by decide

/-- Two states whose registers agree in their low halves only, an instruction of the list, and a trapping one. -/
theorem witness_WordOperationsReadLowHalves :
    let s := two 0x1 0x2; let s' := two 0xFFFFFFFF00000001 0x1200000002
    s.run = .running ∧ s' = { s with gpr := s'.gpr } ∧ (∀ r, (s'.reg r).setWidth 32 = (s.reg r).setWidth 32) ∧
      s'.reg 1 ≠ s.reg 1 := by
  refine ⟨rfl, rfl, ?_, by decide⟩
  decide

/-! ### Witnesses: division -/

theorem witness_Divide :
    (two 5 0x100000000).params.div0 = .standard ∧ ((two 5 0x100000000).reg 2).setWidth 32 = 0#32 ∧
      (two 5 0x100000000).reg 2 ≠ 0 ∧ (two 5 0).reg 2 = 0 ∧
      { two 5 0 with params := { envA with div0 := .free } }.params.div0 = .free := by decide

/-- R210: a word division by zero does not depend on bits 63:32 of its dividend, whatever DIV0 is. -/
theorem test_div_by_zero_reads_low_word :
    let s := { two 0xABCDEF0080000005 0 with params := { envA with div0 := .free } }
    let u := { two 0x80000005 0 with params := { envA with div0 := .free } }
    (after (exec (.div 1 2) s)).hi = (after (exec (.div 1 2) u)).hi ∧
      (after (exec (.divu 1 2) s)).lo = (after (exec (.divu 1 2) u)).lo := ⟨rfl, rfl⟩

/-- R210: a word division by zero writes sign-extended words, whatever DIV0 is. -/
theorem test_div_by_zero_writes_words :
    let t := after (exec (.div 1 2) { two 5 0 with params := { envA with div0 := .free } })
    (∃ v, t.hi = wordResult v) ∧ ∃ v, t.lo = wordResult v := ⟨⟨_, rfl⟩, _, rfl⟩

theorem witness_DivisionLaw :
    (((two 0x80000000 0xFFFFFFFF).reg 1).setWidth 32).toInt = -2 ^ 31 ∧
      (((two 0x80000000 0xFFFFFFFF).reg 2).setWidth 32).toInt = -1 ∧
      (((two 0x80000000 1).reg 2).setWidth 32).toInt = 1 ∧
      ((two 0x8000000000000000 0xFFFFFFFFFFFFFFFF).reg 1).toInt = -2 ^ 63 ∧
      ((two 0x8000000000000000 0xFFFFFFFFFFFFFFFF).reg 2).toInt = -1 := by decide

theorem witness_DivisionLaw_completes : (∃ t, exec (.div 1 2) (two 7 2) = .next t) ∧
    (∃ t, exec (.divu 1 2) (two 7 2) = .next t) ∧ (∃ t, exec (.ddiv 1 2) (two 7 2) = .next t) ∧
    ∃ t, exec (.ddivu 1 2) (two 7 2) = .next t :=
  ⟨⟨_, rfl⟩, ⟨_, rfl⟩, ⟨_, rfl⟩, _, rfl⟩

/-! ### Witnesses: loads and stores -/

/-- Each width by each route, and each error (the byte forms have none: 20_memory.md R65). -/
theorem witness_AlignedLoads :
    (classify start.params ((effectiveAddress (two 0xFFF 0) 1 0).setWidth 32) .byte =
        .ok (.ramAt ⟨0#32, 0x1000, .ram⟩ 0xFFF)) ∧
      classify start.params ((effectiveAddress (two 0x10000000 0) 1 2).setWidth 32) .half = .ok (.devAt 0) ∧
      classify start.params ((effectiveAddress (two 0x80000001 0) 1 0).setWidth 32) .word = .ok .unmapped ∧
      classify start.params ((effectiveAddress (two 0xFF8 0) 1 0).setWidth 32) .dword =
        .ok (.ramAt ⟨0#32, 0x1000, .ram⟩ 0xFF8) ∧
      classify start.params ((effectiveAddress (two 0xFFF 0) 1 0).setWidth 32) .half = .error .unaligned ∧
      classify start.params ((effectiveAddress (two 0x10000000 0) 1 0xFFFE).setWidth 32) .word = .error .span ∧
      classify start.params ((effectiveAddress (two 0x10000000 0) 1 4).setWidth 32) .dword = .error .span :=
  ⟨rfl, rfl, rfl, rfl, rfl, rfl, rfl⟩

theorem witness_AlignedStores :
    classify start.params ((effectiveAddress (two 0xFFF 0) 1 0).setWidth 32) .byte =
        .ok (.ramAt ⟨0#32, 0x1000, .ram⟩ 0xFFF) ∧
      classify start.params ((effectiveAddress (two 0x10000008 0) 1 0).setWidth 32) .dword = .ok (.devAt 1) ∧
      classify start.params ((effectiveAddress (two 0x10000008 0) 1 4).setWidth 32) .dword = .error .unaligned :=
  ⟨rfl, rfl, rfl⟩

/-- The last bytes of their aligned unit, the unit the last of its RAM range. -/
theorem witness_UnalignedPartLoads : start.params.wf ∧
    classify start.params ((effectiveAddress (two 0xFFF 0) 1 0).setWidth 32 -
      BitVec.ofNat 32 ((effectiveAddress (two 0xFFF 0) 1 0).toNat % 4)) .word =
        .ok (.ramAt ⟨0#32, 0x1000, .ram⟩ 0xFFC) ∧
    classify start.params ((effectiveAddress (two 0xFFF 0) 1 0).setWidth 32 -
      BitVec.ofNat 32 ((effectiveAddress (two 0xFFF 0) 1 0).toNat % 8)) .dword =
        .ok (.ramAt ⟨0#32, 0x1000, .ram⟩ 0xFF8) :=
  ⟨by decide, rfl, rfl⟩

/-- The same with a table that is no table of a block: an unaligned-part load in error. -/
theorem witness_UnalignedPartLoads_error :
    classify { envA with ranges := [⟨0x0#32, 2, .device 0 false⟩] } 0x0#32 .word = .error .span := by rfl

theorem witness_UnalignedLoadPair : (two 0xFF9 0).params.wf ∧ (2 : Reg) ≠ 0 ∧ (2 : Reg) ≠ 1 ∧
    (∀ i < 4, inRam (two 0xFFC 0).params (((two 0xFFC 0).reg 1).setWidth 32 + BitVec.ofNat 32 i) = true) ∧
    ∀ i < 8, inRam (two 0xFF9 0).params (((two 0xFF9 0).reg 1).setWidth 32 + BitVec.ofNat 32 i) = true := by decide

theorem witness_UnalignedStorePair :
    (∀ i < 4, inRam (two 0xFFD 0).params (((two 0xFFD 0).reg 1).setWidth 32 + BitVec.ofNat 32 i) = true) ∧
    ∀ i < 8, inRam (two 0xFF9 0).params (((two 0xFF9 0).reg 1).setWidth 32 + BitVec.ofNat 32 i) = true := by decide

theorem witness_StoreConditional :
    classify start.params ((effectiveAddress (two 0xFFE 0) 1 0).setWidth 32) .word = .error .unaligned ∧
      classify linked.params ((effectiveAddress (two 0xFFC 0) 1 0).setWidth 32) .word =
        .ok (.ramAt ⟨0#32, 0x1000, .ram⟩ 0xFFC) ∧
      linked.llbit = true ∧ start.llbit = false :=
  ⟨rfl, rfl, rfl, rfl⟩

/-! ### Witnesses: jumps, traps, the host -/

theorem witness_Jumps : ((two 0x2008 0x200A).reg 1).toNat % 4 = 0 ∧ ((two 0x2008 0x200A).reg 2).toNat % 4 ≠ 0 := by
  decide

/-- Equal operands trap for the forms with equality and not for the others; one less is the other way round. -/
theorem witness_ConditionalTraps :
    (let s := two 2 2; (s.reg 2).toInt ≤ (s.reg 1).toInt ∧ (s.reg 2).toNat ≤ (s.reg 1).toNat ∧
        ¬ (s.reg 1).toInt < (s.reg 2).toInt ∧ ¬ (s.reg 1).toNat < (s.reg 2).toNat ∧ s.reg 1 = s.reg 2 ∧
        ¬ s.reg 1 ≠ s.reg 2) ∧
      (let s := two 1 2; ¬ (s.reg 2).toInt ≤ (s.reg 1).toInt ∧ ¬ (s.reg 2).toNat ≤ (s.reg 1).toNat ∧
        (s.reg 1).toInt < (s.reg 2).toInt ∧ (s.reg 1).toNat < (s.reg 2).toNat ∧ ¬ s.reg 1 = s.reg 2 ∧
        s.reg 1 ≠ s.reg 2) := by decide

theorem witness_ConditionalTraps_immediate :
    (let s := two 0xFFFFFFFFFFFFFFFF 0; (0xFFFF#16).toInt ≤ (s.reg 1).toInt ∧
        ((0xFFFF#16).signExtend 64).toNat ≤ (s.reg 1).toNat ∧ ¬ (s.reg 1).toInt < (0xFFFF#16).toInt ∧
        ¬ (s.reg 1).toNat < ((0xFFFF#16).signExtend 64).toNat ∧ s.reg 1 = (0xFFFF#16).signExtend 64 ∧
        ¬ s.reg 1 ≠ (0xFFFF#16).signExtend 64) ∧
      (let s := two 0xFFFFFFFFFFFFFFFE 0; ¬ (0xFFFF#16).toInt ≤ (s.reg 1).toInt ∧
        ¬ ((0xFFFF#16).signExtend 64).toNat ≤ (s.reg 1).toNat ∧ (s.reg 1).toInt < (0xFFFF#16).toInt ∧
        (s.reg 1).toNat < ((0xFFFF#16).signExtend 64).toNat ∧ ¬ s.reg 1 = (0xFFFF#16).signExtend 64 ∧
        s.reg 1 ≠ (0xFFFF#16).signExtend 64) := by decide

theorem witness_Construction : wellFormedRanges envA.ranges ∧
    ¬ wellFormedRanges [⟨0x0#32, 0x1004, .ram⟩] ∧ start.llbit = false ∧ start.run = .running ∧
    ∃ t, exec (.sc 2 0x100 0) start = .next t ∧ t.run = .running :=
  ⟨test_wellformed_envA, test_refuses_size_not_multiple_of_8, rfl, rfl, _, rfl, rfl⟩

/-- A draw with two pairs at the last byte of a RAM range and one at an address of a device. -/
def someDraws : Draws := ⟨Vector.replicate 31 0, 0, 0, [(0xFFF, 0x11), (0xFFF, 0x22), (0x10000000, 0x33)]⟩

/-- The bytes of `someDraws`: a listed one, one that is not listed, one outside RAM; and an image over the first. -/
theorem witness_Construction_draws :
    ∃ s, construct { envA with imageBase := 0xFFE#32 } someDraws = .next s ∧
      (∃ r ∈ envA.ranges, r.kind = .ram ∧ InRange r 0xFFF#32) ∧ drawnByte someDraws 0xFFF#32 = 0x22 ∧
      s.byteAt 0xFFF#32 = 0x22 ∧ s.byteAt 0xFFE#32 = 0 ∧
      (¬ ∃ r ∈ envA.ranges, r.kind = .ram ∧ InRange r 0x10000000#32) ∧ s.byteAt 0x10000000#32 = 0 ∧
      ∃ t, load [0x7] 0x1000#64 s = .next t ∧ t.byteAt 0xFFE#32 = 0x7 ∧ t.byteAt 0xFFF#32 = 0x22 :=
  ⟨_, if_pos test_wellformed_envA, by unfold InRange; decide, by decide, by decide, by decide,
    by unfold InRange; decide, by decide, _, rfl, by decide, by decide⟩

/-- An image that ends at the end of its RAM range, and one byte more. -/
theorem witness_ImageLoad :
    let s := { start with params := { envA with imageBase := 0xFFE#32 } }
    (∀ i < 2, 0 ≤ s.params.imageBase.toNat + i ∧ s.params.imageBase.toNat + i < 0x1000) ∧
      imageFits s.params 2 = true ∧ imageFits s.params 3 = false ∧ (0x1000#64 : Word64).toNat % 4 = 0 ∧
      (0x1002#64 : Word64).toNat % 4 ≠ 0 := by decide

/-- Log 26: an image that runs past the top of the bus does not fit, though one RAM range holds every address. -/
theorem test_image_does_not_wrap :
    let p := { envA with ranges := [⟨0x0#32, 2 ^ 32, .ram⟩], imageBase := 0xFFFFFFFE#32 }
    imageFits p 2 = true ∧ imageFits p 3 = false := by decide

theorem witness_ImageLoad_inv : Inv { start with params := { envA with imageBase := 0xFFE#32 } } where
  paramsOk := by decide
  memCanonical := by decide
  memIsRam := by unfold MemoryIsRam; decide
  pcAligned := by unfold Aligned4; decide
  pendAligned := fun _ h => by cases h
  recordAgrees := fun _ h => by cases h

theorem witness_StopAndTick : start.run = .running ∧ { start with run := .halted }.run ≠ .running ∧
    (∃ t, step { start with run := .halted } = .next t) ∧ inRam start.params 0x10000000#32 = false ∧
    start.params.periphWritable = [] :=
  ⟨rfl, (fun h => by cases h), ⟨_, rfl⟩, by decide, rfl⟩

/-- The last byte of a window of PERIPH_WRITABLE, written twice in one tick, and the byte before it, not written. -/
theorem witness_StopAndTick_writes :
    let s := { start with params := { envA with periphWritable := [⟨0x200#32, 8⟩] } }
    let w : List Host.Cell := [(0x207, 0xAB), (0x207, 0xCD)]
    (∃ w ∈ s.params.periphWritable, w.base.toNat ≤ 0x207 ∧ 0x207 < w.base.toNat + w.size) ∧
      inRam s.params 0x207#32 = true ∧ lastByteAt w 0x207#32 = some 0xCD ∧ lastByteAt w 0x206#32 = none ∧
      (tick w [] s).byteAt 0x207#32 = 0xCD ∧ (tick w [] s).byteAt 0x206#32 = s.byteAt 0x206#32 := by decide

end Tests
end Sys2Proof
end

section
/-! SUPPORT. What a step that answers a next state can have done, said once, and the statements of 10_state.md that
follow from it and from `exec_cases`: the configuration, the invariant, the pc, the register file. -/

namespace Sys2Proof
namespace Machine

/-! ### An instruction, and a step, from their answer -/

/-- An instruction that answered `t` raised an exception and changed nothing but the run state, or it completed. -/
theorem exec_next {i : Instr} {s t : State} (h : exec i s = .next t) :
    (∃ kind info, t = { s with run := faultedIn s kind info (some (encode i)) }) ∨
      ∃ u, Executed s u i ∧ t = u.advance (requestOf s i) := by
  rcases exec_cases i s with ⟨kind, info, he, -⟩ | ⟨u, he, hu⟩ <;> rw [he] at h <;> injection h with h
  · exact .inl ⟨kind, info, h.symm⟩
  · exact .inr ⟨u, hu, h.symm⟩

/-- The state with another device record: all that a fetch can change (20_memory.md R79). -/
def State.withDevices (s : State) (log : List DevEvent) (replies : List Word64) : State :=
  { s with devLog := log, devReplies := replies }

theorem fetchWord_frame {s u : State} {w : Word32} (h : fetchWord s = .ok (w, u)) :
    u = s.withDevices u.devLog u.devReplies := by
  unfold fetchWord at h
  split at h
  · cases h
  · rename_i hr
    cases h
    exact memRead_frame hr

/-- The four ways a step leads from `s` to a next state (40_cycle.md R133, R140): nothing happens in a terminal state;
the fetch, a reserved word or an instruction raises an exception; the halt word halts; an instruction completes. -/
inductive Stepped (s : State) : State → Prop
  | idle (hrun : s.run ≠ .running) : Stepped s s
  | raised (hrun : s.run = .running) (log : List DevEvent) (replies : List Word64) (kind : ExcKind) (info : Word64)
      (raw : Option Word32) : Stepped s { s.withDevices log replies with run := faultedIn s kind info raw }
  | halted (hrun : s.run = .running) (log : List DevEvent) (replies : List Word64) :
      Stepped s { s.withDevices log replies with run := .halted }
  | completed (hrun : s.run = .running) (log : List DevEvent) (replies : List Word64) (i : Instr) (u : State)
      (hu : Executed (s.withDevices log replies) u i) :
      Stepped s (u.advance (requestOf (s.withDevices log replies) i))

/-- What follows a fetch, in a running state whose device record the fetch may have changed. -/
theorem stepped_of_runWord {s t : State} {w : Word32} {log : List DevEvent} {replies : List Word64}
    (hrun : s.run = .running) (h : runWord w (s.withDevices log replies) = .next t) : Stepped s t := by
  unfold runWord at h
  split at h
  · cases h; exact .halted hrun log replies
  · split at h
    · cases h; exact .raised hrun log replies _ _ _
    · rename_i i _
      rcases exec_next h with ⟨kind, info, rfl⟩ | ⟨u, hu, rfl⟩
      · exact .raised hrun log replies kind info _
      · exact .completed hrun log replies i u hu

theorem step_next {s t : State} (h : step s = .next t) : Stepped s t := by
  unfold step cycle at h
  cases hrun : s.run with
  | faulted e => rw [hrun] at h; cases h; exact .idle (by simp [hrun])
  | halted => rw [hrun] at h; cases h; exact .idle (by simp [hrun])
  | running =>
    rw [hrun] at h
    cases hf : fetchWord s with
    | error sub =>
      rw [hf] at h; cases h
      exact .raised hrun s.devLog s.devReplies _ _ _
    | ok q =>
      obtain ⟨w, u⟩ := q
      rw [hf] at h
      have hu := fetchWord_frame hf
      rw [hu] at h
      exact stepped_of_runWord hrun h

/-! ### The invariant (O17) -/

theorem inv_withDevices {s : State} (h : Inv s) (log : List DevEvent) (replies : List Word64) :
    Inv (s.withDevices log replies) :=
  { h with }

/-- An exception recorded in the state it is raised in keeps the invariant. -/
theorem inv_faultedIn {s : State} (h : Inv s) (kind : ExcKind) (info : Word64) (raw : Option Word32) :
    Inv { s with run := faultedIn s kind info raw } :=
  { h with recordAgrees := fun _ he => by cases he; exact ⟨rfl, rfl⟩ }

theorem inv_halted {s : State} (h : Inv s) : Inv { s with run := .halted } :=
  { h with recordAgrees := fun _ he => by cases he }

/-- The sequencer keeps the pc aligned: it moves it by 4 or 8, or to the pending target or the branch's own. -/
theorem aligned4_advance_pc {s : State} {br : Request} (hpc : Aligned4 s.pc)
    (hpend : ∀ target, s.pend = some target → Aligned4 target) (hbr : ∀ target, br = .branch target → Aligned4 target) :
    Aligned4 (s.advance br).pc := by
  rw [advance_pc]
  split
  · exact hbr _ rfl
  · exact hpend _ ‹_›
  · exact aligned4_add _ _ hpc (show (8#64).toNat % 4 = 0 from rfl)
  · exact aligned4_add _ _ hpc (show (4#64).toNat % 4 = 0 from rfl)

/-- A target is pending after a completed instruction only where the instruction asked for it. -/
theorem request_of_advance_pend {s : State} {br : Request} {target : Word64}
    (h : (s.advance br).pend = some target) : br = .branch target := by
  rw [advance_pend] at h
  split at h <;> cases h
  rfl

/-- A completed instruction keeps the invariant. -/
theorem inv_advance {s u : State} {i : Instr} (h : Inv s) (hrun : s.run = .running) (hu : Executed s u i) :
    Inv (u.advance (requestOf s i)) := by
  have hbr : ∀ target, requestOf s i = .branch target → Aligned4 target := fun t ht => hu.target t ht h.pcAligned
  have hmem := hu.inRam h.memIsRam
  refine ⟨?_, ?_, ?_, ?_, fun t ht => hbr t (request_of_advance_pend ht), fun e he => ?_⟩
  · rw [advance_params, hu.params]; exact h.paramsOk
  · rw [advance_mem]; exact hu.canonical h.memCanonical
  · unfold MemoryIsRam; rw [advance_mem, advance_params]; exact hmem
  · exact aligned4_advance_pc (hu.pc ▸ h.pcAligned) (hu.pend ▸ h.pendAligned) hbr
  · rw [advance_run, hu.run, hrun] at he; cases he

/-- Settles O17, by the four ways of a step. -/
theorem invariantKeptByStep : Obligations.InvariantKeptByStep := by
  intro s t h hst
  cases step_next hst with
  | idle => exact h
  | raised _ log replies kind info raw => exact inv_faultedIn (inv_withDevices h log replies) kind info raw
  | halted _ log replies => exact inv_halted (inv_withDevices h log replies)
  | completed hrun log replies i u hu => exact inv_advance (inv_withDevices h log replies) hrun hu

/-! ### The configuration (O16) -/

theorem step_params {s t : State} (h : step s = .next t) : t.params = s.params := by
  cases step_next h with
  | idle => rfl
  | raised => rfl
  | halted => rfl
  | completed _ log replies i u hu => rw [advance_params, hu.params]; rfl

/-- A load that answers a state found an aligned entry point, and changes the memory and the pc alone. -/
theorem load_next {image : List Byte} {entry : Word64} {s t : State} (h : load image entry s = .next t) :
    Aligned4 entry ∧ t = { s with mem := copyImage s.mem s.params.imageBase.toNat image, pc := entry } := by
  unfold load at h
  split at h
  · rename_i hc
    cases h
    exact ⟨(wordAligned_iff entry).1 hc.2, rfl⟩
  · cases h

theorem hostStop_params (s : State) : (hostStop s).params = s.params := by
  unfold hostStop
  split <;> rfl

/-- Settles O16. -/
theorem configurationNeverChanges : Obligations.ConfigurationNeverChanges := by
  intro s t
  refine ⟨step_params, fun image entry h => ?_, hostStop_params s, fun _ _ => rfl⟩
  obtain ⟨-, rfl⟩ := load_next h
  rfl

/-! ### The pc (O20) -/

/-- A construction that answers a state starts at the reset vector with LLbit clear (70_reset_and_hazards.md R360). -/
theorem construct_next {p : Params} {d : Draws} {s : State} (h : construct p d = .next s) :
    s.pc = Config.resetVector ∧ s.llbit = false := by
  unfold construct at h
  split at h <;> cases h
  exact ⟨rfl, rfl⟩

theorem load_misaligned (image : List Byte) {entry : Word64} (s : State) (h : ¬ Aligned4 entry) :
    load image entry s = .fault .loadFailure := by
  unfold load
  rw [if_neg]
  rintro ⟨-, hw⟩
  exact h ((wordAligned_iff entry).1 hw)

/-- Outside a delay slot a step that goes on running moves the pc by 4, or by 8 over an annulled slot. -/
theorem step_pc_of_no_pend {s t : State} (hrun : s.run = .running) (hpend : s.pend = none) (h : step s = .next t)
    (ht : t.run = .running) : t.pc = s.pc + 4 ∨ t.pc = s.pc + 8 := by
  cases step_next h with
  | idle hne => exact absurd hrun hne
  | raised => cases ht
  | halted => cases ht
  | completed _ log replies i u hu =>
    have hu_pend : u.pend = none := hu.pend.trans hpend
    have hu_pc : u.pc = s.pc := hu.pc
    rw [advance_pc, hu_pend, hu_pc]
    cases requestOf (s.withDevices log replies) i with
    | none => exact .inl rfl
    | branch target => exact .inl rfl
    | skip => exact .inr rfl

/-- A register jump to a misaligned target raises the address error (44_branch_jump.md R292). -/
theorem exec_registerJump_misaligned {s : State} {i : Instr} {rs : Reg} (hi : (∃ rd, i = .jalr rd rs) ∨ i = .jr rs)
    (h : ¬ Aligned4 (s.reg rs)) : exec i s =
      .next { s with run := faultedIn s (.addressError .unaligned .fetch) (s.reg rs) (some (encode i)) } := by
  have hw : ¬ wordAligned (s.reg rs) = true := fun hw => h ((wordAligned_iff _).1 hw)
  rcases hi with ⟨rd, rfl⟩ | rfl
  · exact if_neg hw
  · exact if_neg hw

/-- Where a requested target comes from (44_branch_jump.md R270): the register of a register jump, or else the pc and
the instruction's own field, and then the target is aligned where the pc is. -/
theorem requestOf_branch {s : State} {i : Instr} {target : Word64} (h : requestOf s i = .branch target)
    (hpc : Aligned4 s.pc) :
    (∃ rs, ((∃ rd, i = .jalr rd rs) ∨ i = .jr rs) ∧ target = s.reg rs) ∨ Aligned4 target := by
  unfold requestOf at h
  split at h
  case h_1 | h_2 => cases h; exact .inr (aligned4_append _)
  case h_3 rs => cases h; exact .inl ⟨rs, .inr rfl, rfl⟩
  case h_4 rd rs => cases h; exact .inl ⟨rs, .inl ⟨rd, rfl⟩, rfl⟩
  case h_21 => cases h
  all_goals
    split at h <;> cases h
    exact .inr (aligned4_branchTarget s _ hpc)

/-- Settles O20: the invariant's clause at a step boundary, and where each target comes from. -/
theorem pcAlwaysAligned : Obligations.PcAlwaysAligned := by
  refine ⟨fun p d s h => ?_, fun image entry s h => load_misaligned image s h, fun image entry s t h => ?_,
    fun s t h hst => (invariantKeptByStep s t h hst).pcAligned,
    fun s t hrun hpend hst ht => step_pc_of_no_pend hrun hpend hst ht, fun s i target hpc h => ?_⟩
  · rw [(construct_next h).1]; rfl
  · obtain ⟨hentry, rfl⟩ := load_next h
    exact hentry
  · by_cases hta : Aligned4 target
    · exact .inl hta
    · rcases requestOf_branch h hpc with ⟨rs, hi, rfl⟩ | hta'
      · exact .inr ⟨rs, hi, exec_registerJump_misaligned hi hta⟩
      · exact absurd hta' hta

/-! ### The register file (O23, O24) -/

/-- Settles O23. -/
theorem onlyTheDestinationIsWritten : Obligations.OnlyTheDestinationIsWritten := by
  intro s t i r h hr
  rcases exec_next h with ⟨kind, info, rfl⟩ | ⟨u, hu, rfl⟩
  · rfl
  · rw [advance_reg, hu.regs r hr]

/-- A register write changes no part of the state but the register file. -/
theorem setReg_frame (s : State) (i : Reg) (v : Word64) : s.setReg i v = { s with gpr := (s.setReg i v).gpr } := by
  unfold State.setReg
  split <;> rfl

/-- Settles O24. -/
theorem generalRegisters : Obligations.GeneralRegisters := by
  intro s i j v
  refine ⟨reg_zero s, setReg_zero s v, fun hi => ?_, reg_setReg_ne s i j v, setReg_frame s i v⟩
  rw [reg_setReg_same]
  exact if_neg hi

end Machine
end Sys2Proof
end

section
/-! SUPPORT. Noninterference of HI, LO and LLbit (10_state.md R35, R37): two runs of one instruction in states that
differ in these three alone differ in these three alone, where the instruction reads none that differs. Each shared
operation commutes with the replacement of the three; `exec_tracks` puts the instructions together. -/

namespace Sys2Proof
namespace Machine

/-- The state with other values of HI, LO and LLbit. -/
def State.withHidden (s : State) (hi lo : Word64) (ll : Bool) : State := { s with hi := hi, lo := lo, llbit := ll }

section WithHidden
variable (s : State) (hi lo : Word64) (ll : Bool)

@[simp] theorem withHidden_reg (r : Reg) : (s.withHidden hi lo ll).reg r = s.reg r := rfl
@[simp] theorem withHidden_llbit : (s.withHidden hi lo ll).llbit = ll := rfl
@[simp] theorem withHidden_params : (s.withHidden hi lo ll).params = s.params := rfl

end WithHidden

/-- The answer with other values of HI, LO and LLbit in its next state. -/
def resultWithHidden (hi lo : Word64) (ll : Bool) : Result → Result
  | .next t => .next (t.withHidden hi lo ll)
  | .fault f => .fault f
  | .refused r => .refused r

/-- The instruction reads none of HI, LO and LLbit that these values change (10_state.md R35, R37). -/
structure HiddenUnread (i : Instr) (s : State) (hi lo : Word64) (ll : Bool) : Prop where
  hi : (∃ rd, i = .mfhi rd) → hi = s.hi
  lo : (∃ rd, i = .mflo rd) → lo = s.lo
  llbit : readsLink i = true → ll = s.llbit

/-- The outcomes `t` of `i` in `s` and `t'` of `i` in `s'` differ in HI, LO and LLbit alone; in each of them only where
the states before did, and not where the instruction writes HI or LO. -/
structure Tracks (i : Instr) (s s' t t' : State) : Prop where
  visible : t'.withHidden t.hi t.lo t.llbit = t
  hi : s'.hi = s.hi ∨ writesHi i = true → t'.hi = t.hi
  lo : s'.lo = s.lo ∨ writesLo i = true → t'.lo = t.lo
  llbit : s'.llbit = s.llbit → t'.llbit = t.llbit

/-- Where `i` answers a next state, its answer with these values of HI, LO and LLbit tracks it. -/
def Tracked (i : Instr) (s : State) (hi lo : Word64) (ll : Bool) : Prop :=
  ∀ t, exec i s = .next t →
    ∃ t', exec i (s.withHidden hi lo ll) = .next t' ∧ Tracks i s (s.withHidden hi lo ll) t t'

section Commute
variable (s : State) (hi lo : Word64) (ll : Bool)

/-! ### The state's operations -/

theorem setReg_withHidden (r : Reg) (v : Word64) :
    (s.withHidden hi lo ll).setReg r v = (s.setReg r v).withHidden hi lo ll := by
  unfold State.setReg
  split <;> rfl

theorem advance_withHidden (br : Request) : (s.withHidden hi lo ll).advance br = (s.advance br).withHidden hi lo ll := by
  obtain ⟨gpr, hi', lo', pc, pend, llbit, run, mem, params, devLog, devReplies⟩ := s
  cases pend <;> cases br <;> rfl

theorem memRead_withHidden (a : BusAddr) (n : Width) : memRead (s.withHidden hi lo ll) a n =
    (memRead s a n).map fun q => (q.1, q.2.withHidden hi lo ll) := by
  unfold memRead
  rw [withHidden_params]
  cases classify s.params a n with
  | error sub => rfl
  | ok route => cases route <;> rfl

theorem memWrite_withHidden (a : BusAddr) (n : Width) (v : Word64) : memWrite (s.withHidden hi lo ll) a n v =
    (memWrite s a n v).map (·.withHidden hi lo ll) := by
  unfold memWrite
  rw [withHidden_params]
  cases classify s.params a n with
  | error sub => rfl
  | ok route => cases route <;> rfl

theorem storeBytes_withHidden (l : List (BusAddr × Byte)) :
    storeBytes (s.withHidden hi lo ll) l = (storeBytes s l).withHidden hi lo ll := by
  induction l generalizing s with
  | nil => rfl
  | cons c l ih =>
    obtain ⟨a, b⟩ := c
    obtain ⟨t, h⟩ := memWrite_byte s a (b.setWidth 64)
    simp only [storeBytes, memWrite_withHidden, h, Except.map]
    exact ih t

/-! ### The operations the instructions share -/

theorem complete_withHidden (br : Request) :
    complete br (s.withHidden hi lo ll) = resultWithHidden hi lo ll (complete br s) :=
  congrArg Host.Outcome.next (advance_withHidden s hi lo ll br)

theorem complete_setReg_withHidden (br : Request) (rd : Reg) (v : Word64) :
    complete br ((s.withHidden hi lo ll).setReg rd v) = resultWithHidden hi lo ll (complete br (s.setReg rd v)) := by
  rw [setReg_withHidden, complete_withHidden]

theorem writeOrOverflow_withHidden (i : Instr) (rd : Reg) (r : Option Word64) :
    writeOrOverflow i rd r (s.withHidden hi lo ll) = resultWithHidden hi lo ll (writeOrOverflow i rd r s) := by
  cases r with
  | some v => exact complete_setReg_withHidden s hi lo ll .none rd v
  | none => rfl

theorem trapIf_withHidden (c : Bool) (i : Instr) :
    trapIf c i (s.withHidden hi lo ll) = resultWithHidden hi lo ll (trapIf c i s) := by
  cases c with
  | true => rfl
  | false => exact complete_withHidden s hi lo ll .none

theorem loadReg_withHidden (i : Instr) (n : Width) (a : BusAddr) (ea : Word64) (f : Word64 → Word64) (rt : Reg) :
    loadReg i n a ea f rt (s.withHidden hi lo ll) = resultWithHidden hi lo ll (loadReg i n a ea f rt s) := by
  unfold loadReg
  rw [memRead_withHidden]
  cases memRead s a n with
  | error sub => rfl
  | ok q => exact complete_setReg_withHidden q.2 hi lo ll .none rt (f q.1)

theorem storeReg_withHidden (i : Instr) (n : Width) (ea v : Word64) :
    storeReg i n ea v (s.withHidden hi lo ll) = resultWithHidden hi lo ll (storeReg i n ea v s) := by
  unfold storeReg
  rw [memWrite_withHidden]
  cases memWrite s (busAddr ea) n v with
  | error sub => rfl
  | ok t => exact complete_withHidden t hi lo ll .none

theorem complete_storeBytes_withHidden (l : List (BusAddr × Byte)) :
    complete .none (storeBytes (s.withHidden hi lo ll) l) =
      resultWithHidden hi lo ll (complete .none (storeBytes s l)) := by
  rw [storeBytes_withHidden, complete_withHidden]

theorem execJr_withHidden (rs : Reg) :
    execJr rs (s.withHidden hi lo ll) = resultWithHidden hi lo ll (execJr rs s) := by
  unfold execJr
  rw [withHidden_reg]
  split
  · exact complete_withHidden s hi lo ll _
  · rfl

theorem execJalr_withHidden (rd rs : Reg) :
    execJalr rd rs (s.withHidden hi lo ll) = resultWithHidden hi lo ll (execJalr rd rs s) := by
  unfold execJalr
  rw [withHidden_reg]
  split
  · exact complete_setReg_withHidden s hi lo ll _ rd _
  · rfl

/-- A conditional store reads LLbit, so only HI and LO may differ. -/
theorem storeConditional_withHidden (i : Instr) (n : Width) (ea : Word64) (rt : Reg) :
    storeConditional i n ea rt (s.withHidden hi lo s.llbit) =
      resultWithHidden hi lo s.llbit (storeConditional i n ea rt s) := by
  unfold storeConditional
  rw [memWrite_withHidden, withHidden_params, withHidden_llbit, withHidden_reg]
  cases classify s.params (busAddr ea) n with
  | error sub => rfl
  | ok route =>
    by_cases hl : s.llbit = true
    · simp only [if_pos hl]
      cases memWrite s (busAddr ea) n (s.reg rt) with
      | error sub => rfl
      | ok t => exact complete_setReg_withHidden t hi lo s.llbit .none rt 1
    · simp only [if_neg hl]
      exact complete_setReg_withHidden s hi lo s.llbit .none rt 0

end Commute

/-! ### The instructions, by shape -/

section Shapes
variable {i : Instr} {s : State} {hi lo : Word64} {ll : Bool}

/-- An instruction that writes neither HI nor LO, and whose two outcomes differ in the three alone. -/
theorem tracks_withHidden {t : State} (ht : exec i s = .next t) (h1 : writesHi i = false) (h2 : writesLo i = false)
    {ll' : Bool} (hll : ll = s.llbit → ll' = t.llbit) :
    Tracks i s (s.withHidden hi lo ll) t (t.withHidden hi lo ll') := by
  have hsame : t.hi = s.hi ∧ t.lo = s.lo := by
    rcases exec_next ht with ⟨kind, info, rfl⟩ | ⟨u, hu, rfl⟩
    · exact ⟨rfl, rfl⟩
    · exact ⟨(advance_hi _ _).trans (hu.hi h1), (advance_lo _ _).trans (hu.lo h2)⟩
  exact ⟨rfl, fun e => (e.resolve_right (by simp [h1])).trans hsame.1.symm,
    fun e => (e.resolve_right (by simp [h2])).trans hsame.2.symm, hll⟩

/-- An instruction that writes none of the three, and commutes with their replacement. -/
theorem tracked_of_commutes (h1 : writesHi i = false) (h2 : writesLo i = false) (h3 : setsLink i = false)
    (h : exec i (s.withHidden hi lo ll) = resultWithHidden hi lo ll (exec i s)) : Tracked i s hi lo ll := by
  intro t ht
  rw [ht] at h
  have hll : t.llbit = s.llbit := by
    rcases exec_next ht with ⟨kind, info, rfl⟩ | ⟨u, hu, rfl⟩
    · rfl
    · rw [advance_llbit, hu.llbit, h3]; rfl
  exact ⟨_, h, tracks_withHidden ht h1 h2 fun e => e.trans hll.symm⟩

/-- An instruction that writes HI or LO or both: each is written with one value, or kept as it was. -/
theorem tracked_completeHiLo {x y x' y' : Word64} (he : exec i s = completeHiLo x y s)
    (he' : exec i (s.withHidden hi lo ll) = completeHiLo x' y' (s.withHidden hi lo ll))
    (hx : hi = s.hi ∨ writesHi i = true → x' = x) (hy : lo = s.lo ∨ writesLo i = true → y' = y) :
    Tracked i s hi lo ll := by
  intro t ht
  have hset : (s.withHidden hi lo ll).setHiLo x' y' = (s.setHiLo x y).withHidden x' y' ll := rfl
  rw [completeHiLo, hset, complete_withHidden] at he'
  rw [he] at ht
  cases ht
  refine ⟨_, he', rfl, ?_, ?_, ?_⟩
  · rw [advance_hi]; exact hx
  · rw [advance_lo]; exact hy
  · rw [advance_llbit]; exact id

/-- A division: HI and LO are written on either side of the test for a divisor of zero. -/
theorem tracked_ite_completeHiLo {c : Prop} [Decidable c] {x y x' y' : Word64}
    (he : exec i s = if c then completeHiLo x y s else completeHiLo x' y' s)
    (he' : exec i (s.withHidden hi lo ll) =
      if c then completeHiLo x y (s.withHidden hi lo ll) else completeHiLo x' y' (s.withHidden hi lo ll)) :
    Tracked i s hi lo ll := by
  by_cases hc : c
  · rw [if_pos hc] at he he'
    exact tracked_completeHiLo he he' (fun _ => rfl) fun _ => rfl
  · rw [if_neg hc] at he he'
    exact tracked_completeHiLo he he' (fun _ => rfl) fun _ => rfl

/-- A load that sets LLbit: where it completes LLbit is set in both outcomes, where it raises LLbit is kept. -/
theorem tracked_loadLinked {n : Width} {ea : Word64} {f : Word64 → Word64} {rt : Reg} (h1 : writesHi i = false)
    (h2 : writesLo i = false) (he : exec i s = loadLinked i n ea f rt s)
    (he' : exec i (s.withHidden hi lo ll) = loadLinked i n ea f rt (s.withHidden hi lo ll)) :
    Tracked i s hi lo ll := by
  intro t ht
  have h := he.symm.trans ht
  unfold loadLinked at h he'
  rw [memRead_withHidden] at he'
  cases hr : memRead s (busAddr ea) n with
  | error sub =>
    rw [hr] at h he'
    cases h
    exact ⟨_, he', tracks_withHidden ht h1 h2 id⟩
  | ok q =>
    rw [hr] at h he'
    cases h
    refine ⟨_, he'.trans (complete_setReg_withHidden { q.2 with llbit := true } hi lo true .none rt (f q.1)),
      tracks_withHidden ht h1 h2 fun _ => ?_⟩
    rw [advance_llbit, setReg_llbit]

end Shapes

/-- Every instruction's outcome depends on HI, LO and LLbit only where it reads them. -/
theorem exec_tracks {i : Instr} {s : State} {hi lo : Word64} {ll : Bool} (h : HiddenUnread i s hi lo ll) :
    Tracked i s hi lo ll := by
  cases i with
  | sll | srl | sra | sllv | srlv | srav | dsllv | dsrlv | dsrav | dsll | dsrl | dsra | dsll32 | dsrl32 | dsra32
  | addu | subu | daddu | dsubu | and | or | xor | nor | slt | sltu
  | addiu | daddiu | slti | sltiu | andi | ori | xori | lui | jal | bltzal | bgezal | bltzall | bgezall =>
    exact tracked_of_commutes rfl rfl rfl (complete_setReg_withHidden s hi lo ll _ _ _)
  | add | sub | dadd | dsub | addi | daddi =>
    exact tracked_of_commutes rfl rfl rfl (writeOrOverflow_withHidden s hi lo ll _ _ _)
  | sync | j | beq | bne | blez | bgtz | bltz | bgez | beql | bnel | blezl | bgtzl | bltzl | bgezl =>
    exact tracked_of_commutes rfl rfl rfl (complete_withHidden s hi lo ll _)
  | jr rs => exact tracked_of_commutes rfl rfl rfl (execJr_withHidden s hi lo ll rs)
  | jalr rd rs => exact tracked_of_commutes rfl rfl rfl (execJalr_withHidden s hi lo ll rd rs)
  | tge | tgeu | tlt | tltu | teq | tne | tgei | tgeiu | tlti | tltiu | teqi | tnei =>
    exact tracked_of_commutes rfl rfl rfl (trapIf_withHidden s hi lo ll _ _)
  | syscall | brk => exact tracked_of_commutes rfl rfl rfl rfl
  | lb | lbu | lh | lhu | lw | lwu | ld | lwl | lwr | ldl | ldr =>
    exact tracked_of_commutes rfl rfl rfl (loadReg_withHidden s hi lo ll _ _ _ _ _ _)
  | ll | lld => exact tracked_loadLinked rfl rfl rfl rfl
  | sb | sh | sw | sd => exact tracked_of_commutes rfl rfl rfl (storeReg_withHidden s hi lo ll _ _ _ _)
  | swl | swr | sdl | sdr => exact tracked_of_commutes rfl rfl rfl (complete_storeBytes_withHidden s hi lo ll _)
  | sc | scd =>
    obtain rfl := h.llbit rfl
    exact tracked_of_commutes rfl rfl rfl (storeConditional_withHidden s hi lo _ _ _ _)
  | mfhi rd =>
    obtain rfl := h.hi ⟨rd, rfl⟩
    exact tracked_of_commutes rfl rfl rfl (complete_setReg_withHidden s s.hi lo ll .none rd s.hi)
  | mflo rd =>
    obtain rfl := h.lo ⟨rd, rfl⟩
    exact tracked_of_commutes rfl rfl rfl (complete_setReg_withHidden s hi s.lo ll .none rd s.lo)
  | mthi rs => exact tracked_completeHiLo rfl rfl (fun _ => rfl) fun e => e.resolve_right (by simp [writesLo])
  | mtlo rs => exact tracked_completeHiLo rfl rfl (fun e => e.resolve_right (by simp [writesHi])) fun _ => rfl
  | mult | multu | dmult | dmultu => exact tracked_completeHiLo rfl rfl (fun _ => rfl) fun _ => rfl
  | div | divu | ddiv | ddivu => exact tracked_ite_completeHiLo rfl rfl

/-! ### HI and LO (O22) -/

theorem tracks_hi {s t : State} {i : Instr} (x : Word64) (h : exec i s = .next t) (hi : ∀ rd, i ≠ .mfhi rd) :
    ∃ t', exec i { s with hi := x } = .next t' ∧ { t' with hi := t.hi } = t ∧ (writesHi i = true → t' = t) := by
  have hunread : HiddenUnread i s x s.lo s.llbit := ⟨fun ⟨rd, e⟩ => absurd e (hi rd), fun _ => rfl, fun _ => rfl⟩
  obtain ⟨t', he, ht⟩ := exec_tracks hunread t h
  have hvis : { t' with hi := t.hi } = t := by
    have h := ht.visible
    rw [← ht.lo (.inl rfl), ← ht.llbit rfl] at h
    exact h
  refine ⟨t', he, hvis, fun hw => ?_⟩
  rw [← ht.hi (.inr hw)] at hvis
  exact hvis

theorem tracks_lo {s t : State} {i : Instr} (x : Word64) (h : exec i s = .next t) (hi : ∀ rd, i ≠ .mflo rd) :
    ∃ t', exec i { s with lo := x } = .next t' ∧ { t' with lo := t.lo } = t ∧ (writesLo i = true → t' = t) := by
  have hunread : HiddenUnread i s s.hi x s.llbit := ⟨fun _ => rfl, fun ⟨rd, e⟩ => absurd e (hi rd), fun _ => rfl⟩
  obtain ⟨t', he, ht⟩ := exec_tracks hunread t h
  have hvis : { t' with lo := t.lo } = t := by
    have h := ht.visible
    rw [← ht.hi (.inl rfl), ← ht.llbit rfl] at h
    exact h
  refine ⟨t', he, hvis, fun hw => ?_⟩
  rw [← ht.lo (.inr hw)] at hvis
  exact hvis

/-- HI and LO after an instruction outside the lists of 10_state.md R35. -/
theorem exec_hi_lo {s t : State} {i : Instr} (h : exec i s = .next t) :
    (writesHi i = false → t.hi = s.hi) ∧ (writesLo i = false → t.lo = s.lo) := by
  rcases exec_next h with ⟨kind, info, rfl⟩ | ⟨u, hu, rfl⟩
  · exact ⟨fun _ => rfl, fun _ => rfl⟩
  · exact ⟨fun hw => (advance_hi _ _).trans (hu.hi hw), fun hw => (advance_lo _ _).trans (hu.lo hw)⟩

/-- Settles O22. -/
theorem hiLoWrittenAndRead : Obligations.HiLoWrittenAndRead := fun _ _ _ x h =>
  ⟨(exec_hi_lo h).1, (exec_hi_lo h).2, tracks_hi x h, tracks_lo x h⟩

/-! ### LLbit (O21) -/

/-- LLbit after an instruction: kept where an exception was raised, kept or set where the instruction completed. -/
theorem exec_llbit {s t : State} {i : Instr} (h : exec i s = .next t) :
    ((∃ e, t.run = .faulted e) ∧ t.llbit = s.llbit) ∨ t.llbit = (setsLink i || s.llbit) := by
  rcases exec_next h with ⟨kind, info, rfl⟩ | ⟨u, hu, rfl⟩
  · exact .inl ⟨⟨_, rfl⟩, rfl⟩
  · exact .inr ((advance_llbit _ _).trans hu.llbit)

/-- No step clears LLbit. -/
theorem step_keeps_llbit {s t : State} (hs : s.llbit = true) (h : step s = .next t) : t.llbit = true := by
  cases step_next h with
  | idle => exact hs
  | raised => exact hs
  | halted => exact hs
  | completed _ log replies i u hu =>
    rw [advance_llbit, hu.llbit, show (s.withDevices log replies).llbit = true from hs, Bool.or_true]

theorem tracks_llbit {s t : State} {i : Instr} (b : Bool) (hi : readsLink i = false) (h : exec i s = .next t) :
    ∃ t', exec i { s with llbit := b } = .next t' ∧ { t' with llbit := t.llbit } = t := by
  have hunread : HiddenUnread i s s.hi s.lo b :=
    ⟨fun _ => rfl, fun _ => rfl, fun hr => absurd hr (by simp [hi])⟩
  obtain ⟨t', he, ht⟩ := exec_tracks hunread t h
  have hvis := ht.visible
  rw [← ht.hi (.inl rfl), ← ht.lo (.inl rfl)] at hvis
  exact ⟨t', he, hvis⟩

/-- Settles O21. -/
theorem linkBit : Obligations.LinkBit := by
  refine ⟨fun s t i h => ?_, fun s t => step_keeps_llbit, fun p d s h => (construct_next h).2,
    fun s t i b => tracks_llbit b⟩
  rcases exec_llbit h with ⟨⟨e, hrun⟩, hll⟩ | hll
  · exact ⟨.inl hll, fun _ _ ht => by rw [hrun] at ht; cases ht⟩
  · cases hset : setsLink i with
    | false => exact ⟨.inl (by rw [hll, hset]; rfl), fun hc => by cases hc⟩
    | true => exact ⟨.inr ⟨rfl, by rw [hll, hset]; rfl⟩, fun _ _ _ => by rw [hll, hset]; rfl⟩

end Machine
end Sys2Proof
end

section
/-! SUPPORT. The bus as 20_memory.md states it: the region of an address (R63), the classification as a case table (R64,
R65), and what the two access primitives answer by each route (R66 to R68). -/

namespace Sys2Proof
namespace Machine

/-! ### Regions (O26) -/

/-- Settles O26: the region is the range that holds the address, and disjoint ranges share none. -/
theorem regionIsUnique : Obligations.RegionIsUnique := by
  intro p a hp
  have hsome : ∀ r, region p a = some r ↔ r ∈ p.ranges ∧ InRange r a :=
    fun r => ⟨region_some, fun ⟨hr, hi⟩ => region_of_mem hp hr hi⟩
  obtain ⟨-, hdisjoint, -, -⟩ := hp
  refine ⟨hsome, ⟨region_none, fun h => ?_⟩, hdisjoint.imp not_both_inRange⟩
  cases hr : region p a with
  | none => rfl
  | some r =>
    obtain ⟨hm, hi⟩ := (hsome r).1 hr
    exact absurd hi (h r hm)

/-! ### The three outcomes of a classification (O27) -/

section Classify
variable (p : Params) (a : BusAddr) (n : Width)

/-- The alignment test of `Classify` (20_memory.md R64) fails. -/
def Misaligned : Prop := 1 < n.bytes ∧ a.toNat % n.bytes ≠ 0 ∧ alignReq (region p a) = true

/-- Every byte of the access is in the region of the first (20_memory.md R64). -/
def InOneRegion : Prop := ∀ i < n.bytes, region p (byteAddr a i) = region p a

/-- `Classify` as its two tests and its route, in order. -/
theorem classify_cases :
    (Misaligned p a n ∧ classify p a n = .error .unaligned) ∨
      (¬ Misaligned p a n ∧ ¬ InOneRegion p a n ∧ classify p a n = .error .span) ∨
      (¬ Misaligned p a n ∧ InOneRegion p a n ∧ classify p a n = .ok (routeOf (region p a) a)) := by
  by_cases h1 : Misaligned p a n
  · exact .inl ⟨h1, if_pos h1⟩
  · by_cases h2 : InOneRegion p a n
    · exact .inr (.inr ⟨h1, h2, classify_of h1 h2⟩)
    · refine .inr (.inl ⟨h1, h2, ?_⟩)
      exact (if_neg h1).trans (if_neg (mt (spanTest_iff p a n).1 h2))

theorem classify_unaligned_iff : classify p a n = .error .unaligned ↔ Misaligned p a n := by
  rcases classify_cases p a n with ⟨h1, hc⟩ | ⟨h1, -, hc⟩ | ⟨h1, -, hc⟩ <;> simp [h1, hc]

theorem classify_span_iff : classify p a n = .error .span ↔ ¬ Misaligned p a n ∧ ¬ InOneRegion p a n := by
  rcases classify_cases p a n with ⟨h1, hc⟩ | ⟨h1, h2, hc⟩ | ⟨h1, h2, hc⟩
  · simp [h1, hc]
  · simp [h1, h2, hc]
  · simp [h2, hc]

theorem classify_ok_iff (route : Route) : classify p a n = .ok route ↔
    ¬ Misaligned p a n ∧ InOneRegion p a n ∧ route = routeOf (region p a) a := by
  refine ⟨classify_ok, ?_⟩
  rintro ⟨h1, h2, rfl⟩
  exact classify_of h1 h2

end Classify

/-- Settles O27: the three outcomes, with `alignReq` read as R64 states it. -/
theorem classification : Obligations.Classification := by
  intro p a n hp
  rw [← alignReq_iff hp]
  refine ⟨classify_unaligned_iff p a n, ?_, fun route => ?_⟩
  · refine (classify_span_iff p a n).trans (and_congr_right fun _ => ?_)
    simp only [InOneRegion, not_forall, exists_prop, byteAddr, ne_eq]
  · rw [classify_ok_iff]
    refine and_congr_right fun _ => and_congr_right fun _ => ?_
    cases region p a with
    | none => exact Iff.rfl
    | some r =>
      obtain ⟨base, size, kind⟩ := r
      cases kind <;> exact Iff.rfl

/-! ### The consequences (O28) -/

theorem region_eq_none_of_bytes {p : Params} {a : BusAddr} {n : Width}
    (h : ∀ i < n.bytes, region p (byteAddr a i) = none) : region p a = none := by
  rw [← byteAddr_zero a]
  exact h 0 (Width.bytes_pos n)

/-- An access to unmapped bytes only is never in error (20_memory.md R65). -/
theorem classify_unmapped {p : Params} {a : BusAddr} {n : Width}
    (h : ∀ i < n.bytes, region p (byteAddr a i) = none) : classify p a n = .ok .unmapped := by
  have ha := region_eq_none_of_bytes h
  refine (classify_ok_iff p a n _).2 ⟨?_, fun i hi => (h i hi).trans ha.symm, ?_⟩
  · rintro ⟨-, -, hreq⟩
    rw [ha] at hreq
    cases hreq
  · rw [ha]; rfl

/-- RAM requires alignment (20_memory.md R64). -/
theorem alignReq_of_inRam {p : Params} {a : BusAddr} (h : inRam p a = true) : alignReq (region p a) = true := by
  obtain ⟨r, hr, hk⟩ := (inRam_iff p a).1 h
  rw [hr]
  simp only [alignReq, hk]

/-- Settles O28. -/
theorem classificationConsequences : Obligations.ClassificationConsequences := fun p a n hp =>
  ⟨fun h => ⟨_, classify_aligned hp h⟩, ⟨_, classify_byte p a⟩, classify_unmapped,
    fun hn hmis hram => (classify_unaligned_iff p a n).2 ⟨hn, hmis, alignReq_of_inRam hram⟩⟩

/-! ### The access primitives by route -/

section Primitives
variable {s : State} {a : BusAddr} {n : Width}

theorem memRead_ramAt {k : BusRange} {off : Nat} (h : classify s.params a n = .ok (.ramAt k off)) :
    memRead s a n = .ok (readBytes s.mem a n.bytes, s) := by
  unfold memRead; rw [h]

theorem memRead_unmapped (h : classify s.params a n = .ok .unmapped) :
    memRead s a n = .ok (fillBytes s.params.fill n.bytes, s) := by
  unfold memRead; rw [h]

theorem memWrite_ramAt {k : BusRange} {off : Nat} (v : Word64) (h : classify s.params a n = .ok (.ramAt k off)) :
    memWrite s a n v = .ok { s with mem := writeBytes s.mem a n.bytes v } := by
  unfold memWrite; rw [h]

theorem memWrite_unmapped (v : Word64) (h : classify s.params a n = .ok .unmapped) : memWrite s a n v = .ok s := by
  unfold memWrite; rw [h]

/-- The configuration and the memory after a completed write to RAM. -/
theorem params_mem_of_memWrite_ramAt {t : State} {v : Word64} {k : BusRange} {off : Nat}
    (h : classify s.params a n = .ok (.ramAt k off)) (hw : memWrite s a n v = .ok t) :
    t.params = s.params ∧ t.mem = writeBytes s.mem a n.bytes v := by
  rw [memWrite_ramAt v h] at hw
  cases hw
  exact ⟨rfl, rfl⟩

end Primitives

/-! ### A RAM route (20_memory.md R64) -/

/-- Only aligned accesses are routed to RAM. -/
theorem aligned_of_classify_ramAt {p : Params} {a : BusAddr} {n : Width} {k : BusRange} {off : Nat}
    (h : classify p a n = .ok (.ramAt k off)) : a.toNat % n.bytes = 0 := by
  obtain ⟨hk, -, hreg⟩ := classify_ramAt h
  have ha : region p a = some k := byteAddr_zero a ▸ hreg 0 (Width.bytes_pos n)
  by_contra hmis
  refine (classify_ok h).1 ⟨?_, hmis, alignReq_of_inRam ((inRam_iff p a).2 ⟨k, ha, hk⟩)⟩
  by_contra hn
  have hone : n.bytes = 1 := by have := Width.bytes_pos n; omega
  rw [hone] at hmis
  exact hmis (Nat.mod_one _)

/-- The bytes of `RamAt(k, off)` are those of range `k` from the offset `off` on, with no wrap. -/
theorem ramAt_bytes {p : Params} {a : BusAddr} {n : Width} {k : BusRange} {off : Nat}
    (h : classify p a n = .ok (.ramAt k off)) : k.kind = .ram ∧ k ∈ p.ranges ∧ off + n.bytes ≤ k.size ∧
      ∀ i < n.bytes, (byteAddr a i).toNat = k.base.toNat + off + i := by
  obtain ⟨hk, hoff, hreg⟩ := classify_ramAt h
  have hpos := Width.bytes_pos n
  have hbyte : ∀ i < n.bytes, k ∈ p.ranges ∧ InRange k (byteAddr a i) ∧ (byteAddr a i).toNat = a.toNat + i :=
    fun i hi => ⟨(region_some (hreg i hi)).1, (region_some (hreg i hi)).2,
      (byteAddr_block (aligned_of_classify_ramAt h) hi).1⟩
  obtain ⟨hm, ⟨hlow, -⟩, hfirst⟩ := hbyte 0 hpos
  obtain ⟨-, ⟨-, hhigh⟩, hlast⟩ := hbyte (n.bytes - 1) (by omega)
  refine ⟨hk, hm, by omega, fun i hi => ?_⟩
  rw [(hbyte i hi).2.2]
  omega

/-! ### MemRead (O29) -/

/-- A read returns no more than the bits of its width, by every route (20_memory.md R66). -/
theorem lt_of_readReturns {s : State} {a : BusAddr} {n : Width} {v : Word64} {route : Route}
    (h : ReadReturns s a n v route) : v.toNat < 2 ^ (8 * n.bytes) := by
  cases route with
  | ramAt k off =>
    have hv : v.toNat = _ := h
    exact hv ▸ bigEndian_lt _ _
  | devAt d =>
    have hv : v = deviceReply s d a n := h
    rw [hv, deviceReply, toNat_lowBytes]
    exact Nat.mod_lt _ (Nat.two_pow_pos _)
  | unmapped =>
    have hv : v.toNat = _ := h
    exact hv ▸ bigEndian_lt _ _

/-- Settles O29. -/
theorem memReadReturns : Obligations.MemReadReturns := by
  intro s a n
  refine ⟨fun sub => memRead_error, fun route h => ?_, fun k off _ h => ramAt_bytes h⟩
  obtain ⟨v, u, hr, hv, he, hu⟩ := memRead_ok h
  exact ⟨v, u, hr, hv, he, lt_of_readReturns hv, hu⟩

/-! ### MemWrite (O30) -/

/-- Settles O30. -/
theorem memWriteStores : Obligations.MemWriteStores := by
  intro s a n v
  refine ⟨fun sub => memWrite_error, fun route h => ?_⟩
  obtain ⟨t, hw, hb, he, ht⟩ := memWrite_ok v h
  refine ⟨t, hw, hb, he, ht, ?_⟩
  rintro rfl
  rw [memWrite_unmapped v h] at hw
  cases hw
  exact ⟨rfl, _, memRead_unmapped h, toNat_fillBytes _ _ (Width.bytes_le n)⟩

end Machine
end Sys2Proof
end

section
/-! SUPPORT. One byte order for every width (20_memory.md R74, R75): reads of the whole, of a part and of two neighbours
of what was written to RAM, the fetch among them, and what follows for a store and the next fetch (R85). -/

namespace Sys2Proof
namespace Machine

/-! ### Parts and neighbours in memory -/

theorem byteAddr_byteAddr (a : BusAddr) (i j : Nat) : byteAddr (byteAddr a i) j = byteAddr a (i + j) := by
  unfold byteAddr
  rw [BitVec.add_assoc, ← BitVec.ofNat_add]

/-- The `m` bytes from byte `k` on of an `n`-byte write, read back: those bytes of the value. -/
theorem readBytes_writeBytes_part (mem : Memory) (a : BusAddr) (n : Nat) (m : Width) (k : Nat) (v : Word64)
    (hn : n ≤ 8) (hk : k + m.bytes ≤ n) :
    readBytes (writeBytes mem a n v) (byteAddr a k) m.bytes = lowBytes m (v >>> (8 * (n - (k + m.bytes)))) := by
  apply BitVec.eq_of_toNat_eq
  rw [toNat_readBytes _ _ _ (Width.bytes_le m), toNat_lowBytes, ← bigEndian_busByte]
  refine bigEndian_congr fun i hi => ?_
  rw [byteAddr_byteAddr, read_writeBytes mem a n v (k + i) (by omega) (by omega)]
  apply BitVec.eq_of_toNat_eq
  simp only [BitVec.extractLsb'_toNat, BitVec.toNat_ushiftRight, ← Nat.shiftRight_add]
  rw [show 8 * (n - 1 - (k + i)) = 8 * (n - (k + m.bytes)) + 8 * (m.bytes - 1 - i) by omega]

/-- What was written, read back whole. -/
theorem readBytes_writeBytes (mem : Memory) (a : BusAddr) (n : Width) (v : Word64) :
    readBytes (writeBytes mem a n.bytes v) a n.bytes = lowBytes n v := by
  have h := readBytes_writeBytes_part mem a n.bytes n 0 v (Width.bytes_le n) (by omega)
  rwa [byteAddr_zero, Nat.zero_add, Nat.sub_self, Nat.mul_zero, BitVec.ushiftRight_zero] at h

/-- A read of bytes that a write does not touch. -/
theorem readBytes_writeBytes_of_ne (mem : Memory) (a b : BusAddr) (n : Nat) (m : Width) (v : Word64)
    (h : ∀ i < n, ∀ j < m.bytes, byteAddr a i ≠ byteAddr b j) :
    readBytes (writeBytes mem a n v) b m.bytes = readBytes mem b m.bytes :=
  readBytes_congr (Width.bytes_le m) fun j hj =>
    read_writeBytes_of_ne mem a n v _ fun i hi => (h i hi j hj).symm

/-- A read of `i + j` bytes puts the first `i` above the other `j`. -/
theorem readBytes_add (mem : Memory) (a : BusAddr) (i j : Nat) :
    readBytes mem a (i + j) = (readBytes mem a i <<< (8 * j)) ||| readBytes mem (byteAddr a i) j := by
  induction j with
  | zero => simp [readBytes]
  | succ j ih =>
    rw [← Nat.add_assoc, readBytes, ih, readBytes, byteAddr_byteAddr, BitVec.shiftLeft_or_distrib, BitVec.or_assoc,
      ← BitVec.shiftLeft_add, Nat.mul_succ]

/-- Two values written side by side, read as one. -/
theorem readBytes_writeBytes_pair (mem : Memory) (a : BusAddr) (n : Width) (v w : Word64) :
    readBytes (writeBytes (writeBytes mem a n.bytes v) (byteAddr a n.bytes) n.bytes w) a (n.bytes + n.bytes) =
      (lowBytes n v <<< (8 * n.bytes)) ||| lowBytes n w := by
  have hle := Width.bytes_le n
  rw [readBytes_add, readBytes_writeBytes, readBytes_writeBytes_of_ne, readBytes_writeBytes]
  intro i hi j hj e
  rw [byteAddr_byteAddr] at e
  have := byteAddr_inj (by omega) (by omega) e
  omega

/-! ### Aligned accesses to RAM -/

/-- An aligned access whose first byte is RAM is routed to RAM. -/
theorem classify_aligned_ram {p : Params} (hp : p.wf) {a : BusAddr} {n : Width} (ha : a.toNat % n.bytes = 0)
    (hram : inRam p a = true) : ∃ k off, classify p a n = .ok (.ramAt k off) := by
  obtain ⟨r, hr, hk⟩ := (inRam_iff p a).1 hram
  refine ⟨r, a.toNat - r.base.toNat, ?_⟩
  rw [classify_aligned hp ha, hr]
  simp only [routeOf, hk]

/-- Every byte of an aligned access whose first byte is RAM is RAM. -/
theorem inRam_byteAddr {p : Params} (hp : p.wf) {a : BusAddr} {n : Width} (ha : a.toNat % n.bytes = 0)
    (hram : inRam p a = true) {i : Nat} (hi : i < n.bytes) : inRam p (byteAddr a i) = true := by
  unfold inRam
  rw [region_same_block hp (byteAddr_block ha hi).2]
  exact hram

/-- A wider access is a whole number of narrower ones. -/
theorem Width.bytes_dvd {m n : Width} (h : m.bytes ≤ n.bytes) : m.bytes ∣ n.bytes := by
  revert h
  cases m <;> cases n <;> decide

/-- The `i`-th part of `m` bytes of an aligned RAM access of `n` bytes is itself routed to RAM. -/
theorem classify_part {p : Params} (hp : p.wf) {a : BusAddr} {n m : Width} (ha : a.toNat % n.bytes = 0)
    (hram : inRam p a = true) {i : Nat} (hi : m.bytes * (i + 1) ≤ n.bytes) :
    ∃ k off, classify p (byteAddr a (m.bytes * i)) m = .ok (.ramAt k off) := by
  have hpos := Width.bytes_pos m
  have hmul : m.bytes * (i + 1) = m.bytes * i + m.bytes := Nat.mul_succ _ _
  have hlt : m.bytes * i < n.bytes := by omega
  refine classify_aligned_ram hp ?_ (inRam_byteAddr hp ha hram hlt)
  have hdvd : m.bytes ∣ a.toNat := (Width.bytes_dvd (by omega)).trans (Nat.dvd_of_mod_eq_zero ha)
  rw [(byteAddr_block ha hlt).1]
  exact Nat.mod_eq_zero_of_dvd (hdvd.add (Nat.dvd_mul_right _ _))

/-! ### A read after a write (O31) -/

/-- Settles O31. -/
theorem readAfterWrite : Obligations.ReadAfterWrite := by
  intro s t a b n m v k k' off off' hc hw
  obtain ⟨hparams, hmem⟩ := params_mem_of_memWrite_ramAt hc hw
  rw [← hparams] at hc
  refine ⟨?_, fun hc' hne => ⟨_, memRead_ramAt hc', ?_⟩⟩
  · rw [memRead_ramAt hc, hmem, readBytes_writeBytes, lowBytes_eq_and]
  · rw [← hparams] at hc'
    rw [memRead_ramAt hc', hmem, readBytes_writeBytes_of_ne s.mem a b n.bytes m v hne]

/-! ### The fetch -/

/-- A fetch from an aligned RAM address reads the memory of its own state (20_memory.md R75, R85). -/
theorem fetchWord_ram {s : State} (hp : s.params.wf) (ha : (busAddr s.pc).toNat % 4 = 0)
    (hram : inRam s.params (busAddr s.pc) = true) :
    fetchWord s = .ok ((readBytes s.mem (busAddr s.pc) 4).setWidth 32, s) := by
  obtain ⟨k, off, hc⟩ := classify_aligned_ram (n := .word) hp ha hram
  unfold fetchWord
  rw [memRead_ramAt hc]
  rfl

theorem setWidth_lowBytes_word (v : Word64) : (lowBytes .word v).setWidth 32 = v.setWidth 32 := by
  apply BitVec.eq_of_toNat_eq
  rw [BitVec.toNat_setWidth, toNat_lowBytes, BitVec.toNat_setWidth]
  exact Nat.mod_mod _ _

/-- A word written to RAM where the next fetch reads is the fetched word. -/
theorem fetchWord_of_written {t : State} {a : BusAddr} {v : Word64} {mem : Memory} (hp : t.params.wf)
    (ha : a.toNat % 4 = 0) (hram : inRam t.params a = true) (hmem : t.mem = writeBytes mem a 4 v)
    (hpc : busAddr t.pc = a) : fetchWord t = .ok (v.setWidth 32, t) := by
  subst hpc
  have hread : readBytes (writeBytes mem (busAddr t.pc) 4 v) (busAddr t.pc) 4 = lowBytes .word v :=
    readBytes_writeBytes mem (busAddr t.pc) .word v
  rw [fetchWord_ram hp ha hram, hmem, hread, setWidth_lowBytes_word]

/-! ### Every width sees one byte order (O32) -/

section MixedWidths
variable {s t u : State} {a : BusAddr} {n m : Width} {v w : Word64}

/-- A part of what was written to an aligned RAM address, read back. -/
theorem memRead_part (hp : s.params.wf) (ha : a.toNat % n.bytes = 0) (hram : inRam s.params a = true)
    (hw : memWrite s a n v = .ok t) (i : Nat) (hi : m.bytes * (i + 1) ≤ n.bytes) :
    memRead t (byteAddr a (m.bytes * i)) m =
      .ok (lowBytes m (v >>> (8 * (n.bytes - m.bytes * (i + 1)))), t) := by
  obtain ⟨k, off, hc⟩ := classify_aligned_ram hp ha hram
  obtain ⟨hparams, hmem⟩ := params_mem_of_memWrite_ramAt hc hw
  rw [← hparams] at hp hram
  obtain ⟨k', off', hc'⟩ := classify_part hp ha hram hi
  rw [Nat.mul_succ] at hi ⊢
  rw [memRead_ramAt hc', hmem, readBytes_writeBytes_part _ _ _ _ _ _ (Width.bytes_le n) hi]

/-- Two values written side by side to RAM, read as one of twice the width. -/
theorem memRead_pair (hp : s.params.wf) (ha : a.toNat % m.bytes = 0) (hram : inRam s.params a = true)
    (hm : m.bytes = 2 * n.bytes) (hv : memWrite s a n v = .ok t)
    (hw : memWrite t (byteAddr a n.bytes) n w = .ok u) :
    memRead u a m = .ok ((lowBytes n v <<< (8 * n.bytes)) ||| lowBytes n w, u) := by
  have hpart : ∀ i < 2, ∃ k off, classify s.params (byteAddr a (n.bytes * i)) n = .ok (.ramAt k off) :=
    fun i hi => classify_part hp ha hram (by rw [hm, Nat.mul_comm]; exact Nat.mul_le_mul_right _ hi)
  obtain ⟨k0, off0, hfirst⟩ := hpart 0 (by decide)
  obtain ⟨k1, off1, hsecond⟩ := hpart 1 (by decide)
  obtain ⟨k, off, hboth⟩ := classify_aligned_ram hp ha hram
  rw [Nat.mul_zero, byteAddr_zero] at hfirst
  obtain ⟨hpt, hmt⟩ := params_mem_of_memWrite_ramAt hfirst hv
  rw [Nat.mul_one, ← hpt] at hsecond
  obtain ⟨hpu, hmu⟩ := params_mem_of_memWrite_ramAt hsecond hw
  rw [← hpt, ← hpu] at hboth
  rw [memRead_ramAt hboth, hmu, hmt, hm, Nat.two_mul, readBytes_writeBytes_pair]

end MixedWidths

/-- Bits `k + 8n - 1 : k` of a word, as what crosses the bus. -/
theorem lowBytes_word_shift (n : Width) (v : Word32) (k : Nat) :
    lowBytes n (v.setWidth 64 >>> k) = (v.extractLsb' k (8 * n.bytes)).setWidth 64 := by
  have hv : v.toNat < 2 ^ 64 := v.isLt.trans (by decide)
  have hle : (v.toNat >>> k) % 2 ^ (8 * n.bytes) ≤ v.toNat :=
    (Nat.mod_le _ _).trans (Nat.shiftRight_le _ _)
  apply BitVec.eq_of_toNat_eq
  rw [toNat_lowBytes, BitVec.toNat_ushiftRight, BitVec.toNat_setWidth, Nat.mod_eq_of_lt hv,
    BitVec.toNat_setWidth, BitVec.extractLsb'_toNat, Nat.mod_eq_of_lt (hle.trans_lt hv)]

section WordParts
variable {s t : State} {a : BusAddr} {v : Word32}

/-- Byte `i` of a word written to RAM, counted from the most significant. -/
theorem memRead_byte_of_word (hp : s.params.wf) (ha : a.toNat % 4 = 0) (hram : inRam s.params a = true)
    (hw : memWrite s a .word (v.setWidth 64) = .ok t) (i : Nat) (hi : i < 4) :
    memRead t (byteAddr a i) .byte = .ok ((v.extractLsb' (8 * (3 - i)) 8).setWidth 64, t) := by
  have h := memRead_part (m := .byte) hp ha hram hw i (by simp only [Width.bytes]; omega)
  rw [lowBytes_word_shift] at h
  simp only [Width.bytes, Nat.one_mul] at h
  rw [h, show 4 - (i + 1) = 3 - i by omega]

/-- The low half of a word written to RAM stands at the word's address plus 2. -/
theorem memRead_half_of_word (hp : s.params.wf) (ha : a.toNat % 4 = 0) (hram : inRam s.params a = true)
    (hw : memWrite s a .word (v.setWidth 64) = .ok t) :
    memRead t (byteAddr a 2) .half = .ok ((v.setWidth 16).setWidth 64, t) := by
  have h := memRead_part (m := .half) hp ha hram hw 1 (by decide)
  rw [lowBytes_word_shift] at h
  exact h

/-- A word written where the pc points is the next word fetched. -/
theorem fetchWord_of_memWrite (hp : s.params.wf) (ha : a.toNat % 4 = 0) (hram : inRam s.params a = true)
    (hw : memWrite s a .word (v.setWidth 64) = .ok t) (hpc : busAddr t.pc = a) : fetchWord t = .ok (v, t) := by
  obtain ⟨k, off, hc⟩ := classify_aligned_ram (n := .word) hp ha hram
  obtain ⟨hparams, hmem⟩ := params_mem_of_memWrite_ramAt hc hw
  rw [fetchWord_of_written (hparams ▸ hp) ha (hparams ▸ hram) hmem hpc]
  simp

end WordParts

/-- The first of a word's four bytes holds `op` (20_memory.md R75). -/
theorem opOf_wordOfBytes (b0 b1 b2 b3 : Byte) : opOf (wordOfBytes b0 b1 b2 b3) = b0.extractLsb' 2 6 := by
  unfold opOf wordOfBytes
  rw [extract_append_high _ _ (by decide), extract_append_high _ _ (by decide), extract_append_high _ _ (by decide)]

/-- Settles O32. -/
theorem bigEndianMixedWidths : Obligations.BigEndianMixedWidths := by
  refine ⟨fun s t a v hp ha hram hw => ?_, fun s t a n m i v hp ha hram hw hi => ?_,
    fun s t u a n m v w hp ha hram hm hv hw => ?_, opOf_wordOfBytes⟩
  · have hbyte := memRead_byte_of_word hp ha hram hw
    have hhalf := memRead_half_of_word hp ha hram hw
    refine ⟨hbyte, hhalf, fetchWord_of_memWrite hp ha hram hw, ?_⟩
    rintro rfl
    exact ⟨byteAddr_zero a ▸ hbyte 0 (by decide), hbyte 1 (by decide), hbyte 2 (by decide), hbyte 3 (by decide), hhalf⟩
  · rw [← lowBytes_eq_and]
    exact memRead_part hp ha hram hw i hi
  · rw [← lowBytes_eq_and, ← lowBytes_eq_and]
    exact memRead_pair hp ha hram hm hv hw

/-! ### A store and the next fetch (O33) -/

theorem busAddr_mod_four (ea : Word64) : (busAddr ea).toNat % 4 = ea.toNat % 4 := partOf_busAddr4 ea

/-- SW to an aligned RAM address completes with the word in memory. -/
theorem execSw_ram {s t : State} {rt base : Reg} {offset : BitVec 16} (hp : s.params.wf)
    (ha : (effectiveAddress s base offset).toNat % 4 = 0)
    (hram : inRam s.params (busAddr (effectiveAddress s base offset)) = true)
    (h : exec (.sw rt offset base) s = .next t) :
    t.params = s.params ∧ t.mem = writeBytes s.mem (busAddr (effectiveAddress s base offset)) 4 (s.reg rt) := by
  obtain ⟨k, off, hc⟩ := classify_aligned_ram (n := .word) hp ((busAddr_mod_four _).trans ha) hram
  have hexec : exec (.sw rt offset base) s =
      storeReg (.sw rt offset base) .word (effectiveAddress s base offset) (s.reg rt) s := rfl
  rw [hexec, storeReg, memWrite_ramAt _ hc] at h
  cases h
  exact ⟨advance_params _ _, advance_mem _ _⟩

/-- Settles O33. -/
theorem storeIsSeenByNextFetch : Obligations.StoreIsSeenByNextFetch := by
  refine ⟨fun s t rt base offset hp ha hram h hpc => ?_, fun s hp ha hram => ?_⟩
  · obtain ⟨hparams, hmem⟩ := execSw_ram hp ha hram h
    exact fetchWord_of_written (hparams ▸ hp) ((busAddr_mod_four _).trans ha) (hparams ▸ hram) hmem hpc
  · refine ⟨_, fetchWord_ram hp ((busAddr_mod_four _).trans ha) hram, ?_⟩
    have hread := toNat_readBytes s.mem (busAddr s.pc) 4 (by decide)
    rw [BitVec.toNat_setWidth, hread, Nat.mod_eq_of_lt (bigEndian_lt _ 4)]
    rfl

end Machine
end Sys2Proof
end

section
/-! SUPPORT. The bus use of every instruction (20_memory.md R76), from what an instruction can do (`exec_next`). -/

namespace Sys2Proof
namespace Machine

/-! ### Device callbacks and stored bytes (O25) -/

/-- No callback and no change of memory is within every class of R76. -/
theorem allowedBus_nil {s t : State} (h : SameMemory s t) (use : BusUse) : AllowedBus s t [] use := by
  cases use with
  | none => exact ⟨rfl, h⟩
  | oneRead n => exact ⟨.inl rfl, h⟩
  | oneWrite n => exact .inl rfl
  | byteWrites most => exact ⟨Nat.zero_le _, fun _ he => by cases he⟩

/-- The sequencer's part of a step adds nothing to an instruction's bus use. -/
theorem allowedBus_advance {s u : State} {evs : List DevEvent} {use : BusUse} (br : Request)
    (h : AllowedBus s u evs use) : AllowedBus s (u.advance br) evs use := by
  cases use with
  | none | oneRead =>
    obtain ⟨hevs, hmem⟩ := h
    exact ⟨hevs, fun a => (advance_byteAt u br a).trans (hmem a)⟩
  | oneWrite | byteWrites => exact h

/-- Settles O25. -/
theorem busUseOfInstructions : Obligations.BusUseOfInstructions := by
  intro s t i h
  rcases exec_next h with ⟨kind, info, rfl⟩ | ⟨u, hu, rfl⟩
  · exact ⟨⟨[], (List.append_nil _).symm, allowedBus_nil (fun _ => rfl) _⟩, fun _ _ => rfl⟩
  · obtain ⟨evs, hlog, hallowed⟩ := hu.bus
    refine ⟨⟨evs, (advance_devLog _ _).trans hlog, allowedBus_advance _ hallowed⟩, fun x hx => ?_⟩
    rw [advance_byteAt, hu.stores x hx]

end Machine
end Sys2Proof
end

section
/-! SUPPORT. The encoder and the decoder are inverse to each other, and the reserved words are those of R113
(30_encoding.md). Each proof follows the maps of R108: the primary map, SPECIAL by `funct`, REGIMM by `rt`. -/

namespace Sys2Proof
namespace Machine

/-! ### Decoding an encoded instruction (O1) -/

/-- One case for each format (R101 to R104): the decoder reads back the fields that the encoder put side by side. -/
theorem decode_encode (i : Instr) : decode (encode i) = .instr i := by
  cases i
  case syscall | brk =>
    refine (decode_special (opOf_codeWord ..)).trans ?_
    unfold decodeSpecial
    rw [functOf_codeWord, code20Of_codeWord]; rfl
  case tge | tgeu | tlt | tltu | teq | tne =>
    refine (decode_special (opOf_trapWord ..)).trans ?_
    unfold decodeSpecial
    rw [functOf_trapWord, rsOf_trapWord, rtOf_trapWord, code10Of_trapWord]; rfl
  case bltz | bgez | bltzl | bgezl | tgei | tgeiu | tlti | tltiu | teqi | tnei | bltzal | bgezal | bltzall | bgezall =>
    refine (decode_regimm (opOf_iWord ..)).trans ?_
    unfold decodeRegimm
    rw [rtOf_iWord, rsOf_iWord, immOf_iWord]; rfl
  case j | jal =>
    change decode (jWord ..) = _
    unfold decode
    rw [opOf_jWord, targetOf_jWord]; rfl
  case beq | bne | blez | bgtz | addi | addiu | slti | sltiu | andi | ori | xori | lui | beql | bnel | blezl | bgtzl
      | daddi | daddiu | ldl | ldr | lb | lh | lwl | lw | lbu | lhu | lwr | lwu | sb | sh | swl | sw | sdl | sdr | swr
      | ll | lld | ld | sc | scd | sd =>
    change decode (iWord ..) = _
    unfold decode
    rw [opOf_iWord, rsOf_iWord, rtOf_iWord, immOf_iWord]; rfl
  case sync => rfl
  -- the R format, its must-be-zero fields zero
  all_goals
    refine (decode_special (opOf_rWord ..)).trans ?_
    unfold decodeSpecial
    rw [functOf_rWord, rsOf_rWord, rtOf_rWord, rdOf_rWord, saOf_rWord]; rfl

/-- Settles O1. -/
theorem decodeOfEncode : Obligations.DecodeOfEncode := decode_encode

/-! ### Encoding a decoded word (O2) -/

/-- What the decoder answers for `w` keeps all of `w`: the instruction is encoded as `w`, the reserved word is `w`. -/
def Keeps (w : Word32) : Decoded → Prop
  | .instr i => encode i = w
  | .reserved x _ => x = w

/-- An instruction with must-be-zero fields has to give `w` back only where they are zero (R112). -/
theorem keeps_mustBeZero {P : Prop} [Decidable P] {i : Instr} {w : Word32} (h : P → encode i = w) :
    Keeps w (mustBeZero (decide P) i w) := by
  by_cases hz : P
  · simpa [mustBeZero, hz, Keeps] using h hz
  · simp [mustBeZero, hz, Keeps]

theorem keeps_decodeRegimm {w : Word32} (hop : opOf w = 1#6) : Keeps w (decodeRegimm w) := by
  unfold decodeRegimm
  split
  case h_15 => rfl
  all_goals exact iWord_of_fields hop rfl (eq_of_toNat ‹_›) rfl

theorem keeps_decodeSpecial {w : Word32} (hop : opOf w = 0#6) : Keeps w (decodeSpecial w) := by
  unfold decodeSpecial
  split
  -- SYSCALL, BREAK
  case h_9 hf | h_10 hf => exact codeWord_of_fields hop rfl (eq_of_toNat hf)
  -- SYNC
  case h_11 hf =>
    refine keeps_mustBeZero fun hcode => ?_
    obtain ⟨hrs, hrt, hrd, hsa⟩ := (code20Of_eq_zero w).1 hcode
    exact rWord_of_fields hop hrs hrt hrd hsa (eq_of_toNat hf)
  -- the register traps
  case h_41 hf | h_42 hf | h_43 hf | h_44 hf | h_45 hf | h_46 hf =>
    exact trapWord_of_fields hop rfl rfl rfl (eq_of_toNat hf)
  -- no entry of the map
  case h_53 => rfl
  -- the R format: a field that is not an operand is zero
  all_goals
    exact keeps_mustBeZero fun hz => rWord_of_fields hop (by simp [hz]) (by simp [hz]) (by simp [hz]) (by simp [hz])
      (eq_of_toNat ‹_›)

theorem keeps_decode (w : Word32) : Keeps w (decode w) := by
  unfold decode
  split
  case h_1 hop => exact keeps_decodeSpecial (eq_of_toNat hop)
  case h_2 hop => exact keeps_decodeRegimm (eq_of_toNat hop)
  -- J, JAL
  case h_3 hop | h_4 hop => exact jWord_of_fields (eq_of_toNat hop) rfl
  -- BLEZ, BGTZ, LUI, BLEZL, BGTZL
  case h_7 hop | h_8 hop | h_16 hop | h_22 hop | h_23 hop =>
    exact keeps_mustBeZero fun hz => iWord_of_fields (eq_of_toNat hop) (by simp [hz]) (by simp [hz]) rfl
  -- the coprocessors, CACHE, no entry of the map
  case h_17 | h_18 | h_19 | h_43 | h_45 | h_46 | h_48 | h_49 | h_52 | h_53 | h_55 | h_56 | h_58 => rfl
  -- the I format
  all_goals exact iWord_of_fields (eq_of_toNat ‹_›) rfl rfl rfl

theorem encode_of_decode {w : Word32} {i : Instr} (h : decode w = .instr i) : encode i = w :=
  show Keeps w (.instr i) from h ▸ keeps_decode w

/-- Settles O2. -/
theorem decodedWordIsItsEncoding : Obligations.DecodedWordIsItsEncoding :=
  fun w => ⟨fun _ => encode_of_decode, fun x why h => show Keeps w (.reserved x why) from h ▸ keeps_decode w⟩

/-- The encoding line of every instruction's rule: both directions together. -/
theorem isEncoding_encode (i : Instr) : IsEncoding i (encode i) := fun _ =>
  ⟨fun h => (encode_of_decode h).symm, fun h => h ▸ decode_encode i⟩

/-! ### The reserved words (O3) -/

/-- The decoder answers `Reserved` (R108). -/
def IsReserved (d : Decoded) : Prop := ∃ x why, d = .reserved x why

@[simp] theorem not_isReserved_instr (i : Instr) : ¬ IsReserved (.instr i) := nofun

@[simp] theorem isReserved_reserved (w : Word32) (why : ReservedWhy) : IsReserved (.reserved w why) := ⟨w, why, rfl⟩

@[simp] theorem isReserved_mustBeZero (ok : Bool) (i : Instr) (w : Word32) :
    IsReserved (mustBeZero ok i w) ↔ ok = false := by
  simp [IsReserved, mustBeZero_reserved]

theorem append_eq_zero_iff {m n : Nat} (a : BitVec m) (b : BitVec n) : a ++ b = 0 ↔ a = 0 ∧ b = 0 := by
  refine ⟨fun h => ⟨?_, ?_⟩, ?_⟩
  · simpa [BitVec.extractLsb'_append_eq_left] using congrArg (BitVec.extractLsb' n m) h
  · simpa [BitVec.extractLsb'_append_eq_right] using congrArg (BitVec.extractLsb' 0 n) h
  · rintro ⟨rfl, rfl⟩; simp

/-! The must-be-zero fields that R112 writes as one run of bits. -/

theorem rs_rt_eq_zero (w : Word32) : w.extractLsb' 16 10 = 0 ↔ rsOf w = 0 ∧ rtOf w = 0 := by
  rw [← append_eq_zero_iff, rsOf, rtOf, extract_join w (by rfl)]

theorem rd_sa_eq_zero (w : Word32) : w.extractLsb' 6 10 = 0 ↔ rdOf w = 0 ∧ saOf w = 0 := by
  rw [← append_eq_zero_iff, rdOf, saOf, extract_join w (by rfl)]

theorem rt_rd_sa_eq_zero (w : Word32) : w.extractLsb' 6 15 = 0 ↔ rtOf w = 0 ∧ rdOf w = 0 ∧ saOf w = 0 := by
  rw [← rd_sa_eq_zero, ← append_eq_zero_iff, rtOf, extract_join w (by rfl)]

/-- REGIMM: a sub-opcode below 32 is in the map or in the list (R111, R113). -/
theorem isReserved_decodeRegimm (w : Word32) : IsReserved (decodeRegimm w) ↔ (rtOf w).toNat ∈
    [0x04, 0x05, 0x06, 0x07, 0x0D, 0x0F, 0x14, 0x15, 0x16, 0x17, 0x18, 0x19, 0x1A, 0x1B, 0x1C, 0x1D, 0x1E, 0x1F] := by
  have hlt := (rtOf w).isLt
  unfold decodeRegimm
  split
  case h_15 =>
    refine iff_of_true (isReserved_reserved _ _) ?_
    simp only [List.mem_cons, List.not_mem_nil, or_false, imp_false] at *
    omega
  all_goals rename_i hrt; simp [hrt]

/-- SPECIAL: a `funct` below 64 is reserved, or in the map with the must-be-zero fields that R112 gives it. -/
theorem isReserved_decodeSpecial (w : Word32) : IsReserved (decodeSpecial w) ↔
    ((functOf w).toNat ∈ [0x01, 0x05, 0x0A, 0x0B, 0x0E, 0x15, 0x28, 0x29, 0x35, 0x37, 0x39, 0x3D] ∨
      ((functOf w).toNat ∈ [0x00, 0x02, 0x03, 0x38, 0x3A, 0x3B, 0x3C, 0x3E, 0x3F] ∧ rsOf w ≠ 0) ∨
      ((functOf w).toNat ∈ [0x04, 0x06, 0x07, 0x14, 0x16, 0x17] ∧ saOf w ≠ 0) ∨
      ((functOf w).toNat ∈
        [0x20, 0x21, 0x22, 0x23, 0x24, 0x25, 0x26, 0x27, 0x2A, 0x2B, 0x2C, 0x2D, 0x2E, 0x2F] ∧ saOf w ≠ 0) ∨
      ((functOf w).toNat = 0x08 ∧ w.extractLsb' 6 15 ≠ 0) ∨
      ((functOf w).toNat = 0x09 ∧ (rtOf w ≠ 0 ∨ saOf w ≠ 0)) ∨
      ((functOf w).toNat = 0x0F ∧ w.extractLsb' 6 20 ≠ 0) ∨
      ((functOf w).toNat ∈ [0x10, 0x12] ∧ (w.extractLsb' 16 10 ≠ 0 ∨ saOf w ≠ 0)) ∨
      ((functOf w).toNat ∈ [0x11, 0x13] ∧ w.extractLsb' 6 15 ≠ 0) ∨
      ((functOf w).toNat ∈ [0x18, 0x19, 0x1A, 0x1B, 0x1C, 0x1D, 0x1E, 0x1F] ∧ w.extractLsb' 6 10 ≠ 0)) := by
  have hlt := (functOf w).isLt
  rw [← code20Of]
  simp only [ne_eq, rt_rd_sa_eq_zero, rs_rt_eq_zero, rd_sa_eq_zero]
  unfold decodeSpecial
  split
  case h_53 =>
    refine iff_of_true (isReserved_reserved _ _) (.inl ?_)
    simp only [List.mem_cons, List.not_mem_nil, or_false, imp_false] at *
    omega
  all_goals rename_i hf; simp [hf, imp_iff_not_or, or_assoc]

/-- Settles O3: SPECIAL and REGIMM by their own maps, then the primary map entry by entry. -/
theorem reservedWords : Obligations.ReservedWords := by
  refine fun w => ⟨?_, execReserved_eq w⟩
  change IsReserved (decode w) ↔ _
  have hlt := (opOf w).isLt
  rw [← isReserved_decodeRegimm, ← isReserved_decodeSpecial]
  unfold decode
  split
  case h_58 =>
    refine iff_of_true (isReserved_reserved _ _) (.inl ?_)
    simp only [List.mem_cons, List.not_mem_nil, or_false, imp_false] at *
    omega
  all_goals rename_i hop; simp [hop]

end Machine
end Sys2Proof
end

section
/-! SUPPORT. The cycle (40_cycle.md R130 to R141). One equation for each branch of a step and of what follows a fetch,
and `RanWord`, all that a fetched word can do; the statements about terminal states, the fetch, exceptions and the
delay slot follow from these. -/

namespace Sys2Proof
namespace Machine

/-! ### The branches of a step (R131, R133, R140) -/

/-- A terminal state stays (R140). -/
theorem step_of_not_running {s : State} (h : s.run ≠ .running) : step s = .next s := by
  unfold step cycle
  cases hr : s.run with
  | running => exact absurd hr h
  | faulted e => rfl
  | halted => rfl

/-- The address error of a fetch is the step's exception, with the pc and no raw word (R131). -/
theorem step_of_fetch_error {s : State} {sub : AddrSub} (hrun : s.run = .running) (hf : fetchWord s = .error sub) :
    step s = .next { s with run := faultedIn s (.addressError sub .fetch) s.pc none } := by
  unfold step cycle
  rw [hrun, hf]; rfl

theorem step_of_fetch_ok {s u : State} {w : Word32} (hrun : s.run = .running) (hf : fetchWord s = .ok (w, u)) :
    step s = runWord w u := by
  unfold step cycle
  rw [hrun, hf]

/-! ### What follows a fetch (R133, R134, R335) -/

/-- The halt word halts, whatever it decodes to (R134). -/
theorem runWord_haltWord {s : State} {w : Word32} (h : s.params.haltWord = some w) :
    runWord w s = .next { s with run := .halted } :=
  if_pos h

theorem runWord_instr {s : State} {w : Word32} {i : Instr} (h : s.params.haltWord ≠ some w) (hd : decode w = .instr i) :
    runWord w s = exec i s := by
  unfold runWord
  rw [if_neg h, hd]

theorem runWord_reserved {s : State} {w x : Word32} {why : ReservedWhy} (h : s.params.haltWord ≠ some w)
    (hd : decode w = .reserved x why) :
    runWord w s = .next { s with run := faultedIn s .reservedInstruction (w.setWidth 64) (some w) } := by
  unfold runWord
  rw [if_neg h, hd]; rfl

/-- The states a fetched word `w` can lead to from the state `s` after its fetch: the halt word halts; a reserved word or
an instruction raises an exception, with `w` as the raw word; or the instruction completes. Unlike `Stepped` it says which
word, and whether it is the halt word. -/
inductive RanWord (w : Word32) (s : State) : State → Prop
  | halted (hw : s.params.haltWord = some w) : RanWord w s { s with run := .halted }
  | raised (hw : s.params.haltWord ≠ some w) (kind : ExcKind) (info : Word64) :
      RanWord w s { s with run := faultedIn s kind info (some w) }
  | completed (hw : s.params.haltWord ≠ some w) (i : Instr) (hd : decode w = .instr i) (u : State)
      (hu : Executed s u i) : RanWord w s (u.advance (requestOf s i))

/-- A fetched word always leads to a next state, and to one of these. -/
theorem runWord_answers (w : Word32) (s : State) : ∃ t, runWord w s = .next t ∧ RanWord w s t := by
  by_cases hw : s.params.haltWord = some w
  · exact ⟨_, runWord_haltWord hw, .halted hw⟩
  · cases hd : decode w with
    | reserved x why => exact ⟨_, runWord_reserved hw hd, .raised hw _ _⟩
    | instr i =>
      rw [runWord_instr hw hd]
      rcases exec_cases i s with ⟨kind, info, he, -⟩ | ⟨u, he, hu⟩
      · rw [encode_of_decode hd] at he
        exact ⟨_, he, .raised hw kind info⟩
      · exact ⟨_, he, .completed hw i hd u hu⟩

theorem runWord_next {w : Word32} {s t : State} (h : runWord w s = .next t) : RanWord w s t := by
  obtain ⟨t', h', ht'⟩ := runWord_answers w s
  rw [h'] at h
  cases h
  exact ht'

/-- The run state after a completed instruction. -/
theorem Executed.advance_run {s u : State} {i : Instr} (hu : Executed s u i) (br : Request) :
    (u.advance br).run = s.run :=
  (Machine.advance_run u br).trans hu.run

/-- The sequencer's part of a completed instruction (R133). -/
theorem Executed.sequenced {s u : State} {i : Instr} (hu : Executed s u i) (br : Request) :
    Sequenced br s (u.advance br) :=
  sequenced_advance br hu.pc hu.pend hu.run hu.params

/-! ### Every step answers a next state (O15) -/

/-- Settles O15. -/
theorem stepAnswersNext : Obligations.StepAnswersNext := by
  intro s
  by_cases hrun : s.run = .running
  · cases hf : fetchWord s with
    | error sub => exact ⟨_, step_of_fetch_error hrun hf⟩
    | ok q =>
      obtain ⟨t, ht, -⟩ := runWord_answers q.1 q.2
      exact ⟨t, (step_of_fetch_ok hrun hf).trans ht⟩
  · exact ⟨s, step_of_not_running hrun⟩

/-! ### Terminal states and the halt word (O8, O7) -/

/-- Settles O8. -/
theorem terminalStatesStay : Obligations.TerminalStatesStay := by
  refine fun s => ⟨fun e he => ⟨step_of_not_running (by simp [he]), ?_⟩,
    fun hh => ⟨step_of_not_running (by simp [hh]), ?_⟩⟩
  · unfold State.outcome; rw [he]
  · unfold State.outcome; rw [hh]

theorem fetchWord_params {s u : State} {w : Word32} (h : fetchWord s = .ok (w, u)) : u.params = s.params := by
  rw [fetchWord_frame h]; rfl

theorem fetchWord_run {s u : State} {w : Word32} (h : fetchWord s = .ok (w, u)) : u.run = s.run := by
  rw [fetchWord_frame h]; rfl

/-- A step that halts a running block fetched the halt word (R134). -/
theorem haltWord_of_step_halted {s t : State} (hrun : s.run = .running) (h : step s = .next t) (ht : t.run = .halted) :
    ∃ w, s.params.haltWord = some w := by
  cases hf : fetchWord s with
  | error sub =>
    rw [step_of_fetch_error hrun hf] at h
    cases h; cases ht
  | ok q =>
    obtain ⟨w, u⟩ := q
    rw [step_of_fetch_ok hrun hf] at h
    cases runWord_next h with
    | halted hw => exact ⟨w, fetchWord_params hf ▸ hw⟩
    | raised => cases ht
    | completed _ i _ v hv =>
      rw [hv.advance_run, fetchWord_run hf, hrun] at ht
      cases ht

/-- Settles O7. -/
theorem haltWordHalts : Obligations.HaltWordHalts := by
  refine ⟨fun s u w hrun hf hw => ⟨?_, fetchWord_frame hf⟩, fun s t hrun hnone h ht => ?_⟩
  · exact (step_of_fetch_ok hrun hf).trans (runWord_haltWord (fetchWord_params hf ▸ hw))
  · obtain ⟨w, hw⟩ := haltWord_of_step_halted hrun h ht
    rw [hnone] at hw
    cases hw

/-! ### The fetch and the instruction it brings (O9, O5) -/

/-- The fetch is the bus read of a word at `pc[31:0]`, its value cut to 32 bits (R131). -/
theorem fetchWord_eq_map (s : State) :
    fetchWord s = (memRead s (busAddr s.pc) .word).map fun q => (q.1.setWidth 32, q.2) := by
  unfold fetchWord
  cases memRead s (busAddr s.pc) .word <;> rfl

/-- The read of a word at an aligned address has no address error in an admissible range table (20_memory.md R65). -/
theorem memRead_word_of_inv {s : State} (h : Inv s) : ∃ v u, memRead s (busAddr s.pc) .word = .ok (v, u) := by
  have haligned : (busAddr s.pc).toNat % 4 = 0 := (busAddr_mod_four s.pc).trans h.pcAligned
  obtain ⟨v, u, hread, -⟩ := memRead_ok (classify_aligned (n := .word) h.paramsOk haligned)
  exact ⟨v, u, hread⟩

/-- Settles O9. -/
theorem fetchReadsTheBus : Obligations.FetchReadsTheBus := by
  refine fun s => ⟨fun sub h hrun => step_of_fetch_error hrun ?_, fun v u h => ?_, memRead_word_of_inv⟩
  all_goals
    rw [fetchWord_eq_map, busAddr, h]; rfl

/-- A step runs the instruction of the fetched word in the state after the fetch. -/
theorem step_of_decode {s u : State} {w : Word32} {i : Instr} (hrun : s.run = .running)
    (hf : fetchWord s = .ok (w, u)) (hw : s.params.haltWord ≠ some w) (hd : decode w = .instr i) :
    step s = exec i u :=
  (step_of_fetch_ok hrun hf).trans (runWord_instr (fetchWord_params hf ▸ hw) hd)

/-- Settles O5. -/
theorem stepRunsDecodedInstruction : Obligations.StepRunsDecodedInstruction :=
  fun _ _ _ _ hrun hf hw hd => ⟨step_of_decode hrun hf hw hd, fetchWord_frame hf⟩

/-! ### Exceptions (O13) -/

/-- A fetched word that raises an exception is its raw word, and only `run` changes (R135). -/
theorem faulted_of_ranWord {w : Word32} {s t : State} {e : Exc} (hrun : s.run = .running) (h : RanWord w s t)
    (ht : t.run = .faulted e) :
    e.pc = s.pc ∧ e.delay = s.pend.isSome ∧ e.raw = some w ∧ t = { s with run := .faulted e } := by
  cases h with
  | halted => cases ht
  | raised => cases ht; exact ⟨rfl, rfl, rfl, rfl⟩
  | completed _ i _ u hu => rw [hu.advance_run, hrun] at ht; cases ht

/-- Settles O13. -/
theorem exceptionChangesOnlyRun : Obligations.ExceptionChangesOnlyRun := by
  intro s t e hrun h ht
  cases hf : fetchWord s with
  | error sub =>
    rw [step_of_fetch_error hrun hf] at h
    cases h; cases ht
    exact ⟨rfl, rfl, .inl ⟨sub, rfl, rfl, rfl⟩⟩
  | ok q =>
    obtain ⟨w, u⟩ := q
    rw [step_of_fetch_ok hrun hf] at h
    have hframe := fetchWord_frame hf
    obtain ⟨hpc, hdelay, hraw, heq⟩ := faulted_of_ranWord ((fetchWord_run hf).trans hrun) (runWord_next h) ht
    rw [hframe] at hpc hdelay
    exact ⟨hpc, hdelay, .inr ⟨w, u, rfl, hraw, heq, hframe⟩⟩

/-! ### The sequencer and the delay slot (O12, O10, O11) -/

/-- An instruction that goes on running completed, and was sequenced by its request (R133). -/
theorem exec_next_running {i : Instr} {s t : State} (h : exec i s = .next t) (ht : t.run = .running) :
    ∃ u, Executed s u i ∧ t = u.advance (requestOf s i) := by
  rcases exec_next h with ⟨kind, info, rfl⟩ | hdone
  · cases ht
  · exact hdone

theorem exec_sequenced {i : Instr} {s t : State} (h : exec i s = .next t) (ht : t.run = .running) :
    Sequenced (requestOf s i) s t := by
  obtain ⟨u, hu, rfl⟩ := exec_next_running h ht
  exact hu.sequenced _

/-- Settles O12. -/
theorem completedInstructionIsSequenced : Obligations.CompletedInstructionIsSequenced := by
  refine fun s t i hrun h => ⟨exec_sequenced h, fun ht => ?_⟩
  rcases exec_next h with ⟨kind, info, rfl⟩ | ⟨u, hu, rfl⟩
  · rfl
  · exact absurd ((hu.advance_run _).trans hrun) ht

/-- Outside a delay slot a taken branch becomes pending (R133). -/
theorem Sequenced.branch_pends {s t : State} {target : Word64} (h : Sequenced (.branch target) s t)
    (hpend : s.pend = none) : t.pc = s.pc + 4 ∧ t.pend = some target := by
  obtain ⟨-, -, h⟩ := h
  rw [hpend] at h
  exact h

/-- In a delay slot a taken branch goes to its own target at once (R133, R138). -/
theorem Sequenced.branch_in_slot {s t : State} {pending target : Word64} (h : Sequenced (.branch target) s t)
    (hpend : s.pend = some pending) : t.pc = target ∧ t.pend = none := by
  obtain ⟨-, -, h⟩ := h
  rw [hpend] at h
  exact h

/-- In a delay slot every other request lets the pending target take effect, and annuls nothing (R133, R139). -/
theorem Sequenced.slot_to_pending {s t : State} {br : Request} {pending : Word64} (h : Sequenced br s t)
    (hpend : s.pend = some pending) (hbr : ∀ other, br ≠ .branch other) : t.pc = pending ∧ t.pend = none := by
  obtain ⟨-, -, h⟩ := h
  rw [hpend] at h
  cases br with
  | branch target => exact absurd rfl (hbr target)
  | none => exact h
  | skip => exact h

/-- A step that goes on running after its instruction is sequenced by the request in the state before the fetch: a
fetch changes the device record only, which no request reads. -/
theorem step_sequenced {s u t : State} {w : Word32} {i : Instr} (hrun : s.run = .running)
    (hf : fetchWord s = .ok (w, u)) (hw : s.params.haltWord ≠ some w) (hd : decode w = .instr i)
    (h : step s = .next t) (ht : t.run = .running) : Sequenced (requestOf s i) s t := by
  have hseq := exec_sequenced ((step_of_decode hrun hf hw hd).symm.trans h) ht
  rw [fetchWord_frame hf] at hseq
  exact hseq

/-- Settles O10. -/
theorem delaySlotLaw : Obligations.DelaySlotLaw := by
  intro s u t v r w x i j target hrun hpend hf hw hd hreq h ht
  have hbranch : Sequenced (.branch target) s t := hreq ▸ step_sequenced hrun hf hw hd h ht
  obtain ⟨hpc, hslot⟩ := hbranch.branch_pends hpend
  refine ⟨hpc, hslot, fun hf' hw' hd' hother h' hr => ?_⟩
  obtain ⟨hpc', hpend'⟩ := (step_sequenced ht hf' hw' hd' h' hr).slot_to_pending hslot hother
  refine ⟨hpc', hpend', ?_⟩
  rw [fetchWord_eq_map, hpc', busAddr]

/-- Settles O11. -/
theorem branchInDelaySlot : Obligations.BranchInDelaySlot := by
  intro s t i t1 _ hpend h ht
  have hseq := exec_sequenced h ht
  refine ⟨fun t2 hreq => ?_, fun hreq => hseq.slot_to_pending hpend (by simp [hreq])⟩
  obtain ⟨hpc, hnone⟩ := (hreq ▸ hseq).branch_in_slot hpend
  refine ⟨hpc, hnone, fun rd hrd => ?_⟩
  obtain ⟨u, hu, rfl⟩ := exec_next_running h ht
  rw [advance_reg]
  exact hu.link t2 rd hreq hrd

end Machine
end Sys2Proof
end

section
/-! SUPPORT. The integer ALU instructions (41_alu.md). Each of them is one shared operation, `completeReg` or
`writeOrOverflow`, so its rule follows from what that operation does; what is left is that the model's operands and
comparisons have the values the rules give. -/

namespace Sys2Proof
namespace Machine

/-! ### Operands and comparisons in the terms of the rules -/

theorem low32_simm (imm : BitVec 16) : low32 (simm imm) = imm.signExtend 32 := by
  unfold low32 simm
  apply BitVec.eq_of_getLsbD_eq
  intro i hi
  have hi64 : i < 64 := by omega
  rw [BitVec.getLsbD_setWidth, BitVec.getLsbD_signExtend, BitVec.getLsbD_signExtend]
  simp [hi, hi64]

/-- Sign extension keeps the integer (30_encoding.md R106). -/
theorem toInt_simm (imm : BitVec 16) : (simm imm).toInt = imm.toInt :=
  BitVec.toInt_signExtend_of_le (by decide)

theorem shamt5_eq (x : Word64) : shamt5 x = x.toNat % 32 := BitVec.toNat_setWidth 5 x

theorem shamt6_eq (x : Word64) : shamt6 x = x.toNat % 64 := BitVec.toNat_setWidth 6 x

/-- The amount of a variable word shift is in the low half of its register. -/
theorem shamt5_eq_low32 (x : Word64) : shamt5 x = ((low32 x).setWidth 5).toNat :=
  congrArg BitVec.toNat (BitVec.setWidth_setWidth_of_le x (by decide)).symm

theorem oneIf_decide (p : Prop) [Decidable p] : oneIf (decide p) = if p then 1 else 0 := by
  by_cases h : p <;> simp [oneIf, h]

theorem oneIf_ltSigned (a b : Word64) : oneIf (ltSigned a b) = if a.toInt < b.toInt then 1 else 0 :=
  oneIf_decide _

theorem oneIf_ltUnsigned (a b : Word64) : oneIf (ltUnsigned a b) = if a.toNat < b.toNat then 1 else 0 :=
  oneIf_decide _

/-! ### The two shapes of an ALU rule (R150, R190) -/

theorem computes_completeReg {i : Instr} {s : State} {rd : Reg} {v : Word64} (he : exec i s = completeReg rd v s) :
    Computes i (encode i) s rd v :=
  ⟨isEncoding_encode i, he ▸ completeReg_spec rd v s⟩

/-- The same, where the rule writes the model's value in other terms. -/
theorem computes_of_eq {i : Instr} {s : State} {rd : Reg} {v w : Word64} (he : exec i s = completeReg rd v s)
    (hv : v = w) : Computes i (encode i) s rd w :=
  hv ▸ computes_completeReg he

/-- A trapping form keeps its rule where `r` is the exact result, none where it does not fit. -/
theorem computesInRange_writeOrOverflow {n : Nat} {i : Instr} {s : State} {rd : Reg} {x : Int} {v : Word64}
    {r : Option Word64} (he : exec i s = writeOrOverflow i rd r s)
    (hfits : -2 ^ (n - 1) ≤ x ∧ x ≤ 2 ^ (n - 1) - 1 → r = some v)
    (hover : x < -2 ^ (n - 1) ∨ 2 ^ (n - 1) - 1 < x → r = none) : ComputesInRange n i (encode i) s rd x v := by
  refine ⟨isEncoding_encode i, fun h => ?_, fun h => ?_⟩
  · rw [he, hfits h]
    exact writeOrOverflow_some i rd v s
  · unfold Raises
    rw [he, hover h]
    exact writeOrOverflow_none i rd s

theorem computesInRange_exact32 {i : Instr} {s : State} {rd : Reg} {x : Int}
    (he : exec i s = writeOrOverflow i rd ((exact32 x).map wordResult) s) :
    ComputesInRange 32 i (encode i) s rd x (wordResult (BitVec.ofInt 32 x)) :=
  computesInRange_writeOrOverflow he (fun h => by rw [exact32_some h]; rfl) (fun h => by rw [exact32_none h]; rfl)

theorem computesInRange_exact64 {i : Instr} {s : State} {rd : Reg} {x : Int}
    (he : exec i s = writeOrOverflow i rd (exact64 x) s) :
    ComputesInRange 64 i (encode i) s rd x (BitVec.ofInt 64 x) :=
  computesInRange_writeOrOverflow he exact64_some exact64_none

/-! ### Adds and subtracts (O34, O35) -/

/-- Settles O34. -/
theorem wrappingAddSubtract : Obligations.WrappingAddSubtract := by
  intro s rd rs rt imm
  refine ⟨computes_completeReg rfl, computes_completeReg rfl, computes_completeReg rfl, computes_completeReg rfl,
    computes_of_eq (i := .addiu rt rs imm) rfl ?_, computes_completeReg rfl⟩
  rw [low32_simm]; rfl

/-- Settles O35: the immediate forms add the integer of their immediate, which its sign extension keeps. -/
theorem trappingAddSubtract : Obligations.TrappingAddSubtract := by
  intro s rd rs rt imm
  rw [← toInt_simm imm]
  exact ⟨computesInRange_exact32 rfl, computesInRange_exact32 rfl, computesInRange_exact64 rfl,
    computesInRange_exact64 rfl, computesInRange_exact32 rfl, computesInRange_exact64 rfl⟩

/-! ### Comparisons and logic (O36, O37) -/

/-- Settles O36. -/
theorem setOnLessThan : Obligations.SetOnLessThan := by
  intro s rd rs rt imm
  rw [← toInt_simm imm]
  exact ⟨computes_of_eq (i := .slt rd rs rt) rfl (oneIf_ltSigned _ _),
    computes_of_eq (i := .sltu rd rs rt) rfl (oneIf_ltUnsigned _ _),
    computes_of_eq (i := .slti rt rs imm) rfl (oneIf_ltSigned _ _),
    computes_of_eq (i := .sltiu rt rs imm) rfl (oneIf_ltUnsigned _ _)⟩

/-- Settles O37: each value of the model is the rule's as it stands. -/
theorem logicalAndLui : Obligations.LogicalAndLui := fun _ _ _ _ _ =>
  ⟨computes_completeReg rfl, computes_completeReg rfl, computes_completeReg rfl, computes_completeReg rfl,
    computes_completeReg rfl, computes_completeReg rfl, computes_completeReg rfl, computes_completeReg rfl⟩

/-! ### Shifts (O38, O39) -/

/-- Settles O38. -/
theorem wordShifts : Obligations.WordShifts := by
  intro s rd rs rt sa
  rw [← shamt5_eq]
  exact ⟨computes_completeReg rfl, computes_completeReg rfl, computes_completeReg rfl, computes_completeReg rfl,
    computes_completeReg rfl, computes_completeReg rfl⟩

/-- Settles O39. -/
theorem doublewordShifts : Obligations.DoublewordShifts := by
  intro s rd rs rt sa
  rw [← shamt6_eq]
  exact ⟨computes_completeReg rfl, computes_completeReg rfl, computes_completeReg rfl, computes_completeReg rfl,
    computes_completeReg rfl, computes_completeReg rfl, computes_completeReg rfl, computes_completeReg rfl,
    computes_completeReg rfl⟩

/-! ### Word operations (O40) -/

/-- The instruction writes into `rd` a function of the low halves of two registers, or traps where it has no value: all
that a word operation may read of its sources (R191). A form that never traps has a value everywhere. -/
def IsWordOperation (i : Instr) (rd : Reg) : Prop :=
  ∃ (a b : Reg) (f : Word32 → Word32 → Option Word64),
    ∀ s, exec i s = writeOrOverflow i rd (f (low32 (s.reg a)) (low32 (s.reg b))) s

/-- The outcomes of two runs agree: both complete with one value in `rd`, or both raise one exception. -/
def SameOutcome (i : Instr) (rd : Reg) (s s' : State) : Prop :=
  ∃ t t', exec i s = .next t ∧ exec i s' = .next t' ∧ t'.run = t.run ∧ (t.run = .running → t'.reg rd = t.reg rd)

/-- The outcome of `writeOrOverflow` depends on its result, the run state, the pc and the pending slot. -/
theorem sameOutcome_writeOrOverflow {i : Instr} {rd : Reg} {s s' : State} (r : Option Word64)
    (he : exec i s = writeOrOverflow i rd r s) (he' : exec i s' = writeOrOverflow i rd r s') (hrun : s'.run = s.run)
    (hpc : s'.pc = s.pc) (hpend : s'.pend = s.pend) : SameOutcome i rd s s' := by
  cases r with
  | some v =>
    obtain ⟨t, ht, ⟨hreg, -⟩, -, -, -, htrun, -⟩ := writeOrOverflow_some i rd v s
    obtain ⟨t', ht', ⟨hreg', -⟩, -, -, -, htrun', -⟩ := writeOrOverflow_some i rd v s'
    refine ⟨t, t', he.trans ht, he'.trans ht', ?_, fun _ => hreg'.trans hreg.symm⟩
    rw [htrun', htrun, hrun]
  | none =>
    refine ⟨_, _, he.trans (writeOrOverflow_none i rd s), he'.trans (writeOrOverflow_none i rd s'), ?_, nofun⟩
    simp only [faultedIn, hpc, hpend]

/-- A word operation has one outcome in two states that differ above bit 31 of the general registers alone. -/
theorem IsWordOperation.sameOutcome {i : Instr} {rd : Reg} {s s' : State} (hi : IsWordOperation i rd)
    (hs : s' = { s with gpr := s'.gpr }) (hlow : ∀ r, low32 (s'.reg r) = low32 (s.reg r)) : SameOutcome i rd s s' := by
  obtain ⟨a, b, f, he⟩ := hi
  have he' := he s'
  rw [hlow a, hlow b] at he'
  exact sameOutcome_writeOrOverflow _ (he s) he' (by rw [hs]) (by rw [hs]) (by rw [hs])

theorem isWordOperation_variableShift {i : Instr} {rd rt rs : Reg} (shift : Word32 → Nat → Word32)
    (he : ∀ s, exec i s = completeReg rd (wordResult (shift (low32 (s.reg rt)) (shamt5 (s.reg rs)))) s) :
    IsWordOperation i rd :=
  ⟨rt, rs, fun x y => some (wordResult (shift x (y.setWidth 5).toNat)), fun s => by
    rw [he, shamt5_eq_low32]; rfl⟩

/-- Settles O40: each of the twelve is a word operation. -/
theorem wordOperationsReadLowHalves : Obligations.WordOperationsReadLowHalves := by
  intro s s' rd rs rt imm sa _ hs hlow i hi
  suffices h : IsWordOperation i rd from h.sameOutcome hs hlow
  simp only [List.mem_cons, List.not_mem_nil, or_false] at hi
  rcases hi with rfl | rfl | rfl | rfl | rfl | rfl | rfl | rfl | rfl | rfl | rfl | rfl
  -- ADD, ADDU, SUB, SUBU
  · exact ⟨rs, rt, fun x y => (exact32 (x.toInt + y.toInt)).map wordResult, fun _ => rfl⟩
  · exact ⟨rs, rt, fun x y => some (wordResult (x + y)), fun _ => rfl⟩
  · exact ⟨rs, rt, fun x y => (exact32 (x.toInt - y.toInt)).map wordResult, fun _ => rfl⟩
  · exact ⟨rs, rt, fun x y => some (wordResult (x - y)), fun _ => rfl⟩
  -- ADDI, ADDIU
  · exact ⟨rs, rs, fun x _ => (exact32 (x.toInt + (simm imm).toInt)).map wordResult, fun _ => rfl⟩
  · exact ⟨rs, rs, fun x _ => some (wordResult (x + low32 (simm imm))), fun _ => rfl⟩
  -- SLL, SRL, SRA
  · exact ⟨rt, rt, fun x _ => some (wordResult (x <<< sa.toNat)), fun _ => rfl⟩
  · exact ⟨rt, rt, fun x _ => some (wordResult (x >>> sa.toNat)), fun _ => rfl⟩
  · exact ⟨rt, rt, fun x _ => some (wordResult (x.sshiftRight sa.toNat)), fun _ => rfl⟩
  -- SLLV, SRLV, SRAV
  · exact isWordOperation_variableShift (· <<< ·) fun _ => rfl
  · exact isWordOperation_variableShift (· >>> ·) fun _ => rfl
  · exact isWordOperation_variableShift BitVec.sshiftRight fun _ => rfl

/-! ### Example words (O4) -/

theorem decode_of_eq_encode {w : Word32} {i : Instr} (h : w = encode i) : decode w = .instr i :=
  (isEncoding_encode i w).2 h

/-- Settles O4: the word of an instruction is its encoding; the others are a primary opcode outside the map, a
coprocessor opcode, and a word of the SPECIAL map with a must-be-zero field set. -/
theorem sampleWordsDecode : Obligations.SampleWordsDecode :=
  ⟨decode_of_eq_encode (by decide), decode_of_eq_encode (by decide), decode_of_eq_encode (by decide),
    decode_of_eq_encode (by decide), decode_of_eq_encode (by decide), decode_of_eq_encode (by decide),
    decode_of_eq_encode (by decide), decode_of_eq_encode (by decide), decode_of_eq_encode (by decide),
    decode_of_eq_encode (by decide), ⟨.primary, by decide⟩, ⟨.coprocessor, by decide⟩, ⟨.mustBeZero, by decide⟩⟩

end Machine
end Sys2Proof
end

section
/-! SUPPORT. Multiply, divide and the HI/LO moves (42_muldiv.md). None raises an exception (R210): each completes with a
pair in HI and LO, or with a register. What a signed division leaves is the quotient and remainder of the library's
`BitVec.sdiv` and `BitVec.srem`, of which the division law (R215) holds at every width. -/

namespace Sys2Proof
namespace Machine

/-! ### The shape of a rule that writes HI and LO (R210) -/

theorem computesHiLo_completeHiLo {i : Instr} {s : State} {hi lo : Word64} (he : exec i s = completeHiLo hi lo s) :
    ComputesHiLo i (encode i) s hi lo :=
  ⟨isEncoding_encode i, he ▸ completeHiLo_spec hi lo s⟩

theorem writesHiLo_of_completeHiLo {s t : State} {hi lo : Word64} (h : completeHiLo hi lo s = .next t) :
    WritesHiLo s t hi lo := by
  obtain ⟨u, hu, hw⟩ := completeHiLo_spec hi lo s
  cases hu.symm.trans h
  exact hw

/-! ### The HI/LO moves (O44) -/

/-- Settles O44. -/
theorem hiLoMoves : Obligations.HiLoMoves := fun _ _ _ =>
  ⟨computes_completeReg rfl, computes_completeReg rfl, computesHiLo_completeHiLo rfl, computesHiLo_completeHiLo rfl⟩

/-! ### Products (O41) -/

/-- A word product leaves its halves, each sign-extended (R211, R212). -/
theorem computesHiLo_completeWordPair {i : Instr} {s : State} {p : Word64} (he : exec i s = completeWordPair p s) :
    ComputesHiLo i (encode i) s ((p.extractLsb' 32 32).signExtend 64) ((p.setWidth 32).signExtend 64) := by
  rw [BitVec.setWidth_eq_extractLsb' (by decide)]
  exact computesHiLo_completeHiLo he

/-- A doubleword product leaves its halves (R213, R214). -/
theorem computesHiLo_completeDwordPair {i : Instr} {s : State} {p : Word128} (he : exec i s = completeDwordPair p s) :
    ComputesHiLo i (encode i) s (p.extractLsb' 64 64) (p.setWidth 64) := by
  rw [BitVec.setWidth_eq_extractLsb' (by decide)]
  exact computesHiLo_completeHiLo he

/-- Settles O41. -/
theorem multiply : Obligations.Multiply := fun _ _ _ =>
  ⟨computesHiLo_completeWordPair rfl, computesHiLo_completeWordPair rfl, computesHiLo_completeDwordPair rfl,
    computesHiLo_completeDwordPair rfl⟩

/-! ### The cases of a divide (O42) -/

theorem toInt_eq_zero_iff {n : Nat} (x : BitVec n) : x.toInt = 0 ↔ x = 0 := by
  simp [← BitVec.toInt_inj]

theorem toNat_eq_zero_iff {n : Nat} (x : BitVec n) : x.toNat = 0 ↔ x = 0 := by
  simp [← BitVec.toNat_inj]

/-- A divide answers by its divisor: zero, where its outcome is that of `z`, or not, where HI and LO are written. The
model tests the divisor `b` as a number, the rule as a word. -/
theorem divide_cases {i : Instr} {s : State} {zero : Prop} [Decidable zero] {n : Nat} {b : BitVec n} {z : Result}
    {hi lo : Word64} {P : State → Prop} (he : exec i s = if zero then z else completeHiLo hi lo s)
    (hzero : zero ↔ b = 0) (hz : ∃ t, z = .next t ∧ P t) :
    IsEncoding i (encode i) ∧ ∃ t, exec i s = .next t ∧ if b = 0 then P t else WritesHiLo s t hi lo := by
  refine ⟨isEncoding_encode i, ?_⟩
  rw [he]
  by_cases hb : b = 0
  · simpa only [if_pos hb, if_pos (hzero.2 hb)] using hz
  · simpa only [if_neg hb, if_neg (mt hzero.1 hb)] using completeHiLo_spec hi lo s

/-- The quotient the table of R216 gives DIV is by the sign of the word divided. -/
theorem div0Standard_div_word (v : Word32) :
    (div0Standard .div (wordResult v)).1 = if v.toInt < 0 then 1 else BitVec.allOnes 64 := by
  rw [div0Standard, low32_wordResult]

/-- Settles O42. -/
theorem divide : Obligations.Divide := by
  intro s rs rt
  have hdiv := completeWordDivByZero_spec .div (.inl rfl) (low32 (s.reg rs)) s
  rw [div0Standard_div_word] at hdiv
  exact ⟨divide_cases (i := .div rs rt) rfl (toInt_eq_zero_iff _) hdiv,
    divide_cases (i := .divu rs rt) rfl (toNat_eq_zero_iff _) (completeWordDivByZero_spec .divu (.inr rfl) _ s),
    divide_cases (i := .ddiv rs rt) rfl (toInt_eq_zero_iff _) (completeDivByZero_spec .ddiv _ s),
    divide_cases (i := .ddivu rs rt) rfl (toNat_eq_zero_iff _) (completeDivByZero_spec .ddivu _ s)⟩

/-! ### The division law (O43) -/

/-- `quot` and `rem` of two words, written back in their width, are the signed division of words. -/
theorem ofInt_quot {n : Nat} (x y : BitVec n) : BitVec.ofInt n (quot x.toInt y.toInt) = x.sdiv y :=
  BitVec.eq_of_toInt_eq (by rw [BitVec.toInt_ofInt, BitVec.toInt_sdiv]; rfl)

theorem ofInt_rem {n : Nat} (x y : BitVec n) : BitVec.ofInt n (rem x.toInt y.toInt) = x.srem y := by
  rw [rem, quot, ← Int.tmod_def, ← BitVec.toInt_srem, BitVec.ofInt_toInt]

theorem toInt_wordResult (v : Word32) : (wordResult v).toInt = v.toInt :=
  BitVec.toInt_signExtend_of_le (by decide)

theorem setWidth_wordResult (v : Word32) : (wordResult v).setWidth 32 = v := low32_wordResult v

/-- R215 for `n`-bit signed operands `a` and `b`, quotient `q` and remainder `r`, with its one overflow. -/
def SignedDivisionLaw (n : Nat) (a b q r : Int) : Prop :=
  (¬ (a = -2 ^ (n - 1) ∧ b = -1) → a = b * q + r ∧ r.natAbs < b.natAbs ∧ (r ≠ 0 → (0 < r ↔ 0 < a))) ∧
    (a = -2 ^ (n - 1) ∧ b = -1 → q = -2 ^ (n - 1) ∧ r = 0)

/-- R215 for unsigned operands, where no quotient overflows. -/
def UnsignedDivisionLaw (a b q r : Nat) : Prop := a = b * q + r ∧ r < b

theorem natAbs_tmod_lt {a b : Int} (hb : b ≠ 0) : (a.tmod b).natAbs < b.natAbs := by
  rw [Int.natAbs_tmod]
  exact Nat.mod_lt _ (Int.natAbs_pos.2 hb)

theorem tmod_pos_iff {a b : Int} (h : a.tmod b ≠ 0) : 0 < a.tmod b ↔ 0 < a := by
  have hsign : (a.tmod b).sign = a.sign := by
    rw [Int.sign_tmod, if_neg (mt Int.tmod_eq_zero_of_dvd h)]
  rw [← Int.sign_eq_one_iff_pos, hsign, Int.sign_eq_one_iff_pos]

theorem eq_intMin_iff {n : Nat} (hn : 0 < n) (x : BitVec n) : x = BitVec.intMin n ↔ x.toInt = -2 ^ (n - 1) := by
  rw [← BitVec.toInt_inj, BitVec.toInt_intMin_of_pos hn]

theorem eq_neg_one_iff {n : Nat} (hn : 0 < n) (x : BitVec n) : x = -1#n ↔ x.toInt = -1 := by
  rw [← BitVec.toInt_inj, BitVec.neg_one_eq_allOnes, BitVec.toInt_allOnes, if_pos hn]

/-- The division law of signed words: outside the overflow the quotient is exact, in it the quotient wraps to the
dividend itself. -/
theorem signedDivisionLaw {n : Nat} (hn : 0 < n) {x y : BitVec n} (hy : y.toInt ≠ 0) :
    SignedDivisionLaw n x.toInt y.toInt (x.sdiv y).toInt (x.srem y).toInt := by
  unfold SignedDivisionLaw
  rw [← eq_intMin_iff hn, ← eq_neg_one_iff hn, BitVec.toInt_srem]
  constructor
  · intro hfits
    rw [BitVec.toInt_sdiv_of_ne_or_ne x y (not_and_or.1 hfits), Int.mul_tdiv_add_tmod]
    exact ⟨rfl, natAbs_tmod_lt hy, tmod_pos_iff⟩
  · rintro ⟨hx, hone⟩
    rw [(eq_neg_one_iff hn y).1 hone, hx, hone, BitVec.intMin_sdiv_neg_one, BitVec.toInt_intMin_of_pos hn]
    exact ⟨rfl, by rw [Int.tmod_neg, Int.tmod_one]⟩

theorem unsignedDivisionLaw {n : Nat} {x y : BitVec n} (hy : y.toNat ≠ 0) :
    UnsignedDivisionLaw x.toNat y.toNat (x / y).toNat (x % y).toNat := by
  rw [BitVec.toNat_udiv, BitVec.toNat_umod]
  exact ⟨(Nat.div_add_mod _ _).symm, Nat.mod_lt _ (Nat.pos_of_ne_zero hy)⟩

/-- What a divide with a nonzero divisor leaves: the run state, LO and HI. -/
theorem divided_of_ne_zero {s t : State} {zero : Prop} [Decidable zero] {z : Result} {hi lo : Word64} (hb : ¬ zero)
    (h : (if zero then z else completeHiLo hi lo s) = .next t) : t.run = s.run ∧ t.hi = hi ∧ t.lo = lo := by
  rw [if_neg hb] at h
  obtain ⟨hhi, hlo, -, -, -, -, hrun, -⟩ := writesHiLo_of_completeHiLo h
  exact ⟨hrun, hhi, hlo⟩

/-- Settles O43. -/
theorem divisionLaw : Obligations.DivisionLaw := by
  intro s t rs rt
  refine ⟨?div, ?ddiv, ?divu, ?ddivu⟩
  all_goals
    rintro _ _ rfl rfl hb h
    obtain ⟨hrun, hhi, hlo⟩ := divided_of_ne_zero hb h
    refine ⟨hrun, ?_⟩
    rw [hhi, hlo]
  case div =>
    rw [toInt_wordResult, toInt_wordResult, ofInt_quot, ofInt_rem]
    exact signedDivisionLaw (by decide) hb
  case ddiv =>
    rw [ofInt_quot, ofInt_rem]
    exact signedDivisionLaw (by decide) hb
  case divu =>
    rw [setWidth_wordResult, setWidth_wordResult, ← BitVec.udiv_def, ← BitVec.umod_def]
    exact unsignedDivisionLaw hb
  case ddivu =>
    rw [← BitVec.udiv_def, ← BitVec.umod_def]
    exact unsignedDivisionLaw hb

end Machine
end Sys2Proof
end

section
/-! SUPPORT. The load/store instructions one by one (43_loadstore.md). Each of them is one shared operation, `loadReg`,
`loadLinked`, `storeReg`, `storeConditional` or `storeBytes`, so its rule follows from what that operation does; what is
left is that the addresses, parts and byte lists of the model are those of the rules. -/

namespace Sys2Proof
namespace Machine

/-! ### The shapes of a load or store rule (R231, R232, R248) -/

theorem loads_loadReg {i : Instr} {n : Width} {a : BusAddr} {ea : Word64} {f : Word64 → Word64} {rt : Reg} {s : State}
    (he : exec i s = loadReg i n a ea f rt s) : Loads i (encode i) s ea a n rt f s.llbit :=
  ⟨isEncoding_encode i, fun _ h => he ▸ loadReg_ok i ea f rt h, fun _ h => he.trans (loadReg_error i ea f rt h)⟩

theorem loads_loadLinked {i : Instr} {n : Width} {ea : Word64} {f : Word64 → Word64} {rt : Reg} {s : State}
    (he : exec i s = loadLinked i n ea f rt s) : Loads i (encode i) s ea (busAddr ea) n rt f true :=
  ⟨isEncoding_encode i, fun _ h => he ▸ loadLinked_ok i ea f rt h, fun _ h => he.trans (loadLinked_error i ea f rt h)⟩

theorem stores_storeReg {i : Instr} {n : Width} {ea v : Word64} {s : State} (he : exec i s = storeReg i n ea v s) :
    Stores i (encode i) s ea n v :=
  ⟨isEncoding_encode i, fun _ h => he ▸ storeReg_ok i v h, fun _ h => he.trans (storeReg_error i v h)⟩

theorem storesConditionally_storeConditional {i : Instr} {n : Width} {ea : Word64} {rt : Reg} {s : State}
    (he : exec i s = storeConditional i n ea rt s) : StoresConditionally i (encode i) s ea n rt :=
  ⟨isEncoding_encode i, fun _ h => he.trans (storeConditional_error i rt h),
    fun _ h hl => he ▸ storeConditional_set i rt h hl, fun _ h hl => he ▸ storeConditional_clear i rt h hl⟩

theorem storesEach_storeBytes {i : Instr} {l : List (BusAddr × Byte)} {s : State}
    (he : exec i s = complete .none (storeBytes s l)) (hl : l.Pairwise fun c d => c.1 ≠ d.1) :
    StoresEach i (encode i) s l :=
  ⟨isEncoding_encode i, he ▸ storeEach_spec s l hl⟩

/-! ### Aligned loads and stores (O45, O48, O51) -/

/-- Settles O45: nine loads of two shapes; a byte access is always routed. -/
theorem alignedLoads : Obligations.AlignedLoads := fun _ rt base offset =>
  ⟨loads_loadReg (i := .lb rt offset base) rfl, loads_loadReg (i := .lbu rt offset base) rfl,
    loads_loadReg (i := .lh rt offset base) rfl, loads_loadReg (i := .lhu rt offset base) rfl,
    loads_loadReg (i := .lw rt offset base) rfl, loads_loadReg (i := .lwu rt offset base) rfl,
    loads_loadReg (i := .ld rt offset base) rfl, loads_loadLinked (i := .ll rt offset base) rfl,
    loads_loadLinked (i := .lld rt offset base) rfl, _, classify_byte _ _⟩

/-- Settles O48: four stores of one shape; a byte access is always routed. -/
theorem alignedStores : Obligations.AlignedStores := fun _ rt base offset =>
  ⟨stores_storeReg (i := .sb rt offset base) rfl, stores_storeReg (i := .sh rt offset base) rfl,
    stores_storeReg (i := .sw rt offset base) rfl, stores_storeReg (i := .sd rt offset base) rfl,
    _, classify_byte _ _⟩

/-- Settles O51. (The plain name is that of the model's own operation.) -/
theorem storeConditional_rule : Obligations.StoreConditional := fun _ rt base offset =>
  ⟨storesConditionally_storeConditional (i := .sc rt offset base) rfl,
    storesConditionally_storeConditional (i := .scd rt offset base) rfl⟩

/-! ### Unaligned-part loads (O46) -/

/-- Settles O46: the unit read is the one the model aligns EA down to, and an aligned read is never in error. -/
theorem unalignedPartLoads : Obligations.UnalignedPartLoads := by
  intro s rt base offset
  rw [← partOf_busAddr4, ← partOf_busAddr8]
  have hunit := alignDown_aligned (busAddr (effectiveAddress s base offset))
  exact ⟨loads_loadReg (i := .lwl rt offset base) rfl, loads_loadReg (i := .lwr rt offset base) rfl,
    loads_loadReg (i := .ldl rt offset base) rfl, loads_loadReg (i := .ldr rt offset base) rfl,
    fun hp => ⟨⟨_, classify_aligned hp (hunit .word)⟩, _, classify_aligned hp (hunit .dword)⟩⟩

/-! ### Unaligned-part stores (O49) -/

theorem partOf_lt (a : BusAddr) {N : Nat} (hN : 0 < N) : partOf a N < N := Nat.mod_lt _ hN

section PartBytes
variable (N : Nat) (a : BusAddr) (x : Word64)

/-- The upper bytes of the low `8N` bits of `x`, at `a` and on to the end of its aligned unit of `N` bytes (R249,
R251). -/
def leftBytes : List (BusAddr × Byte) :=
  (List.range (N - partOf a N)).map fun i => (byteAddr a i, x.extractLsb' (8 * (N - 1) - 8 * i) 8)

/-- The lower bytes of `x`, from the start of the aligned unit of `N` bytes that holds `a` on to `a` (R250, R252). -/
def rightBytes : List (BusAddr × Byte) :=
  (List.range (partOf a N + 1)).map fun j => (byteAddr (alignDown a N) j, x.extractLsb' (8 * (partOf a N - j)) 8)

theorem extractLsb'_low32 {k : Nat} (hk : k + 8 ≤ 32) : (low32 x).extractLsb' k 8 = x.extractLsb' k 8 := by
  apply BitVec.eq_of_getLsbD_eq
  intro i hi
  have hlow : k + i < 32 := by omega
  simp only [low32, BitVec.getLsbD_extractLsb', BitVec.getLsbD_setWidth, hlow, decide_true, Bool.true_and]

theorem wordLeftBytes_low32 : wordLeftBytes a (low32 x) = leftBytes 4 a x :=
  List.map_congr_left fun i _ => by rw [extractLsb'_low32 x (by omega)]

theorem wordRightBytes_low32 : wordRightBytes a (low32 x) = rightBytes 4 a x :=
  List.map_congr_left fun j _ => by
    have := partOf_lt a (N := 4) (by decide)
    rw [extractLsb'_low32 x (by omega)]

theorem pairwise_leftBytes (hN : N ≤ 8) : (leftBytes N a x).Pairwise fun c d => c.1 ≠ d.1 :=
  pairwise_byteAddr a _ ((Nat.sub_le _ _).trans hN) _

theorem pairwise_rightBytes (hpos : 0 < N) (hN : N ≤ 8) : (rightBytes N a x).Pairwise fun c d => c.1 ≠ d.1 :=
  pairwise_byteAddr _ _ (Nat.le_trans (partOf_lt a hpos) hN) _

end PartBytes

section PartStores
variable (s : State) (rt base : Reg) (offset : BitVec 16)

theorem storesEach_swl : StoresEach (.swl rt offset base) (encode (.swl rt offset base)) s
    (leftBytes 4 (busAddr (s.effAddr base offset)) (s.reg rt)) :=
  storesEach_storeBytes (wordLeftBytes_low32 _ _ ▸ rfl) (pairwise_leftBytes _ _ _ (by decide))

theorem storesEach_swr : StoresEach (.swr rt offset base) (encode (.swr rt offset base)) s
    (rightBytes 4 (busAddr (s.effAddr base offset)) (s.reg rt)) :=
  storesEach_storeBytes (wordRightBytes_low32 _ _ ▸ rfl) (pairwise_rightBytes _ _ _ (by decide) (by decide))

theorem storesEach_sdl : StoresEach (.sdl rt offset base) (encode (.sdl rt offset base)) s
    (leftBytes 8 (busAddr (s.effAddr base offset)) (s.reg rt)) :=
  storesEach_storeBytes rfl (pairwise_leftBytes _ _ _ (by decide))

theorem storesEach_sdr : StoresEach (.sdr rt offset base) (encode (.sdr rt offset base)) s
    (rightBytes 8 (busAddr (s.effAddr base offset)) (s.reg rt)) :=
  storesEach_storeBytes rfl (pairwise_rightBytes _ _ _ (by decide) (by decide))

end PartStores

/-- Settles O49. -/
theorem unalignedPartStores : Obligations.UnalignedPartStores := by
  intro s rt base offset
  rw [← partOf_busAddr4, ← partOf_busAddr8]
  exact ⟨storesEach_swl s rt base offset, storesEach_swr s rt base offset, storesEach_sdl s rt base offset,
    storesEach_sdr s rt base offset⟩

end Machine
end Sys2Proof
end

section
/-! SUPPORT. The pairs of unaligned-part instructions (R240 to R243, R249 to R252): the left form at `b` and the right
form at the last byte of the word or doubleword from `b` on together load, or store, all of it. Either `b` is aligned
and the right form meets the whole unit, or the bytes lie in two neighbouring units and each form handles its own side
of the boundary. The argument is the same for a word and a doubleword, so it is made once, for a unit of any width. -/

namespace Sys2Proof
namespace Machine

/-! ### The units of the two forms -/

section Units
variable (b : BusAddr) (n : Width)

/-- How many bytes lie from `b` on before the unit of the last of the `N` bytes from `b` on. -/
def beforeLastUnit (N : Nat) : Nat := N - 1 - partOf (byteAddr b (N - 1)) N

theorem byteAddr_alignDown : byteAddr (alignDown b n.bytes) (partOf b n.bytes) = b := BitVec.sub_add_cancel _ _

/-- The unit of an address is in one aligned doubleword with the address. -/
theorem alignDown_block : (alignDown b n.bytes).toNat / 8 = b.toNat / 8 := by
  have e := (byteAddr_block (alignDown_aligned b n) (partOf_lt b (Width.bytes_pos n))).2
  rw [byteAddr_alignDown] at e
  exact e.symm

theorem inRam_alignDown {p : Params} (hp : p.wf) : inRam p (alignDown b n.bytes) = inRam p b := by
  unfold inRam
  rw [region_same_block hp (alignDown_block b n)]

/-- The right form's place in its unit, by what lies before the unit. -/
theorem beforeLastUnit_add_partOf :
    beforeLastUnit b n.bytes + partOf (byteAddr b (n.bytes - 1)) n.bytes = n.bytes - 1 :=
  Nat.sub_add_cancel (Nat.le_sub_one_of_lt (partOf_lt _ (Width.bytes_pos n)))

theorem alignDown_last :
    alignDown (byteAddr b (n.bytes - 1)) n.bytes = byteAddr b (beforeLastUnit b n.bytes) := by
  have e : byteAddr b (n.bytes - 1) =
      byteAddr (byteAddr b (beforeLastUnit b n.bytes)) (partOf (byteAddr b (n.bytes - 1)) n.bytes) := by
    rw [byteAddr_byteAddr, beforeLastUnit_add_partOf]
  exact (congrArg (· - _) e).trans (BitVec.add_sub_cancel _ _)

/-- The bytes from `b` on are one unit, or the boundary of two units is between them. -/
theorem beforeLastUnit_cases : beforeLastUnit b n.bytes = 0 ∧ partOf b n.bytes = 0 ∨
    partOf b n.bytes + beforeLastUnit b n.bytes = n.bytes := by
  have := b.isLt
  unfold beforeLastUnit partOf
  rw [byteAddr_toNat]
  cases n <;> simp only [Width.bytes] <;> omega

end Units

/-! ### The value of the two loads -/

/-- The big-endian number of the `N` bytes of memory from `a` on. -/
def numberAt (s : State) (a : BusAddr) (N : Nat) : Nat := bigEndian (fun i => s.byteAt (byteAddr a i)) N

/-- The first `i` of `N` bytes stand above the other `j`. -/
theorem numberAt_split (s : State) (a : BusAddr) {i j N : Nat} (h : i + j = N) :
    numberAt s a N = numberAt s a i * 2 ^ (8 * j) + numberAt s (byteAddr a i) j := by
  subst h
  induction j with
  | zero => simp [numberAt, bigEndian]
  | succ j ih =>
    simp only [numberAt, byteAddr_byteAddr] at ih ⊢
    rw [← Nat.add_assoc, bigEndian_succ, ih, bigEndian_succ]
    ring

theorem numberAt_lt (s : State) (a : BusAddr) (N : Nat) : numberAt s a N < 2 ^ (8 * N) := bigEndian_lt _ N

theorem numberAt_of_sameMemory {s u : State} (h : SameMemory s u) (a : BusAddr) (N : Nat) :
    numberAt u a N = numberAt s a N :=
  bigEndian_congr fun _ _ => h _

section Merge
variable {w : Nat}

/-- The merge of a left form: `m` shifted left by `c`, the low `c` bits from the register (R240, R242). -/
def mergeLeft (c : Nat) (m old : BitVec w) : BitVec w := (m <<< c) ||| (old &&& BitVec.ofNat w (2 ^ c - 1))

/-- The merge of a right form: `m` shifted right by `d`, the high `d` bits from the register (R241, R243). -/
def mergeRight (d : Nat) (m old : BitVec w) : BitVec w := (m >>> d) ||| (old &&& ~~~(BitVec.allOnes w >>> d))

theorem mergeRight_zero (m old : BitVec w) : mergeRight 0 m old = m := by simp [mergeRight]

/-- Where the right form replaces just the bits that the left form kept, nothing of the register is left. -/
theorem mergeRight_mergeLeft {c d : Nat} (hw : c + d = w) (m m' old : BitVec w) :
    mergeRight d m' (mergeLeft c m old) = (m <<< c) ||| (m' >>> d) := by
  apply BitVec.eq_of_getLsbD_eq
  intro i hi
  simp only [mergeRight, mergeLeft, BitVec.getLsbD_or, BitVec.getLsbD_and, BitVec.getLsbD_not, BitVec.getLsbD_shiftLeft,
    BitVec.getLsbD_ushiftRight, BitVec.getLsbD_allOnes, BitVec.getLsbD_ofNat, Nat.testBit_two_pow_sub_one]
  by_cases hc : i < c
  · have hd : d + i < w := by omega
    simp [hi, hc, hd]
  · have hd : ¬ d + i < w := by omega
    simp [hi, hc, hd, Bool.or_comm]

/-- The low `d` bits of one number side by side with the high `c` bits of the next. -/
theorem shiftLeft_or_ushiftRight {c d p q r t : Nat} (hw : c + d = w) (hq : q < 2 ^ d) (hr : r < 2 ^ c)
    (ht : t < 2 ^ d) : (BitVec.ofNat w (p * 2 ^ d + q) <<< c) ||| (BitVec.ofNat w (r * 2 ^ d + t) >>> d) =
      BitVec.ofNat w (q * 2 ^ c + r) := by
  have hpow : 2 ^ w = 2 ^ d * 2 ^ c := by rw [← hw, Nat.pow_add, Nat.mul_comm]
  have hleft : (p * 2 ^ d + q) * 2 ^ c % 2 ^ w = q * 2 ^ c := by
    rw [hpow, Nat.mul_mod_mul_right, Nat.mul_add_mod_of_lt hq]
  have hright : (r * 2 ^ d + t) % 2 ^ w / 2 ^ d = r := by
    rw [hpow, Nat.mod_mul_right_div_self, Nat.mul_comm r, Nat.mul_add_div (Nat.two_pow_pos d), Nat.div_eq_of_lt ht,
      Nat.add_zero, Nat.mod_eq_of_lt hr]
  have hfits : q * 2 ^ c + r < 2 ^ w := by
    rw [hpow]
    exact Nat.lt_of_lt_of_le (Nat.add_lt_add_left hr _) (Nat.succ_mul q _ ▸ Nat.mul_le_mul_right _ hq)
  apply BitVec.eq_of_toNat_eq
  rw [BitVec.toNat_or, BitVec.toNat_shiftLeft, BitVec.toNat_ushiftRight, BitVec.toNat_ofNat, BitVec.toNat_ofNat,
    BitVec.toNat_ofNat, Nat.shiftLeft_eq, Nat.mod_mul_mod, hleft, Nat.shiftRight_eq_div_pow, hright,
    Nat.mod_eq_of_lt hfits, Nat.mul_comm, ← Nat.two_pow_add_eq_or_of_lt hr]

/-- What the two forms leave of two reads of their units: the number of the bytes from `b` on. -/
theorem mergeRight_mergeLeft_numberAt (s : State) (b : BusAddr) (n : Width) (old : BitVec w) (hw : w = 8 * n.bytes) :
    mergeRight (8 * beforeLastUnit b n.bytes)
        (BitVec.ofNat w (numberAt s (byteAddr b (beforeLastUnit b n.bytes)) n.bytes))
        (mergeLeft (8 * partOf b n.bytes) (BitVec.ofNat w (numberAt s (alignDown b n.bytes) n.bytes)) old) =
      BitVec.ofNat w (numberAt s b n.bytes) := by
  rcases beforeLastUnit_cases b n with ⟨hzero, -⟩ | hsum
  · rw [hzero, Nat.mul_zero, mergeRight_zero, byteAddr_zero]
  · have hunit := numberAt_split s (alignDown b n.bytes) hsum
    have hnext := numberAt_split s (byteAddr b (beforeLastUnit b n.bytes)) hsum
    rw [byteAddr_alignDown] at hunit
    have hbits : 8 * partOf b n.bytes + 8 * beforeLastUnit b n.bytes = w := by rw [← Nat.mul_add, hsum, hw]
    rw [mergeRight_mergeLeft hbits, hunit, hnext,
      shiftLeft_or_ushiftRight hbits (numberAt_lt ..) (numberAt_lt ..) (numberAt_lt ..),
      ← numberAt_split s b ((Nat.add_comm _ _).trans hsum)]

end Merge

/-! ### The pair of loads (O47) -/

/-- A load from RAM writes its register and nothing else. -/
theorem writesReg_of_loaded {s t : State} {a : BusAddr} {n : Width} {k : BusRange} {off : Nat} {rt : Reg}
    {f : Word64 → Word64} (h : Loaded s t a n (.ramAt k off) rt f s.llbit) :
    WritesReg .none s t rt (f (BitVec.ofNat 64 (numberAt s a n.bytes))) := by
  obtain ⟨v, hv, hdev, hreg, hhi, hlo, hll, hmem, hseq⟩ := h
  have hval : v = BitVec.ofNat 64 (numberAt s a n.bytes) := eq_of_toNat hv
  exact ⟨hval ▸ hreg, ⟨hhi, hlo, hll⟩, hmem, hdev, hseq⟩

/-- A load from the unit of a RAM address completes, with the number of the unit's bytes. -/
theorem loadReg_unit_ram {s : State} (hp : s.params.wf) (i : Instr) (n : Width) {a : BusAddr}
    (hram : inRam s.params a = true) (ea : Word64) (f : Word64 → Word64) (rt : Reg) :
    ∃ t, loadReg i n (alignDown a n.bytes) ea f rt s = .next t ∧
      WritesReg .none s t rt (f (BitVec.ofNat 64 (numberAt s (alignDown a n.bytes) n.bytes))) := by
  obtain ⟨k, off, hc⟩ := classify_aligned_ram hp (alignDown_aligned a n) ((inRam_alignDown a n hp).trans hram)
  obtain ⟨t, ht, hl⟩ := loadReg_ok i ea f rt hc
  exact ⟨t, ht, writesReg_of_loaded hl⟩

theorem setWidth_signExtend {w n : Nat} (h : w ≤ n) (x : BitVec w) : (x.signExtend n).setWidth w = x := by
  apply BitVec.eq_of_getLsbD_eq
  intro i hi
  have hn : i < n := by omega
  rw [BitVec.getLsbD_setWidth, BitVec.getLsbD_signExtend, if_pos hi]
  simp only [hi, hn, decide_true, Bool.true_and]

/-- The left form at `b` and the right form at the last byte of the unit's width from `b` on, one after the other. The
merges are of the low `w` bits, sign-extended: the word forms as they are, and the doubleword forms at w = 64. -/
theorem loadPair {left right : Instr} {s : State} {rt base : Reg} {b : BusAddr} {n : Width} {w : Nat} {ea : Word64}
    {ea' : State → Word64} (hp : s.params.wf) (hrt : rt ≠ 0) (hbase : rt ≠ base) (hw : w = 8 * n.bytes)
    (hleft : exec left s = loadReg left n (alignDown b n.bytes) ea (fun m =>
      (mergeLeft (8 * partOf b n.bytes) (m.setWidth w) ((s.reg rt).setWidth w)).signExtend 64) rt s)
    (hright : ∀ u : State, u.reg base = s.reg base → exec right u =
      loadReg right n (alignDown (byteAddr b (n.bytes - 1)) n.bytes) (ea' u) (fun m =>
        (mergeRight (8 * beforeLastUnit b n.bytes) (m.setWidth w) ((u.reg rt).setWidth w)).signExtend 64) rt u)
    (hram : ∀ i < n.bytes, inRam s.params (byteAddr b i) = true) :
    ∃ u t, exec left s = .next u ∧ exec right u = .next t ∧
      t.reg rt = (BitVec.ofNat w (numberAt s b n.bytes)).signExtend 64 ∧ (∀ r, r ≠ rt → t.reg r = s.reg r) ∧
      SameMemory s t ∧ SameDevices s t := by
  have hpos := Width.bytes_pos n
  have hfirst : inRam s.params b = true := byteAddr_zero b ▸ hram 0 hpos
  obtain ⟨u, hu, ⟨huv, hur⟩, -, hum, ⟨hud, hud'⟩, -, hup, -⟩ := hleft ▸ loadReg_unit_ram hp left n hfirst ea _ rt
  have hlast : inRam u.params (byteAddr b (n.bytes - 1)) = true := hup ▸ hram _ (by omega)
  obtain ⟨t, ht, ⟨htv, htr⟩, -, htm, ⟨htd, htd'⟩, -⟩ :=
    hright u (hur base hbase.symm) ▸ loadReg_unit_ram (hup ▸ hp) right n hlast (ea' u) _ rt
  refine ⟨u, t, hu, ht, ?_, fun r hr => (htr r hr).trans (hur r hr), fun x => (htm x).trans (hum x),
    htd.trans hud, htd'.trans hud'⟩
  have hw64 : w ≤ 64 := by have := Width.bytes_le n; omega
  rw [htv, if_neg hrt, huv, if_neg hrt, BitVec.setWidth_ofNat_of_le hw64, BitVec.setWidth_ofNat_of_le hw64,
    setWidth_signExtend hw64, alignDown_last, numberAt_of_sameMemory hum, mergeRight_mergeLeft_numberAt s b n _ hw]

section PairLoads
variable (s : State) (rt base : Reg)

theorem effAddr_zero : s.effAddr base 0 = s.reg base := BitVec.add_zero _

theorem busAddr_effAddr_three : busAddr (s.effAddr base 3) = byteAddr (busAddr (s.reg base)) 3 :=
  BitVec.setWidth_add _ _ (by decide)

theorem busAddr_effAddr_seven : busAddr (s.effAddr base 7) = byteAddr (busAddr (s.reg base)) 7 :=
  BitVec.setWidth_add _ _ (by decide)

theorem exec_lwl_zero : exec (.lwl rt 0 base) s =
    loadReg (.lwl rt 0 base) .word (alignDown (busAddr (s.reg base)) 4) (s.reg base) (fun m =>
      (mergeLeft (8 * partOf (busAddr (s.reg base)) 4) (m.setWidth 32)
        ((s.reg rt).setWidth 32)).signExtend 64) rt s := by
  rw [← effAddr_zero]; rfl

theorem exec_lwr_three : exec (.lwr rt 3 base) s =
    loadReg (.lwr rt 3 base) .word (alignDown (byteAddr (busAddr (s.reg base)) 3) 4) (s.effAddr base 3) (fun m =>
      (mergeRight (8 * beforeLastUnit (busAddr (s.reg base)) 4) (m.setWidth 32)
        ((s.reg rt).setWidth 32)).signExtend 64) rt s := by
  unfold beforeLastUnit
  rw [← busAddr_effAddr_three]; rfl

theorem exec_ldl_zero : exec (.ldl rt 0 base) s =
    loadReg (.ldl rt 0 base) .dword (alignDown (busAddr (s.reg base)) 8) (s.reg base) (fun m =>
      (mergeLeft (8 * partOf (busAddr (s.reg base)) 8) (m.setWidth 64)
        ((s.reg rt).setWidth 64)).signExtend 64) rt s := by
  simp only [BitVec.setWidth_eq, BitVec.signExtend_eq]
  rw [← effAddr_zero]; rfl

theorem exec_ldr_seven : exec (.ldr rt 7 base) s =
    loadReg (.ldr rt 7 base) .dword (alignDown (byteAddr (busAddr (s.reg base)) 7) 8) (s.effAddr base 7) (fun m =>
      (mergeRight (8 * beforeLastUnit (busAddr (s.reg base)) 8) (m.setWidth 64)
        ((s.reg rt).setWidth 64)).signExtend 64) rt s := by
  simp only [BitVec.setWidth_eq, BitVec.signExtend_eq]
  unfold beforeLastUnit
  rw [← busAddr_effAddr_seven]; rfl

end PairLoads

/-- Settles O47. -/
theorem unalignedLoadPair : Obligations.UnalignedLoadPair := by
  intro s rt base hp hrt hbase
  refine ⟨loadPair (n := .word) hp hrt hbase rfl (exec_lwl_zero s rt base)
    fun u hu => hu ▸ exec_lwr_three u rt base, fun hram => ?_⟩
  rw [← BitVec.signExtend_eq (BitVec.ofNat 64 _)]
  exact loadPair (n := .dword) hp hrt hbase rfl (exec_ldl_zero s rt base)
    (fun u hu => hu ▸ exec_ldr_seven u rt base) hram

/-! ### The pair of stores (O50) -/

theorem mem_leftBytes {N : Nat} {b : BusAddr} {x : Word64} {c : BusAddr × Byte} :
    c ∈ leftBytes N b x ↔ ∃ i < N - partOf b N, c = (byteAddr b i, busByte N x i) := by
  simp only [leftBytes, busByte, List.mem_map, List.mem_range, Nat.mul_sub, eq_comm]

/-- The bytes of the right form at the last of the bytes from `b` on, by their distance from `b`. -/
theorem mem_rightBytes_last {n : Width} {b : BusAddr} {x : Word64} {c : BusAddr × Byte} :
    c ∈ rightBytes n.bytes (byteAddr b (n.bytes - 1)) x ↔
      ∃ i, beforeLastUnit b n.bytes ≤ i ∧ i < n.bytes ∧ c = (byteAddr b i, busByte n.bytes x i) := by
  have hpos := Width.bytes_pos n
  have hplace := beforeLastUnit_add_partOf b n
  have hshift : ∀ j, n.bytes - 1 - (beforeLastUnit b n.bytes + j) = partOf (byteAddr b (n.bytes - 1)) n.bytes - j :=
    fun j => by omega
  simp only [rightBytes, busByte, alignDown_last, byteAddr_byteAddr, List.mem_map, List.mem_range]
  constructor
  · rintro ⟨j, hj, rfl⟩
    refine ⟨beforeLastUnit b n.bytes + j, by omega, by omega, ?_⟩
    rw [hshift]
  · rintro ⟨i, hle, hi, rfl⟩
    obtain ⟨j, rfl⟩ := Nat.exists_eq_add_of_le hle
    refine ⟨j, by omega, ?_⟩
    rw [hshift]

/-- Bytes of RAM reach no device. -/
theorem byteEvents_of_inRam {p : Params} {l : List (BusAddr × Byte)} (h : ∀ c ∈ l, inRam p c.1 = true) :
    byteEvents p l = [] := by
  refine List.filterMap_eq_nil_iff.2 fun c hc => ?_
  obtain ⟨k, off, hk⟩ := classify_byte_ram (h c hc)
  rw [hk]

/-- Two lists of bytes, stored one after the other, that together are `byte i` at `byteAddr b i` for each `i` below `N`,
all of it RAM. A byte in both lists is stored twice, with one value. -/
theorem storedEach_pair {s u t : State} {l l' : List (BusAddr × Byte)} {b : BusAddr} {N : Nat} {byte : Nat → Byte}
    (hN : N ≤ 8) (h : StoredEach s u l) (h' : StoredEach u t l')
    (hmem : ∀ c, c ∈ l ∨ c ∈ l' ↔ ∃ i < N, c = (byteAddr b i, byte i))
    (hram : ∀ i < N, inRam s.params (byteAddr b i) = true) :
    (∀ i < N, t.byteAt (byteAddr b i) = byte i) ∧
      (∀ x, (∀ i < N, x ≠ byteAddr b i) → t.byteAt x = s.byteAt x) ∧ SameRegs s t ∧ SameDevices s t := by
  obtain ⟨hbytes, hothers, hlog, hreplies, hregs, -, -, hparams, -⟩ := h
  obtain ⟨hbytes', hothers', hlog', hreplies', hregs', -⟩ := h'
  rw [hparams] at hbytes' hothers' hlog'
  have hlisted : ∀ c, c ∈ l ∨ c ∈ l' → inRam s.params c.1 = true := by
    intro c hc
    obtain ⟨i, hi, rfl⟩ := (hmem c).1 hc
    exact hram i hi
  refine ⟨fun i hi => ?_, fun x hx => ?_, fun r => (hregs' r).trans (hregs r), ?_, hreplies'.trans hreplies⟩
  · by_cases hin : (byteAddr b i, byte i) ∈ l'
    · exact hbytes' _ hin (hram i hi)
    · have hfirst := ((hmem (byteAddr b i, byte i)).2 ⟨i, hi, rfl⟩).resolve_right hin
      refine (hothers' _ (.inl fun c hc e => hin ?_)).trans (hbytes _ hfirst (hram i hi))
      obtain ⟨j, hj, rfl⟩ := (hmem c).1 (.inr hc)
      obtain rfl := byteAddr_inj (by omega) (by omega) e
      exact hc
  · have hne : ∀ c, c ∈ l ∨ c ∈ l' → x ≠ c.1 := by
      intro c hc
      obtain ⟨i, hi, rfl⟩ := (hmem c).1 hc
      exact hx i hi
    exact (hothers' x (.inl fun c hc => hne c (.inr hc))).trans (hothers x (.inl fun c hc => hne c (.inl hc)))
  · rw [hlog', hlog, byteEvents_of_inRam fun c hc => hlisted c (.inl hc),
      byteEvents_of_inRam fun c hc => hlisted c (.inr hc), List.append_nil, List.append_nil]

/-- The two forms together list every byte from `b` on. -/
theorem mem_leftBytes_or_rightBytes (n : Width) (b : BusAddr) (x : Word64) (c : BusAddr × Byte) :
    c ∈ leftBytes n.bytes b x ∨ c ∈ rightBytes n.bytes (byteAddr b (n.bytes - 1)) x ↔
      ∃ i < n.bytes, c = (byteAddr b i, busByte n.bytes x i) := by
  rw [mem_leftBytes, mem_rightBytes_last]
  constructor
  · rintro (⟨i, hi, hc⟩ | ⟨i, -, hi, hc⟩)
    · exact ⟨i, by omega, hc⟩
    · exact ⟨i, hi, hc⟩
  · rintro ⟨i, hi, hc⟩
    have hcases := beforeLastUnit_cases b n
    by_cases hle : beforeLastUnit b n.bytes ≤ i
    · exact .inr ⟨i, hle, hi, hc⟩
    · exact .inl ⟨i, by omega, hc⟩

/-- The left form at `b` and the right form at the last byte of the unit's width from `b` on, one after the other. -/
theorem storePair {left right : Instr} {s : State} {n : Width} {b : BusAddr} {x : Word64}
    (hleft : StoresEach left (encode left) s (leftBytes n.bytes b x))
    (hright : ∀ u, SameRegs s u → StoresEach right (encode right) u (rightBytes n.bytes (byteAddr b (n.bytes - 1)) x))
    (hram : ∀ i < n.bytes, inRam s.params (byteAddr b i) = true) :
    ∃ u t, exec left s = .next u ∧ exec right u = .next t ∧
      (∀ i < n.bytes, t.byteAt (byteAddr b i) = busByte n.bytes x i) ∧
      (∀ y, (∀ i < n.bytes, y ≠ byteAddr b i) → t.byteAt y = s.byteAt y) ∧ SameRegs s t ∧ SameDevices s t := by
  obtain ⟨-, u, hu, hsu⟩ := hleft
  have ⟨_, _, _, _, hregs, _⟩ := hsu
  obtain ⟨-, t, ht, hut⟩ := hright u hregs
  exact ⟨u, t, hu, ht, storedEach_pair (Width.bytes_le n) hsu hut (mem_leftBytes_or_rightBytes n b x) hram⟩

/-- Settles O50. -/
theorem unalignedStorePair : Obligations.UnalignedStorePair := by
  intro s rt base
  refine ⟨storePair (n := .word) (effAddr_zero s base ▸ storesEach_swl s rt base 0) fun u hu => ?_,
    storePair (n := .dword) (effAddr_zero s base ▸ storesEach_sdl s rt base 0) fun u hu => ?_⟩
  · have h := storesEach_swr u rt base 3
    rw [busAddr_effAddr_three, hu, hu] at h
    exact h
  · have h := storesEach_sdr u rt base 7
    rw [busAddr_effAddr_seven, hu, hu] at h
    exact h

end Machine
end Sys2Proof
end

section
/-! SUPPORT. Branches and jumps (44_branch_jump.md). Each of them is one shared operation: `complete` or `completeLink`
with the request it makes of the sequencer, or, for a misaligned register target, the address error of R292. What is
left is that the model's request is the one the rule gives for the condition. -/

namespace Sys2Proof
namespace Machine

/-! ### The request of a condition (R270, R271) -/

section Requests
variable (p : Prop) [Decidable p] (target : Word64)

theorem branchIf_decide : branchIf (decide p) target = if p then .branch target else .none := by
  by_cases h : p <;> simp [branchIf, h]

theorem branchIf_not_decide : branchIf (!decide p) target = if p then .none else .branch target := by
  by_cases h : p <;> simp [branchIf, h]

theorem branchLikely_decide : branchLikely (decide p) target = if p then .branch target else .skip := by
  by_cases h : p <;> simp [branchLikely, h]

theorem branchLikely_not_decide : branchLikely (!decide p) target = if p then .skip else .branch target := by
  by_cases h : p <;> simp [branchLikely, h]

end Requests

/-! ### The two shapes of a branch rule (R270) -/

/-- The rule may write the model's request in other terms. -/
theorem branches_complete {i : Instr} {s : State} {br request : Request} (he : exec i s = complete br s)
    (hbr : br = request) : Branches i (encode i) s request :=
  ⟨isEncoding_encode i, hbr ▸ he ▸ complete_spec br s⟩

/-- The same with the link: the request is made of the state before the link is written. -/
theorem branchesAndLinks_completeLink {i : Instr} {s : State} {br request : Request}
    (he : exec i s = completeLink linkReg br s) (hbr : br = request) : BranchesAndLinks i (encode i) s request :=
  ⟨isEncoding_encode i, hbr ▸ he ▸ completeLink_spec linkReg br s⟩

/-! ### Conditional branches (O53, O54, O55) -/

/-- Settles O53. -/
theorem conditionalBranches : Obligations.ConditionalBranches := fun _ _ _ _ =>
  ⟨branches_complete rfl (branchIf_decide _ _), branches_complete rfl (branchIf_not_decide _ _),
    branches_complete rfl (branchIf_decide _ _), branches_complete rfl (branchIf_decide _ _),
    branches_complete rfl (branchIf_decide _ _), branches_complete rfl (branchIf_decide _ _)⟩

/-- Settles O54. (The plain name is that of the model's own request.) -/
theorem branchLikely_rule : Obligations.BranchLikely := fun _ _ _ _ =>
  ⟨branches_complete rfl (branchLikely_decide _ _), branches_complete rfl (branchLikely_not_decide _ _),
    branches_complete rfl (branchLikely_decide _ _), branches_complete rfl (branchLikely_decide _ _),
    branches_complete rfl (branchLikely_decide _ _), branches_complete rfl (branchLikely_decide _ _)⟩

/-- Settles O55. -/
theorem branchAndLink : Obligations.BranchAndLink := fun _ _ _ =>
  ⟨branchesAndLinks_completeLink rfl (branchIf_decide _ _), branchesAndLinks_completeLink rfl (branchIf_decide _ _),
    branchesAndLinks_completeLink rfl (branchLikely_decide _ _),
    branchesAndLinks_completeLink rfl (branchLikely_decide _ _)⟩

/-! ### Jumps (O52) -/

section RegisterJumps
variable {s : State} {rs : Reg}

theorem exec_jr_of_aligned (h : Aligned4 (s.reg rs)) : exec (.jr rs) s = complete (.branch (s.reg rs)) s :=
  if_pos ((wordAligned_iff _).2 h)

theorem exec_jalr_of_aligned (rd : Reg) (h : Aligned4 (s.reg rs)) :
    exec (.jalr rd rs) s = completeLink rd (.branch (s.reg rs)) s :=
  if_pos ((wordAligned_iff _).2 h)

end RegisterJumps

/-- Settles O52. -/
theorem jumps : Obligations.Jumps := by
  intro s rd rs target
  refine ⟨branches_complete rfl rfl, branchesAndLinks_completeLink rfl rfl, isEncoding_encode (.jr rs),
    isEncoding_encode (.jalr rd rs), fun haligned => ?_, fun hmisaligned => ?_⟩
  · rw [exec_jr_of_aligned haligned, exec_jalr_of_aligned rd haligned]
    exact ⟨complete_spec _ s, completeLink_spec rd _ s⟩
  · exact ⟨exec_registerJump_misaligned (.inr rfl) hmisaligned,
      exec_registerJump_misaligned (.inl ⟨rd, rfl⟩) hmisaligned⟩

end Machine
end Sys2Proof
end

section
/-! SUPPORT. System calls, traps and reserved words (45_system.md). A conditional trap is `trapIf` of a test, so its rule
follows from what `trapIf` does once the test is known to decide the rule's condition. A reserved word raises in the
state after its fetch, which records the same pc and pending slot as the state before it. -/

namespace Sys2Proof
namespace Machine

/-! ### The rule of a conditional trap (R303) -/

/-- The rule may write the condition that the model tests in other terms. -/
theorem traps_trapIf {c : Bool} {p : Prop} {i : Instr} {s : State} (he : exec i s = trapIf c i s)
    (hc : c = true ↔ p) : Traps i (encode i) s p :=
  ⟨isEncoding_encode i, fun h => he.trans (trapIf_true (hc.2 h) i s),
    fun h => he ▸ trapIf_false (Bool.eq_false_iff.2 (mt hc.1 h)) i s⟩

section Comparisons
variable (a b : Word64)

theorem geSigned_iff : geSigned a b = true ↔ b.toInt ≤ a.toInt := decide_eq_true_iff

theorem geUnsigned_iff : geUnsigned a b = true ↔ b.toNat ≤ a.toNat := decide_eq_true_iff

theorem ltSigned_iff : ltSigned a b = true ↔ a.toInt < b.toInt := decide_eq_true_iff

theorem ltUnsigned_iff : ltUnsigned a b = true ↔ a.toNat < b.toNat := decide_eq_true_iff

end Comparisons

/-! ### SYSCALL, BREAK, SYNC and the conditional traps (O56, O57) -/

/-- Settles O56: the raw word of an exception is the encoding, the code field in it. -/
theorem systemInstructions : Obligations.SystemInstructions := fun s code =>
  ⟨⟨isEncoding_encode (.syscall code), raiseInstr_eq .syscall (.syscall code) s⟩,
    ⟨isEncoding_encode (.brk code), raiseInstr_eq .breakpoint (.brk code) s⟩,
    isEncoding_encode .sync, complete_spec .none s⟩

/-- Settles O57: the signed immediate forms compare with the integer of the immediate, which its sign extension keeps;
the unsigned ones with the number of the extended immediate. -/
theorem conditionalTraps : Obligations.ConditionalTraps := by
  intro s rs rt code imm
  rw [← toInt_simm imm]
  exact ⟨traps_trapIf rfl (geSigned_iff _ _), traps_trapIf rfl (geUnsigned_iff _ _),
    traps_trapIf rfl (ltSigned_iff _ _), traps_trapIf rfl (ltUnsigned_iff _ _),
    traps_trapIf rfl beq_iff_eq, traps_trapIf rfl bne_iff_ne,
    traps_trapIf rfl (geSigned_iff _ _), traps_trapIf rfl (geUnsigned_iff _ _),
    traps_trapIf rfl (ltSigned_iff _ _), traps_trapIf rfl (ltUnsigned_iff _ _),
    traps_trapIf rfl beq_iff_eq, traps_trapIf rfl bne_iff_ne⟩

/-! ### Reserved words (O6) -/

/-- A fetch changes the device record only, so an exception after it has the record of the state before it. -/
theorem faultedIn_of_fetchWord {s u : State} {w : Word32} (h : fetchWord s = .ok (w, u)) (kind : ExcKind)
    (info : Word64) (raw : Option Word32) : faultedIn u kind info raw = faultedIn s kind info raw := by
  rw [fetchWord_frame h]; rfl

/-- A step that fetches a reserved word raises ReservedInstruction with that word (R316). -/
theorem step_of_reserved {s u : State} {w x : Word32} {why : ReservedWhy} (hrun : s.run = .running)
    (hf : fetchWord s = .ok (w, u)) (hw : s.params.haltWord ≠ some w) (hd : decode w = .reserved x why) :
    step s = .next { u with run := faultedIn s .reservedInstruction (w.setWidth 64) (some w) } := by
  rw [step_of_fetch_ok hrun hf, runWord_reserved (fetchWord_params hf ▸ hw) hd, faultedIn_of_fetchWord hf]

/-- Settles O6: the first example is a primary opcode outside the map, the second the encoding of an SD. -/
theorem reservedWordRaises : Obligations.ReservedWordRaises :=
  ⟨fun _ _ _ _ _ hrun hf hw hd => ⟨step_of_reserved hrun hf hw hd, fetchWord_frame hf⟩,
    ⟨.primary, by decide⟩, _, decode_of_eq_encode (i := .sd 31 0xFFFF 31) (by decide), rfl⟩

end Machine
end Sys2Proof
end

section
/-! SUPPORT. Exceptions and the host (60_exceptions.md). What a step raises comes from its fetch, a reserved word, or the
instruction, whose kinds `exec_cases` bounds by the table of R333. A tick is the host's direct writes, `pokeBytes`, cut
to PERIPH_WRITABLE. -/

namespace Sys2Proof
namespace Machine

/-! ### The kinds of exception (O14) -/

/-- An aligned fetch has no address error in an admissible range table (20_memory.md R65). -/
theorem not_aligned4_of_fetchWord_error {s : State} {sub : AddrSub} (hp : s.params.wf)
    (hf : fetchWord s = .error sub) : ¬ Aligned4 s.pc := by
  intro hpc
  have haligned : (busAddr s.pc).toNat % 4 = 0 := (busAddr_mod_four s.pc).trans hpc
  obtain ⟨v, u, hread, -⟩ := memRead_ok (classify_aligned (n := .word) hp haligned)
  rw [fetchWord_eq_map, hread] at hf
  cases hf

/-- An instruction that faults a running core raised a kind that R333 gives for it. -/
theorem mayRaise_of_exec_faulted {i : Instr} {s t : State} {e : Exc} (hp : s.params.wf) (hrun : s.run = .running)
    (h : exec i s = .next t) (ht : t.run = .faulted e) : mayRaise s i e.kind := by
  rcases exec_cases i s with ⟨kind, info, he, hkind⟩ | ⟨u, he, hu⟩ <;> rw [he] at h <;> cases h
  · cases ht
    exact hkind hp
  · rw [hu.advance_run, hrun] at ht
    cases ht

/-- The table of R333 reads registers only, and a fetch changes none. -/
theorem mayRaise_of_fetchWord {s u : State} {w : Word32} {i : Instr} {kind : ExcKind} (hf : fetchWord s = .ok (w, u))
    (h : mayRaise u i kind) : mayRaise s i kind := by
  rw [fetchWord_frame hf] at h
  exact h

/-- A fetched word that faults a running core is not the halt word, and it is reserved or an instruction that may raise
the kind. -/
theorem kind_of_runWord_faulted {w : Word32} {s t : State} {e : Exc} (hp : s.params.wf) (hrun : s.run = .running)
    (h : runWord w s = .next t) (ht : t.run = .faulted e) :
    s.params.haltWord ≠ some w ∧
      ((∃ x why, decode w = .reserved x why ∧ e.kind = .reservedInstruction) ∨
        ∃ i, decode w = .instr i ∧ mayRaise s i e.kind) := by
  by_cases hw : s.params.haltWord = some w
  · rw [runWord_haltWord hw] at h
    cases h; cases ht
  · refine ⟨hw, ?_⟩
    cases hd : decode w with
    | reserved x why =>
      rw [runWord_reserved hw hd] at h
      cases h; cases ht
      exact .inl ⟨x, why, rfl, rfl⟩
    | instr i =>
      rw [runWord_instr hw hd] at h
      exact .inr ⟨i, rfl, mayRaise_of_exec_faulted hp hrun h ht⟩

/-- Settles O14, in the order of the checks of R335: the fetch, the reserved words, the instruction. -/
theorem exceptionKinds : Obligations.ExceptionKinds := by
  intro s t e hp hrun h ht
  cases hf : fetchWord s with
  | error sub =>
    rw [step_of_fetch_error hrun hf] at h
    cases h; cases ht
    exact .inl ⟨sub, rfl, rfl, not_aligned4_of_fetchWord_error hp hf⟩
  | ok q =>
    obtain ⟨w, u⟩ := q
    rw [step_of_fetch_ok hrun hf] at h
    have hparams := fetchWord_params hf
    obtain ⟨hw, hkind⟩ := kind_of_runWord_faulted (hparams ▸ hp) ((fetchWord_run hf).trans hrun) h ht
    refine .inr ⟨w, u, rfl, hparams ▸ hw, hkind.imp_right ?_⟩
    exact fun ⟨i, hd, hi⟩ => ⟨i, hd, mayRaise_of_fetchWord hf hi⟩

/-! ### The host's stop (R349) -/

theorem hostStop_of_running {s : State} (h : s.run = .running) : hostStop s = { s with run := .halted } := by
  unfold hostStop
  rw [h]

theorem hostStop_of_not_running {s : State} (h : s.run ≠ .running) : hostStop s = s := by
  unfold hostStop
  cases hr : s.run with
  | running => exact absurd hr h
  | faulted e => rfl
  | halted => rfl

/-! ### The peripheral tick (R344) -/

theorem periphWritable_iff (p : Params) (a : BusAddr) : periphWritable p a = true ↔
    ∃ w ∈ p.periphWritable, w.base.toNat ≤ a.toNat ∧ a.toNat < w.base.toNat + w.size := by
  simp [periphWritable]

/-- Where the host may write no byte, its writes leave the memory. -/
theorem pokeBytes_of_not_allowed {allowed : BusAddr → Bool} (p : Params) (m : Memory) (l : List Host.Cell)
    (h : ∀ a, allowed a = false) : pokeBytes allowed p m l = m := by
  induction l with
  | nil => rfl
  | cons c l ih =>
    obtain ⟨a, b⟩ := c
    unfold pokeBytes
    rw [if_neg (by simp [h]), ih]

section Tick
variable (writes : List Host.Cell) (replies : List Word64) {s : State} {a : BusAddr}

theorem tick_byteAt_of_writable (hram : inRam s.params a = true) (hw : periphWritable s.params a = true) :
    (tick writes replies s).byteAt a = (lastByteAt writes a).getD (s.byteAt a) :=
  (read_pokeBytes _ s.params s.mem writes a).trans (if_pos ⟨hram, hw⟩)

theorem tick_byteAt_of_not_writable (h : ¬ (inRam s.params a = true ∧ periphWritable s.params a = true)) :
    (tick writes replies s).byteAt a = s.byteAt a :=
  (read_pokeBytes _ s.params s.mem writes a).trans (if_neg h)

theorem tick_mem_of_no_window (h : s.params.periphWritable = []) : (tick writes replies s).mem = s.mem :=
  pokeBytes_of_not_allowed s.params s.mem writes fun a => by rw [periphWritable, h]; rfl

end Tick

/-- Settles O60. -/
theorem stopAndTick : Obligations.StopAndTick := by
  refine fun s t writes replies => ⟨hostStop_of_running, hostStop_of_not_running, fun hhalted hstep => ?_, rfl,
    fun a h => tick_byteAt_of_not_writable writes replies ?_,
    fun a hw hram => tick_byteAt_of_writable writes replies hram ((periphWritable_iff s.params a).2 hw),
    tick_mem_of_no_window writes replies⟩
  · rw [step_of_not_running (by simp [hhalted])] at hstep
    cases hstep; rfl
  · rintro ⟨hram, hw⟩
    rcases h with houtside | hnotRam
    · obtain ⟨w, hmem, hin⟩ := (periphWritable_iff s.params a).1 hw
      exact houtside w hmem hin
    · rw [hram] at hnotRam
      cases hnotRam

end Machine
end Sys2Proof
end

section
/-! SUPPORT. Construction and image load (70_reset_and_hazards.md): the range table that construction sorts, where the
host's writes put their bytes, and what a load that fits leaves at each address. -/

namespace Sys2Proof
namespace Machine

/-! ### The range table in the order of its bases (20_memory.md R61) -/

/-- The order of `sortRanges`. -/
abbrev BasesInOrder (r q : BusRange) : Prop := r.base.toNat ≤ q.base.toNat

theorem insertRange_eq_orderedInsert (r : BusRange) (rs : List BusRange) :
    insertRange r rs = rs.orderedInsert BasesInOrder r := by
  induction rs with
  | nil => rfl
  | cons q rs ih => rw [insertRange, List.orderedInsert_cons, ih]

theorem sortRanges_eq_insertionSort (rs : List BusRange) : sortRanges rs = rs.insertionSort BasesInOrder := by
  induction rs with
  | nil => rfl
  | cons r rs ih => rw [sortRanges, List.insertionSort_cons, ih, insertRange_eq_orderedInsert]

theorem sortRanges_perm (rs : List BusRange) : (sortRanges rs).Perm rs := by
  rw [sortRanges_eq_insertionSort]
  exact List.perm_insertionSort BasesInOrder rs

theorem sortRanges_pairwise (rs : List BusRange) : (sortRanges rs).Pairwise BasesInOrder := by
  have htotal : Std.Total BasesInOrder := ⟨fun r q => Nat.le_total r.base.toNat q.base.toNat⟩
  have htrans : IsTrans BusRange BasesInOrder := ⟨fun _ _ _ => Nat.le_trans⟩
  rw [sortRanges_eq_insertionSort]
  exact List.pairwise_insertionSort BasesInOrder rs

/-- Whether a table is admissible does not depend on its order. -/
theorem wellFormedRanges_of_perm {rs qs : List BusRange} (h : rs.Perm qs) (hqs : wellFormedRanges qs) :
    wellFormedRanges rs := by
  obtain ⟨hfits, hdisjoint, ⟨r, hr, hram⟩, haligned⟩ := hqs
  exact ⟨fun r hr => hfits r (h.mem_iff.1 hr), (h.pairwise_iff Or.symm).2 hdisjoint, ⟨r, h.mem_iff.2 hr, hram⟩,
    fun r hr => haligned r (h.mem_iff.1 hr)⟩

theorem inRam_iff_of_wf {p : Params} (hp : p.wf) (a : BusAddr) :
    inRam p a = true ↔ ∃ r ∈ p.ranges, r.kind = .ram ∧ InRange r a := by
  rw [inRam_iff]
  constructor
  · rintro ⟨r, hr, hram⟩
    obtain ⟨hmem, hin⟩ := region_some hr
    exact ⟨r, hmem, hram, hin⟩
  · rintro ⟨r, hmem, hram, hin⟩
    exact ⟨r, region_of_mem hp hmem hin, hram⟩

/-! ### Where the host's writes put bytes -/

/-- The host's direct writes list no byte outside RAM. -/
theorem mem_pokeBytes {allowed : BusAddr → Bool} {p : Params} {m : Memory} {l : List Host.Cell} {c : Host.Cell}
    (h : c ∈ pokeBytes allowed p m l) : c ∈ m ∨ (c.1 < 2 ^ 32 ∧ inRam p (BitVec.ofNat 32 c.1) = true) := by
  induction l generalizing m with
  | nil => exact .inl h
  | cons d l ih =>
    obtain ⟨a, b⟩ := d
    unfold pokeBytes at h
    split at h
    · rename_i hallowed
      obtain ⟨hlt, hram, -⟩ := hallowed
      refine (ih h).elim (fun hc => ?_) .inr
      rcases Memory.mem_write hc with rfl | hc
      · exact .inr ⟨hlt, hram⟩
      · exact .inl hc
    · exact ih h

/-- An image copy lists no new byte but those the image covers. -/
theorem mem_copyImage {m : Memory} {a : Nat} {image : List Byte} {c : Host.Cell} (h : c ∈ copyImage m a image) :
    c ∈ m ∨ (a ≤ c.1 ∧ c.1 < a + image.length) := by
  induction image generalizing m a with
  | nil => exact .inl h
  | cons b image ih =>
    rw [List.length_cons]
    rcases ih h with hc | ⟨hle, hlt⟩
    · rcases Memory.mem_write hc with rfl | hc
      · exact .inr ⟨Nat.le_refl a, by omega⟩
      · exact .inl hc
    · exact .inr ⟨by omega, by omega⟩

/-! ### Construction (R360) -/

/-- The block that construction makes of an admissible table. -/
def constructed (p : Params) (d : Draws) : State where
  gpr := d.gpr
  hi := d.hi
  lo := d.lo
  pc := Config.resetVector
  pend := none
  llbit := false
  run := .running
  mem := pokeBytes (fun _ => true) { p with ranges := sortRanges p.ranges } [] d.ram
  params := { p with ranges := sortRanges p.ranges }
  devLog := []
  devReplies := []

section Construct
variable {p : Params} (d : Draws)

theorem construct_of_wf (hp : p.wf) : construct p d = .next (constructed p d) := if_pos hp

theorem construct_of_not_wf (hp : ¬ p.wf) : construct p d = .fault .malformedRangeTable := if_neg hp

theorem constructed_params_wf (hp : p.wf) : (constructed p d).params.wf :=
  wellFormedRanges_of_perm (sortRanges_perm p.ranges) hp

theorem constructed_inRam_iff (hp : p.wf) (x : BusAddr) :
    inRam (constructed p d).params x = true ↔ ∃ r ∈ p.ranges, r.kind = .ram ∧ InRange r x :=
  (inRam_iff_of_wf (constructed_params_wf d hp) x).trans <|
    exists_congr fun _ => and_congr_left' (sortRanges_perm p.ranges).mem_iff

/-- A byte of RAM is the draw INIT_RAM (10_state.md R46). -/
theorem constructed_byteAt_of_ram (hp : p.wf) {x : BusAddr} (h : ∃ r ∈ p.ranges, r.kind = .ram ∧ InRange r x) :
    (constructed p d).byteAt x = drawnByte d x :=
  (read_pokeBytes _ _ _ _ x).trans (if_pos ⟨(constructed_inRam_iff d hp x).2 h, rfl⟩)

theorem constructed_byteAt_of_not_ram (hp : p.wf) {x : BusAddr}
    (h : ¬ ∃ r ∈ p.ranges, r.kind = .ram ∧ InRange r x) : (constructed p d).byteAt x = backgroundByte :=
  (read_pokeBytes _ _ _ _ x).trans (if_neg fun hx => h ((constructed_inRam_iff d hp x).1 hx.1))

theorem inv_constructed (hp : p.wf) : Inv (constructed p d) where
  paramsOk := constructed_params_wf d hp
  memCanonical := wf_pokeBytes d.ram ⟨.nil, fun _ h => by cases h⟩
  memIsRam := fun _ hc => (mem_pokeBytes hc).elim (fun h => by cases h) id
  pcAligned := show Config.resetVector.toNat % 4 = 0 by decide
  pendAligned := fun _ h => by cases h
  recordAgrees := fun _ h => by cases h

theorem construct_inv {s : State} (h : construct p d = .next s) : Inv s := by
  by_cases hp : p.wf
  · rw [construct_of_wf d hp] at h
    cases h
    exact inv_constructed d hp
  · rw [construct_of_not_wf d hp] at h
    cases h

end Construct

/-! ### Image load (R362 to R364) -/

/-- All addresses of an image of `n` bytes are in one RAM range (R362). -/
def ImageInRam (p : Params) (n : Nat) : Prop :=
  ∃ r ∈ p.ranges, r.kind = .ram ∧ ∀ i < n, r.base.toNat ≤ p.imageBase.toNat + i ∧
    p.imageBase.toNat + i < r.base.toNat + r.size

/-- The model's fit test looks at the image's ends alone; an empty image is in the RAM range each block has (R61). -/
theorem imageFits_iff {p : Params} (hp : p.wf) (n : Nat) : imageFits p n = true ↔ ImageInRam p n := by
  obtain ⟨-, -, ⟨r₀, hr₀, hram₀⟩, -⟩ := hp
  simp only [imageFits, ImageInRam, Bool.or_eq_true, beq_iff_eq, List.any_eq_true, Bool.and_eq_true,
    decide_eq_true_eq]
  unfold BusRange.limit
  constructor
  · rintro (rfl | ⟨r, hr, ⟨hram, hbase⟩, hlimit⟩)
    · exact ⟨r₀, hr₀, hram₀, fun i hi => by omega⟩
    · exact ⟨r, hr, hram, fun i hi => ⟨by omega, by omega⟩⟩
  · rintro ⟨r, hr, hram, hall⟩
    rcases Nat.eq_zero_or_pos n with rfl | hpos
    · exact .inl rfl
    · have hfirst := hall 0 hpos
      have hlast := hall (n - 1) (by omega)
      exact .inr ⟨r, hr, ⟨hram, by omega⟩, by omega⟩

/-- A bus address that a fitting image covers, as a number, is below the bus's end and a byte of RAM. -/
theorem ImageInRam.inRam {p : Params} {n a : Nat} (hp : p.wf) (h : ImageInRam p n) (hle : p.imageBase.toNat ≤ a)
    (hlt : a < p.imageBase.toNat + n) : a < 2 ^ 32 ∧ inRam p (BitVec.ofNat 32 a) = true := by
  obtain ⟨r, hr, hram, hall⟩ := h
  have hin := hall (a - p.imageBase.toNat) (by omega)
  have hlimit : r.base.toNat + r.size ≤ 2 ^ 32 := (hp.1 r hr).2
  have ha : a < 2 ^ 32 := by omega
  refine ⟨ha, (inRam_iff_of_wf hp _).2 ⟨r, hr, hram, ?_⟩⟩
  rw [InRange, BitVec.toNat_ofNat, Nat.mod_eq_of_lt ha]
  omega

section Load
variable {image : List Byte} {entry : Word64} {s t : State}

theorem load_of_fits (hfits : imageFits s.params image.length = true) (he : Aligned4 entry) :
    load image entry s = .next { s with mem := copyImage s.mem s.params.imageBase.toNat image, pc := entry } :=
  if_pos ⟨hfits, (wordAligned_iff entry).2 he⟩

theorem load_of_not_fits (entry : Word64) (h : ¬ imageFits s.params image.length = true) :
    load image entry s = .fault .loadFailure :=
  if_neg fun hc => h hc.1

theorem load_next_fits (h : load image entry s = .next t) : imageFits s.params image.length = true := by
  by_contra hn
  rw [load_of_not_fits entry hn] at h
  cases h

/-- Byte `i` of a loaded image is at IMAGE_BASE + i: a fitting image ends before the addresses wrap. -/
theorem load_byteAt_image (hp : s.params.wf) (h : load image entry s = .next t) {i : Nat} {b : Byte}
    (hb : image[i]? = some b) : t.byteAt (byteAddr s.params.imageBase i) = b := by
  have hfits := (imageFits_iff hp _).1 (load_next_fits h)
  obtain ⟨-, rfl⟩ := load_next h
  obtain ⟨hi, rfl⟩ := List.getElem?_eq_some_iff.1 hb
  have hlt := (hfits.inRam hp (a := s.params.imageBase.toNat + i) (by omega) (by omega)).1
  simp only [State.byteAt, byteAddr_toNat, Nat.mod_eq_of_lt hlt, read_copyImage]
  rw [dif_pos ⟨by omega, by omega⟩]
  congr 1
  omega

theorem load_byteAt_of_not_covered (h : load image entry s = .next t) {x : BusAddr}
    (hx : ∀ i < image.length, x ≠ byteAddr s.params.imageBase i) : t.byteAt x = s.byteAt x := by
  obtain ⟨-, rfl⟩ := load_next h
  refine (read_copyImage _ _ _ _).trans (dif_neg fun ⟨hle, hlt⟩ => ?_)
  refine hx (x.toNat - s.params.imageBase.toNat) (by omega) (BitVec.eq_of_toNat_eq ?_)
  rw [byteAddr_toNat, Nat.add_sub_cancel' hle, Nat.mod_eq_of_lt x.isLt]

theorem load_memoryIsRam (hp : s.params.wf) (hm : MemoryIsRam s) (h : load image entry s = .next t) :
    MemoryIsRam t := by
  have hfits := (imageFits_iff hp _).1 (load_next_fits h)
  obtain ⟨-, rfl⟩ := load_next h
  exact fun c hc => (mem_copyImage hc).elim (hm c) fun ⟨hle, hlt⟩ => hfits.inRam hp hle hlt

/-- A load into a running block keeps the invariant. -/
theorem load_inv (hs : Inv s) (hrun : s.run = .running) (h : load image entry s = .next t) : Inv t := by
  have hram := load_memoryIsRam hs.paramsOk hs.memIsRam h
  obtain ⟨he, rfl⟩ := load_next h
  exact
    { paramsOk := hs.paramsOk
      memCanonical := wf_copyImage _ image hs.memCanonical
      memIsRam := hram
      pcAligned := he
      pendAligned := hs.pendAligned
      recordAgrees := fun e hf => by cases hrun.symm.trans hf }

end Load

/-- Settles O59: the fit test is the statement's, so a load that passes it is `load_of_fits`. -/
theorem imageLoad : Obligations.ImageLoad := by
  intro s image entry hs
  have hfits : imageFits s.params image.length = true ↔ ImageInRam s.params image.length :=
    imageFits_iff hs.paramsOk _
  constructor
  · rintro ⟨hin, he⟩
    have hload := load_of_fits (hfits.2 hin) he
    exact ⟨_, hload, rfl, fun i b => load_byteAt_image hs.paramsOk hload, fun x => load_byteAt_of_not_covered hload⟩
  · rintro (hout | he)
    · exact load_of_not_fits entry fun h => hout (hfits.1 h)
    · exact load_misaligned image s he

/-! ### The invariant at reset and under the host's actions -/

theorem tick_inv {s : State} (h : Inv s) (writes : List Host.Cell) (replies : List Word64) :
    Inv (tick writes replies s) :=
  { h with
    memCanonical := wf_pokeBytes writes h.memCanonical
    memIsRam := fun c hc => (mem_pokeBytes hc).elim (h.memIsRam c) id }

theorem hostStop_inv {s : State} (h : Inv s) : Inv (hostStop s) := by
  by_cases hrun : s.run = .running
  · rw [hostStop_of_running hrun]
    exact inv_halted h
  · rw [hostStop_of_not_running hrun]
    exact h

/-- Settles O19, one lemma for each of the host's actions. -/
theorem hostActionsKeepInvariant : Obligations.HostActionsKeepInvariant :=
  ⟨fun _ d _ => construct_inv d, fun _ _ _ _ => load_inv, fun _ writes replies h => tick_inv h writes replies,
    fun _ => hostStop_inv⟩

/-- The draws of `State.reset` (log 7 to 9). -/
def resetDraws : Draws := ⟨Vector.replicate 31 0, 0, 0, []⟩

theorem constructed_reset : constructed resetParams resetDraws = State.reset := rfl

/-- Settles O18: the reset state is a constructed one. -/
theorem invariantAtReset : Obligations.InvariantAtReset := by
  have hwf : resetParams.wf := by decide
  exact ⟨constructed_reset ▸ inv_constructed resetDraws hwf,
    (construct_of_wf resetDraws hwf).trans (congrArg _ constructed_reset)⟩

/-! ### The constructed block (R360, R361) -/

/-- A conditional store that completes with LLbit clear stored nothing and wrote 0 (R361). -/
theorem storeConditional_completed_clear {i : Instr} {n : Width} {ea : Word64} {rt : Reg} {s t : State}
    (hl : s.llbit = false) (ht : t.run = .running) (h : storeConditional i n ea rt s = .next t) :
    t.reg rt = 0 ∧ SameMemory s t ∧ SameDevices s t := by
  cases hc : classify s.params (busAddr ea) n with
  | error sub =>
    rw [storeConditional_error i rt hc] at h
    cases h
    cases ht
  | ok route =>
    obtain ⟨u, hu, ⟨hreg, -⟩, -, hmem, hdev, -⟩ := storeConditional_clear i rt hc hl
    rw [hu] at h
    cases h
    exact ⟨hreg.trans (ite_self 0), hmem, hdev⟩

/-- Settles O58, by the two cases of the range table; a load after construction covers bytes of the draw. -/
theorem construction : Obligations.Construction := by
  refine ⟨fun p d => ⟨construct_of_not_wf d, fun hp => ?_⟩, fun s t rt base offset hl _ ht h => ?_⟩
  · have hread : ∀ x, (∃ r ∈ p.ranges, r.kind = .ram ∧ InRange r x) → (constructed p d).byteAt x = drawnByte d x :=
      fun x => constructed_byteAt_of_ram d hp
    refine ⟨constructed p d, construct_of_wf d hp, rfl, rfl, rfl, rfl, rfl, rfl, rfl, rfl, hread,
      fun x => constructed_byteAt_of_not_ram d hp, rfl, sortRanges_perm _, sortRanges_pairwise _,
      fun image entry t hload => ⟨?_, fun i b => load_byteAt_image (constructed_params_wf d hp) hload,
        fun x hx hfree => (load_byteAt_of_not_covered hload hfree).trans (hread x hx)⟩⟩
    obtain ⟨-, rfl⟩ := load_next hload
    rfl
  · exact h.elim (storeConditional_completed_clear hl ht) (storeConditional_completed_clear hl ht)

end Machine
end Sys2Proof
end
